-- ==== Sys2Proof/Word.lean ====
section
/-! DEFINITION. The machine word, the byte, register numbers and the two register widths.

A register is `XLEN` bits wide with `XLEN` = 32 or 64 (spec/00_scope.md R6, spec/10_state.md R10). One type serves both
widths: a `Word` has 64 bits, and with `XLEN` = 32 a value is held in its lower half with the upper half zero
(DESIGN CHOICE, notes/assumptions/4.md, safe). `Xlen.wrap` is "modulo 2^XLEN". -/

namespace Sys2Proof

/-- A register value, an address or a control-register value (R7, R10). -/
abbrev Word := BitVec 64

/-- One byte of memory (R40). -/
abbrev Byte := BitVec 8

/-- A general register number, 0 to 31 (R10). -/
abbrev RegIdx := Fin 32

/-- The width of the `x` registers and of `pc`: the parameter `XLEN` (R6). -/
inductive Xlen where
  | x32
  | x64
deriving DecidableEq, Repr

/-- `XLEN` as a number of bits (R6). -/
def Xlen.bits : Xlen → Nat
  | .x32 => 32
  | .x64 => 64

/-- A value modulo `2^XLEN` (R7). -/
def Xlen.wrap (x : Xlen) (w : Word) : Word :=
  match x with
  | .x32 => (w.setWidth 32).setWidth 64
  | .x64 => w

/-- `sext_XLEN` of R7: copy the top bit of `v` up to `XLEN` bits. -/
def Xlen.sext {n : Nat} (x : Xlen) (v : BitVec n) : Word :=
  x.wrap (v.signExtend 64)

end Sys2Proof
end

