-- ==== Sys2Proof/Syntax.lean ====
section
/-! DEFINITION. The instructions: one constructor for each row of spec/opcode_table.json (spec/30_encoding.md R67), every
field of the encoding an operand, the ignored fields of `fence` and `fence.i` among them (notes/assumptions/32.md). -/

namespace Sys2Proof

/-- An instruction of the hart (R67). Offsets of branches and of `jal` are the immediates of R65 with their bit 0. -/
inductive Instr where
  /-- `lpad LPL` (spec/41_lpad.md R101). -/
  | lpad (lpl : BitVec 20)
  /-- `auipc rd, imm20`, `rd` not `x0` (R122). -/
  | auipc (rd : RegIdx) (imm20 : BitVec 20)
  /-- `lui rd, imm20` (R121). -/
  | lui (rd : RegIdx) (imm20 : BitVec 20)
  /-- `jal rd, off` (R134). -/
  | jal (rd : RegIdx) (off : BitVec 21)
  /-- `jalr rd, imm(rs1)` (spec/40_indirect_jumps.md R84). -/
  | jalr (rd rs1 : RegIdx) (imm : BitVec 12)
  /-- `beq rs1, rs2, off` (R128). -/
  | beq (rs1 rs2 : RegIdx) (off : BitVec 13)
  /-- `bne rs1, rs2, off` (R129). -/
  | bne (rs1 rs2 : RegIdx) (off : BitVec 13)
  /-- `bltu rs1, rs2, off` (R130). -/
  | bltu (rs1 rs2 : RegIdx) (off : BitVec 13)
  /-- `bgeu rs1, rs2, off` (R131). -/
  | bgeu (rs1 rs2 : RegIdx) (off : BitVec 13)
  /-- `lw rd, imm(rs1)` (R126). -/
  | lw (rd rs1 : RegIdx) (imm : BitVec 12)
  /-- `sw rs2, imm(rs1)` (R127). -/
  | sw (rs2 rs1 : RegIdx) (imm : BitVec 12)
  /-- `addi rd, rs1, imm` (R123). -/
  | addi (rd rs1 : RegIdx) (imm : BitVec 12)
  /-- `slli rd, rs1, shamt`; bit 5 of `shamt` is `inst[25]` (R125). -/
  | slli (rd rs1 : RegIdx) (shamt : BitVec 6)
  /-- `add rd, rs1, rs2` (R124). -/
  | add (rd rs1 rs2 : RegIdx)
  /-- `fence pred, succ`; `rd` and `rs1` are ignored (R132). -/
  | fence (fm pred succ : BitVec 4) (rs1 rd : RegIdx)
  /-- `fence.i`; its immediate, `rs1` and `rd` are ignored (R133). -/
  | fenceI (imm : BitVec 12) (rs1 rd : RegIdx)
  /-- `ecall` (R135). -/
  | ecall
  /-- `ebreak`, and `c.ebreak` (R136). -/
  | ebreak
  /-- `sret` (spec/42_trap_return.md R111, R112). -/
  | sret
  /-- `mret` (R110). -/
  | mret
  /-- `wfi` (R137). -/
  | wfi
  /-- `csrrw rd, csr, rs1` (R138). -/
  | csrrw (rd rs1 : RegIdx) (csr : BitVec 12)
  /-- `csrrs rd, csr, rs1` (R139). -/
  | csrrs (rd rs1 : RegIdx) (csr : BitVec 12)
  /-- `csrrc rd, csr, rs1` (R140). -/
  | csrrc (rd rs1 : RegIdx) (csr : BitVec 12)
  /-- `csrrwi rd, csr, uimm` (R141). -/
  | csrrwi (rd : RegIdx) (uimm : BitVec 5) (csr : BitVec 12)
  /-- `csrrsi rd, csr, uimm` (R142). -/
  | csrrsi (rd : RegIdx) (uimm : BitVec 5) (csr : BitVec 12)
  /-- `csrrci rd, csr, uimm` (R143). -/
  | csrrci (rd : RegIdx) (uimm : BitVec 5) (csr : BitVec 12)
  /-- `c.jr rs1`, `rs1` not `x0` (R85). -/
  | cJr (rs1 : RegIdx)
  /-- `c.jalr rs1`, `rs1` not `x0` (R86). -/
  | cJalr (rs1 : RegIdx)
deriving DecidableEq, Repr

/-- An instruction as stored: one 16-bit parcel or a 32-bit word (R60). -/
inductive Code where
  | half (h : BitVec 16)
  | word (w : BitVec 32)
deriving DecidableEq, Repr

end Sys2Proof
end

