-- ==== Sys2Proof/WellFormed.lean ====
section
/-! DEFINITION. Which terms of `Instr` an encoding of spec/30_encoding.md can denote. -/

namespace Sys2Proof

/-- The conditions of R67, R68 and R65 on operands: `auipc` has `rd` other than `x0` (with `x0` the word is `lpad`), `c.jr` and
`c.jalr` have `rs1` other than `x0`, and the offsets of branches and of `jal` are multiples of 2. -/
def Instr.wf : Instr → Bool
  | .lpad _ => true
  | .auipc rd _ => rd != 0
  | .lui _ _ => true
  | .jal _ off => !off.getLsbD 0
  | .jalr _ _ _ => true
  | .beq _ _ off => !off.getLsbD 0
  | .bne _ _ off => !off.getLsbD 0
  | .bltu _ _ off => !off.getLsbD 0
  | .bgeu _ _ off => !off.getLsbD 0
  | .lw _ _ _ => true
  | .sw _ _ _ => true
  | .addi _ _ _ => true
  | .slli _ _ _ => true
  | .add _ _ _ => true
  | .fence _ _ _ _ _ => true
  | .fenceI _ _ _ => true
  | .ecall => true
  | .ebreak => true
  | .sret => true
  | .mret => true
  | .wfi => true
  | .csrrw _ _ _ => true
  | .csrrs _ _ _ => true
  | .csrrc _ _ _ => true
  | .csrrwi _ _ _ => true
  | .csrrsi _ _ _ => true
  | .csrrci _ _ _ => true
  | .cJr rs1 => rs1 != 0
  | .cJalr rs1 => rs1 != 0

end Sys2Proof
end

