-- ==== Sys2Proof/Decode.lean ====
section
/-! DEFINITION. The decoder, total on any bytes and rejecting by name, and after it the encoder, both written from the
encoding tables of spec/30_encoding.md R60 to R68. The decoder does not look at the parameters: whether 16-bit instructions
exist (`HAS_C`), whether `slli` may use bit 25 (`XLEN`) and whether `sret` exists (`HAS_S`) is decided where the instruction is
fetched or executed (notes/assumptions/32.md). -/

namespace Sys2Proof

/-- Why a sequence of bits is no instruction of this hardware. Each becomes an illegal-instruction exception (R60, R68),
but for `truncated`, which only a byte list that ends too early gives. -/
inductive DecodeError where
  /-- A 16-bit word outside the opcode table, 0x0000 and `c.jr x0` (0x8002) among them (R68). -/
  | noSuchHalf
  /-- A 32-bit word that matches no row of the opcode table (R68). -/
  | noSuchWord
  /-- An encoding longer than 32 bits (R60). -/
  | tooLong
  /-- A 16-bit instruction on a hart without `HAS_C` (R60). -/
  | noCompressed
  /-- The byte list ends inside the instruction. -/
  | truncated
deriving DecidableEq, Repr

/-! ### Lengths (R60) -/

/-- What the first parcel says about the length of the instruction (R60). -/
inductive LengthClass where
  | half
  | word
  | long
deriving DecidableEq, Repr

/-- The length is read from the lowest bits of the first parcel (R60). -/
def lengthOf (p : BitVec 16) : LengthClass :=
  if p.extractLsb' 0 2 ≠ 0b11#2 then .half
  else if p.extractLsb' 2 3 ≠ 0b111#3 then .word
  else .long

/-- The 32-bit word of two parcels; the parcel at the lower address holds bits 15:0 (R41). -/
def joinParcels (lo hi : BitVec 16) : BitVec 32 := hi ++ lo

/-! ### Fields of a 32-bit word (R62) -/

def opcodeOf (w : BitVec 32) : BitVec 7 := w.extractLsb' 0 7
def rdOf (w : BitVec 32) : RegIdx := (w.extractLsb' 7 5).toFin
def funct3Of (w : BitVec 32) : BitVec 3 := w.extractLsb' 12 3
def rs1Of (w : BitVec 32) : RegIdx := (w.extractLsb' 15 5).toFin
def rs2Of (w : BitVec 32) : RegIdx := (w.extractLsb' 20 5).toFin
def funct7Of (w : BitVec 32) : BitVec 7 := w.extractLsb' 25 7
/-- `inst[31:26]`, the fixed bits of `slli` (R125). -/
def funct6Of (w : BitVec 32) : BitVec 6 := w.extractLsb' 26 6
/-- `inst[25:20]` (R125). -/
def shamtOf (w : BitVec 32) : BitVec 6 := w.extractLsb' 20 6
/-- `inst[19:15]` as the immediate of the CSR `I` forms (R65). -/
def uimmOf (w : BitVec 32) : BitVec 5 := w.extractLsb' 15 5
/-- I-type immediate, and the CSR number (R65). -/
def iImmOf (w : BitVec 32) : BitVec 12 := w.extractLsb' 20 12
/-- S-type immediate (R65). -/
def sImmOf (w : BitVec 32) : BitVec 12 := w.extractLsb' 25 7 ++ w.extractLsb' 7 5
/-- B-type immediate (R65). -/
def bImmOf (w : BitVec 32) : BitVec 13 :=
  w.extractLsb' 31 1 ++ w.extractLsb' 7 1 ++ w.extractLsb' 25 6 ++ w.extractLsb' 8 4 ++ 0b0#1
/-- `inst[31:12]`, the U-type immediate and the landing-pad label (R61, R65). -/
def uImmOf (w : BitVec 32) : BitVec 20 := w.extractLsb' 12 20
/-- J-type immediate (R65). -/
def jImmOf (w : BitVec 32) : BitVec 21 :=
  w.extractLsb' 31 1 ++ w.extractLsb' 12 8 ++ w.extractLsb' 20 1 ++ w.extractLsb' 21 10 ++ 0b0#1

/-- Is the word an `lpad`: `inst & 0x00000FFF == 0x00000017` (R61). -/
def isLpadWord (w : BitVec 32) : Bool := w &&& 0x00000FFF#32 == 0x00000017#32

/-! ### The decoder -/

/-- A 32-bit word, matched against the rows of R67 in their order. -/
def decodeWord (w : BitVec 32) : Except DecodeError Instr :=
  if opcodeOf w = 0b0010111#7 ∧ rdOf w = 0 then .ok (.lpad (uImmOf w))
  else if opcodeOf w = 0b0010111#7 then .ok (.auipc (rdOf w) (uImmOf w))
  else if opcodeOf w = 0b0110111#7 then .ok (.lui (rdOf w) (uImmOf w))
  else if opcodeOf w = 0b1101111#7 then .ok (.jal (rdOf w) (jImmOf w))
  else if opcodeOf w = 0b1100111#7 ∧ funct3Of w = 0b000#3 then .ok (.jalr (rdOf w) (rs1Of w) (iImmOf w))
  else if opcodeOf w = 0b1100011#7 ∧ funct3Of w = 0b000#3 then .ok (.beq (rs1Of w) (rs2Of w) (bImmOf w))
  else if opcodeOf w = 0b1100011#7 ∧ funct3Of w = 0b001#3 then .ok (.bne (rs1Of w) (rs2Of w) (bImmOf w))
  else if opcodeOf w = 0b1100011#7 ∧ funct3Of w = 0b110#3 then .ok (.bltu (rs1Of w) (rs2Of w) (bImmOf w))
  else if opcodeOf w = 0b1100011#7 ∧ funct3Of w = 0b111#3 then .ok (.bgeu (rs1Of w) (rs2Of w) (bImmOf w))
  else if opcodeOf w = 0b0000011#7 ∧ funct3Of w = 0b010#3 then .ok (.lw (rdOf w) (rs1Of w) (iImmOf w))
  else if opcodeOf w = 0b0100011#7 ∧ funct3Of w = 0b010#3 then .ok (.sw (rs2Of w) (rs1Of w) (sImmOf w))
  else if opcodeOf w = 0b0010011#7 ∧ funct3Of w = 0b000#3 then .ok (.addi (rdOf w) (rs1Of w) (iImmOf w))
  else if opcodeOf w = 0b0010011#7 ∧ funct3Of w = 0b001#3 ∧ funct6Of w = 0b000000#6 then .ok (.slli (rdOf w) (rs1Of w) (shamtOf w))
  else if opcodeOf w = 0b0110011#7 ∧ funct3Of w = 0b000#3 ∧ funct7Of w = 0b0000000#7 then .ok (.add (rdOf w) (rs1Of w) (rs2Of w))
  else if opcodeOf w = 0b0001111#7 ∧ funct3Of w = 0b000#3 then
    .ok (.fence (w.extractLsb' 28 4) (w.extractLsb' 24 4) (w.extractLsb' 20 4) (rs1Of w) (rdOf w))
  else if opcodeOf w = 0b0001111#7 ∧ funct3Of w = 0b001#3 then .ok (.fenceI (iImmOf w) (rs1Of w) (rdOf w))
  else if w = 0x00000073#32 then .ok .ecall
  else if w = 0x00100073#32 then .ok .ebreak
  else if w = 0x10200073#32 then .ok .sret
  else if w = 0x30200073#32 then .ok .mret
  else if w = 0x10500073#32 then .ok .wfi
  else if opcodeOf w = 0b1110011#7 ∧ funct3Of w = 0b001#3 then .ok (.csrrw (rdOf w) (rs1Of w) (iImmOf w))
  else if opcodeOf w = 0b1110011#7 ∧ funct3Of w = 0b010#3 then .ok (.csrrs (rdOf w) (rs1Of w) (iImmOf w))
  else if opcodeOf w = 0b1110011#7 ∧ funct3Of w = 0b011#3 then .ok (.csrrc (rdOf w) (rs1Of w) (iImmOf w))
  else if opcodeOf w = 0b1110011#7 ∧ funct3Of w = 0b101#3 then .ok (.csrrwi (rdOf w) (uimmOf w) (iImmOf w))
  else if opcodeOf w = 0b1110011#7 ∧ funct3Of w = 0b110#3 then .ok (.csrrsi (rdOf w) (uimmOf w) (iImmOf w))
  else if opcodeOf w = 0b1110011#7 ∧ funct3Of w = 0b111#3 then .ok (.csrrci (rdOf w) (uimmOf w) (iImmOf w))
  else .error .noSuchWord

/-- The `rd/rs1` field of a 16-bit word (R62). -/
def cRs1Of (h : BitVec 16) : RegIdx := (h.extractLsb' 7 5).toFin

/-- A 16-bit word: `c.jr`, `c.jalr`, and `c.ebreak`, which is the same instruction as `ebreak` (R67, R68, R136). -/
def decodeHalf (h : BitVec 16) : Except DecodeError Instr :=
  if h.extractLsb' 0 2 = 0b10#2 ∧ h.extractLsb' 2 5 = 0b00000#5 ∧ h.extractLsb' 12 4 = 0b1000#4 ∧ cRs1Of h ≠ 0 then
    .ok (.cJr (cRs1Of h))
  else if h.extractLsb' 0 2 = 0b10#2 ∧ h.extractLsb' 2 5 = 0b00000#5 ∧ h.extractLsb' 12 4 = 0b1001#4 ∧ cRs1Of h ≠ 0 then
    .ok (.cJalr (cRs1Of h))
  else if h = 0x9002#16 then .ok .ebreak
  else .error .noSuchHalf

/-- One instruction as stored. -/
def decode : Code → Except DecodeError Instr
  | .half h => decodeHalf h
  | .word w => decodeWord w

/-- The instruction at the head of a list of bytes, lowest address first, and the bytes after it (R41, R60). -/
def decodeBytes : List Byte → Except DecodeError (Instr × List Byte)
  | b0 :: b1 :: rest =>
    match lengthOf (b1 ++ b0) with
    | .half => (decodeHalf (b1 ++ b0)).map (fun i => (i, rest))
    | .word =>
      match rest with
      | b2 :: b3 :: rest' => (decodeWord (joinParcels (b1 ++ b0) (b3 ++ b2))).map (fun i => (i, rest'))
      | _ => .error .truncated
    | .long => .error .tooLong
  | _ => .error .truncated

/-! ### The encoder -/

/-- The five bits of a register number. -/
def regBits (r : RegIdx) : BitVec 5 := BitVec.ofFin r

def rType (f7 : BitVec 7) (rs2 rs1 : BitVec 5) (f3 : BitVec 3) (rd : BitVec 5) (op : BitVec 7) : BitVec 32 :=
  f7 ++ rs2 ++ rs1 ++ f3 ++ rd ++ op

def iType (imm : BitVec 12) (rs1 : BitVec 5) (f3 : BitVec 3) (rd : BitVec 5) (op : BitVec 7) : BitVec 32 :=
  imm ++ rs1 ++ f3 ++ rd ++ op

def sType (imm : BitVec 12) (rs2 rs1 : BitVec 5) (f3 : BitVec 3) (op : BitVec 7) : BitVec 32 :=
  imm.extractLsb' 5 7 ++ rs2 ++ rs1 ++ f3 ++ imm.extractLsb' 0 5 ++ op

def bType (imm : BitVec 13) (rs2 rs1 : BitVec 5) (f3 : BitVec 3) (op : BitVec 7) : BitVec 32 :=
  imm.extractLsb' 12 1 ++ imm.extractLsb' 5 6 ++ rs2 ++ rs1 ++ f3 ++ imm.extractLsb' 1 4 ++ imm.extractLsb' 11 1 ++ op

def uType (imm : BitVec 20) (rd : BitVec 5) (op : BitVec 7) : BitVec 32 := imm ++ rd ++ op

def jType (imm : BitVec 21) (rd : BitVec 5) (op : BitVec 7) : BitVec 32 :=
  imm.extractLsb' 20 1 ++ imm.extractLsb' 1 10 ++ imm.extractLsb' 11 1 ++ imm.extractLsb' 12 8 ++ rd ++ op

/-- The CR format with `rs2` = 0 and `op` = 10 (R62, R85, R86). -/
def crType (funct4 : BitVec 4) (rs1 : BitVec 5) : BitVec 16 := funct4 ++ rs1 ++ 0b00000#5 ++ 0b10#2

/-- The stored form of an instruction, from the formats of R62 and the opcodes of R67. `ebreak` is given its 32-bit word. -/
def encode : Instr → Code
  | .lpad lpl => .word (uType lpl 0#5 0b0010111#7)
  | .auipc rd imm => .word (uType imm (regBits rd) 0b0010111#7)
  | .lui rd imm => .word (uType imm (regBits rd) 0b0110111#7)
  | .jal rd off => .word (jType off (regBits rd) 0b1101111#7)
  | .jalr rd rs1 imm => .word (iType imm (regBits rs1) 0b000#3 (regBits rd) 0b1100111#7)
  | .beq rs1 rs2 off => .word (bType off (regBits rs2) (regBits rs1) 0b000#3 0b1100011#7)
  | .bne rs1 rs2 off => .word (bType off (regBits rs2) (regBits rs1) 0b001#3 0b1100011#7)
  | .bltu rs1 rs2 off => .word (bType off (regBits rs2) (regBits rs1) 0b110#3 0b1100011#7)
  | .bgeu rs1 rs2 off => .word (bType off (regBits rs2) (regBits rs1) 0b111#3 0b1100011#7)
  | .lw rd rs1 imm => .word (iType imm (regBits rs1) 0b010#3 (regBits rd) 0b0000011#7)
  | .sw rs2 rs1 imm => .word (sType imm (regBits rs2) (regBits rs1) 0b010#3 0b0100011#7)
  | .addi rd rs1 imm => .word (iType imm (regBits rs1) 0b000#3 (regBits rd) 0b0010011#7)
  | .slli rd rs1 shamt => .word (iType (0b000000#6 ++ shamt) (regBits rs1) 0b001#3 (regBits rd) 0b0010011#7)
  | .add rd rs1 rs2 => .word (rType 0b0000000#7 (regBits rs2) (regBits rs1) 0b000#3 (regBits rd) 0b0110011#7)
  | .fence fm pred succ rs1 rd => .word (iType (fm ++ pred ++ succ) (regBits rs1) 0b000#3 (regBits rd) 0b0001111#7)
  | .fenceI imm rs1 rd => .word (iType imm (regBits rs1) 0b001#3 (regBits rd) 0b0001111#7)
  | .ecall => .word 0x00000073#32
  | .ebreak => .word 0x00100073#32
  | .sret => .word 0x10200073#32
  | .mret => .word 0x30200073#32
  | .wfi => .word 0x10500073#32
  | .csrrw rd rs1 csr => .word (iType csr (regBits rs1) 0b001#3 (regBits rd) 0b1110011#7)
  | .csrrs rd rs1 csr => .word (iType csr (regBits rs1) 0b010#3 (regBits rd) 0b1110011#7)
  | .csrrc rd rs1 csr => .word (iType csr (regBits rs1) 0b011#3 (regBits rd) 0b1110011#7)
  | .csrrwi rd uimm csr => .word (iType csr uimm 0b101#3 (regBits rd) 0b1110011#7)
  | .csrrsi rd uimm csr => .word (iType csr uimm 0b110#3 (regBits rd) 0b1110011#7)
  | .csrrci rd uimm csr => .word (iType csr uimm 0b111#3 (regBits rd) 0b1110011#7)
  | .cJr rs1 => .half (crType 0b1000#4 (regBits rs1))
  | .cJalr rs1 => .half (crType 0b1001#4 (regBits rs1))

/-- The bytes of a stored instruction, lowest address first (R41). -/
def Code.bytes : Code → List Byte
  | .half h => [h.extractLsb' 0 8, h.extractLsb' 8 8]
  | .word w => [w.extractLsb' 0 8, w.extractLsb' 8 8, w.extractLsb' 16 8, w.extractLsb' 24 8]

/-- Length in bytes of the stored form. -/
def Code.length : Code → Nat
  | .half _ => 2
  | .word _ => 4

/-- The stored form as one number, zero-extended: the "instruction bits" of the parameter `XTVAL_ILLEGAL` (R6, R151). -/
def Code.bits : Code → BitVec 32
  | .half h => h.setWidth 32
  | .word w => w

/-- `len` of R8: 2 for a 16-bit instruction, 4 for a 32-bit one. -/
def Instr.length : Instr → Nat
  | .cJr _ => 2
  | .cJalr _ => 2
  | _ => 4

/-! ### The host's question about the opcode table -/

/-- The four bytes of an instruction given as a number, lowest address first: its first `nbits` bits, zeros above. -/
def tableBytes (nbits w : Nat) : List Byte :=
  (List.range 4).map (fun i => BitVec.ofNat 8 ((w % 2 ^ nbits) / 256 ^ i))

/-- The instruction the decoder reads from an instruction whose bits are `w`, `nbits` of them given and zeros above. -/
def decodeTableWord (nbits w : Nat) : Option Instr :=
  match decodeBytes (tableBytes nbits w) with
  | .ok (i, _) => some i
  | .error _ => none

end Sys2Proof
end

