-- ==== Sys2Proof/Config.lean ====
section
/-! DEFINITION. What an implementation fixes: the parameters of spec/00_scope.md R6, and the free values.

A `Config` is plain data and stands in the state (`State.cfg`), where no step changes it; a statement about every state is then
a statement about every value of every parameter, as R6 asks (notes/assumptions/1.md). -/

namespace Sys2Proof

/-- What `xtval` receives on an illegal-instruction exception: the parameter `XTVAL_ILLEGAL` (R6, R151). -/
inductive XtvalIllegal where
  | zero
  | instructionBits
deriving DecidableEq, Repr

/-- What `LW` and `SW` do at a misaligned address: the parameter `MISALIGNED_DATA` (R6, R44). -/
inductive MisalignedData where
  | trap
  | perform
deriving DecidableEq, Repr

/-- The "implementation-defined bounded time" after which `WFI` is illegal where R137 says it is: `completes` when the
instruction, a no-op, always ends within it, `noWait` when the bound is zero (notes/assumptions/25.md). -/
inductive WfiBound where
  | completes
  | noWait
deriving DecidableEq, Repr

namespace Machine

/-- A privilege mode (R19). -/
inductive Priv where
  | u
  | s
  | m
deriving DecidableEq, Repr

/-- The modes a trap can be taken into (R153, R159): M, S (HS when `HAS_H`), VS. -/
inductive TrapTarget where
  | m
  | hs
  | vs
deriving DecidableEq, Repr

end Machine

/-- One row of a host's own `HostTrapTarget(cause, priv, V)` (R159). -/
structure TrapRoute where
  cause : BitVec 6
  priv : Machine.Priv
  virt : Bool
  target : Machine.TrapTarget
deriving DecidableEq, Repr

/-- The parameter `HostTrapTarget` (R6, R159, D24): `delegation` decides by the delegation registers, as the reference host
does (notes/assumptions/16.md); `table` is any other host's function of cause, `priv` and `V`, row by row, with M where no row
stands. -/
inductive HostTrapTarget where
  | delegation
  | table (routes : List TrapRoute)
deriving DecidableEq, Repr

/-- The ten bit positions `POS_*` (R6). -/
structure FieldPositions where
  mseccfgMfcfie : Nat
  menvcfgCfie : Nat
  menvcfgSfcfie : Nat
  mstatusUfcfie : Nat
  mstatusSpelp : Nat
  mstatusMpelp : Nat
  henvcfgCfie : Nat
  henvcfgSfcfie : Nat
  vsstatusUfcfie : Nat
  vsstatusSpelp : Nat
deriving DecidableEq, Repr

/-- The ten reset values `RESET_*` (R6, R36). -/
structure ResetFields where
  mfcfie : Bool
  menvCfie : Bool
  menvSfcfie : Bool
  ufcfie : Bool
  henvCfie : Bool
  henvSfcfie : Bool
  vsUfcfie : Bool
  mpelp : Bool
  spelp : Bool
  vsSpelp : Bool
deriving DecidableEq, Repr

/-- The implementation parameters (R6), and the bound of `WFI` (R137). -/
structure Config where
  /-- `HAS_ZICFISSLP`. -/
  hasZicfisslp : Bool
  /-- `XLEN`. -/
  xlen : Xlen
  /-- `HAS_C`. -/
  hasC : Bool
  /-- `HAS_S`. -/
  hasS : Bool
  /-- `HAS_U`. -/
  hasU : Bool
  /-- `HAS_H`. -/
  hasH : Bool
  /-- `POS_*`. -/
  pos : FieldPositions
  /-- `SSTATUS_HAS_UFCFIE`. -/
  sstatusHasUfcfie : Bool
  /-- `RESET_*`. -/
  reset : ResetFields
  /-- `RESET_PC`. -/
  resetPc : Word
  /-- `XTVAL_ILLEGAL`. -/
  xtvalIllegal : XtvalIllegal
  /-- `MISALIGNED_DATA`. -/
  misalignedData : MisalignedData
  /-- The bound of `WFI` (R137). -/
  wfiBound : WfiBound
  /-- `HostTrapTarget`. -/
  trapTarget : HostTrapTarget
deriving DecidableEq, Repr

/-- The positions of the host's fields of `mstatus`: R34's, and `TW`, `TSR` (PRESUMED, notes/assumptions/11.md). -/
def hostMstatusPositions : List Nat := [1, 3, 5, 7, 8, 11, 12, 21, 22, 39]

/-- The positions of the host's fields of `vsstatus` (R34). -/
def hostVsstatusPositions : List Nat := [1, 5, 8]

/-- R6 and D5: positions pairwise distinct within a register and distinct from the host's fields, `SPELP` and `UFCFIE` at the
same position in `mstatus` and `vsstatus` (R32), and inside the register: below 64, and below `XLEN` for the two fields that
the `XLEN`-bit `sstatus` and `vsstatus` show (DEDUCED, notes/assumptions/3.md). -/
def FieldPositions.wf (x : Xlen) (p : FieldPositions) : Bool :=
  decide (p.mseccfgMfcfie < 64) &&
  decide (p.menvcfgCfie < 64) && decide (p.menvcfgSfcfie < 64) && p.menvcfgCfie != p.menvcfgSfcfie &&
  decide (p.henvcfgCfie < 64) && decide (p.henvcfgSfcfie < 64) && p.henvcfgCfie != p.henvcfgSfcfie &&
  decide (p.mstatusMpelp < 64) && decide (p.mstatusSpelp < x.bits) && decide (p.mstatusUfcfie < x.bits) &&
  p.mstatusMpelp != p.mstatusSpelp && p.mstatusMpelp != p.mstatusUfcfie && p.mstatusSpelp != p.mstatusUfcfie &&
  !hostMstatusPositions.contains p.mstatusMpelp && !hostMstatusPositions.contains p.mstatusSpelp &&
  !hostMstatusPositions.contains p.mstatusUfcfie &&
  p.vsstatusSpelp == p.mstatusSpelp && p.vsstatusUfcfie == p.mstatusUfcfie

/-- The parameter values the spec admits: `HAS_H` requires `HAS_S`, the positions are well formed (R6), and `RESET_PC` is an
`XLEN`-bit instruction address (R15). -/
def Config.wf (c : Config) : Bool :=
  (!c.hasH || c.hasS) && c.pos.wf c.xlen &&
  c.xlen.wrap c.resetPc == c.resetPc && !c.resetPc.getLsbD 0 && (c.hasC || !c.resetPc.getLsbD 1)

/-! ### Which fields of the extension exist (R33, D7) -/

/-- `mseccfg.MFCFIE` exists. -/
def Config.hasMfcfie (c : Config) : Bool := c.hasZicfisslp
/-- `menvcfg.CFIE` exists: its register does. -/
def Config.hasMenvCfie (c : Config) : Bool := c.hasZicfisslp && (c.hasS || c.hasU)
/-- `menvcfg.SFCFIE` and `mstatus.SPELP` exist. -/
def Config.hasSField (c : Config) : Bool := c.hasZicfisslp && c.hasS
/-- `mstatus.UFCFIE` exists. -/
def Config.hasUField (c : Config) : Bool := c.hasZicfisslp && c.hasU
/-- The fields of `henvcfg`, and `vsstatus.SPELP`, exist. -/
def Config.hasHField (c : Config) : Bool := c.hasZicfisslp && c.hasH
/-- `vsstatus.UFCFIE` exists: its register and the mode VU do. -/
def Config.hasVuField (c : Config) : Bool := c.hasZicfisslp && c.hasH && c.hasU

/-- The parameters of `State.reset` (DESIGN CHOICE, notes/assumptions/1.md, 2.md and 7.md): everything implemented, `XLEN` = 32
as in spec/95_test_vectors.md, the recommended defaults of R6 where it gives one. The positions are not in the spec and are
no edition's. -/
def Config.reference : Config where
  hasZicfisslp := true
  xlen := .x32
  hasC := true
  hasS := true
  hasU := true
  hasH := true
  pos :=
    { mseccfgMfcfie := 16, menvcfgCfie := 16, menvcfgSfcfie := 17,
      mstatusUfcfie := 24, mstatusSpelp := 25, mstatusMpelp := 26,
      henvcfgCfie := 16, henvcfgSfcfie := 17, vsstatusUfcfie := 24, vsstatusSpelp := 25 }
  sstatusHasUfcfie := true
  reset :=
    { mfcfie := false, menvCfie := false, menvSfcfie := false, ufcfie := false, henvCfie := false,
      henvSfcfie := false, vsUfcfie := false, mpelp := false, spelp := false, vsSpelp := false }
  resetPc := 0x1000#64
  xtvalIllegal := .instructionBits
  misalignedData := .trap
  wfiBound := .completes
  trapTarget := .delegation

/-- The free values: the `n`-th value the spec leaves open in a run. It has no body, so nothing can be proved of its values
(notes/assumptions/22.md). `State.draws` counts the draws. -/
opaque Config.freeWord : Nat → Word

end Sys2Proof
end

