-- ==== Sys2Proof/Machine/Memory.lean ====
section
/-! DEFINITION. Byte-addressed memory as a list of (address, byte) pairs in one canonical form: addresses strictly rising, and
no entry equal to what an unlisted address reads as (spec/20_memory.md R40). -/

namespace Sys2Proof.Machine

/-- Memory: the listed bytes (R40). -/
abbrev Memory := List Host.Cell

/-- What an unlisted address reads as: 0 (DESIGN CHOICE, unsafe, notes/assumptions/8.md; spec/10_state.md R38 leaves memory
unspecified). -/
def Memory.unlisted : Byte := 0#8

/-- Read one byte. -/
def Memory.read : Memory → Nat → Byte
  | [], _ => Memory.unlisted
  | (k, b) :: m, a => if a = k then b else Memory.read m a

/-- Put a listed byte in front, unless it is what an unlisted address reads as. -/
def Memory.cons (a : Nat) (b : Byte) (m : Memory) : Memory :=
  if b = Memory.unlisted then m else (a, b) :: m

/-- Write one byte; the canonical form is kept (Memory.write_wf, Sys2Proof/Laws/Memory.lean). -/
def Memory.write : Memory → Nat → Byte → Memory
  | [], a, b => Memory.cons a b []
  | (k, c) :: m, a, b =>
    if a < k then Memory.cons a b ((k, c) :: m)
    else if a = k then Memory.cons a b m
    else (k, c) :: Memory.write m a b

/-- Every address is at least `lo`, addresses rise strictly, and no byte is the unlisted one. -/
def Memory.wfFrom : Memory → Nat → Bool
  | [], _ => true
  | (k, b) :: m, lo => decide (lo ≤ k) && (b != Memory.unlisted) && Memory.wfFrom m (k + 1)

/-- The canonical form. -/
def Memory.wf (m : Memory) : Bool := m.wfFrom 0

/-- Write a list of bytes, in order. -/
def Memory.writeAll (m : Memory) : List Host.Cell → Memory
  | [] => m
  | c :: cs => Memory.writeAll (m.write c.1 c.2) cs

/-- The byte a list of cells holds for an address, if it has one. -/
def cellAt : List Host.Cell → Nat → Option Byte
  | [], _ => none
  | (k, b) :: cs, a => if a = k then some b else cellAt cs a

/-- The byte a fetch brings from address `a`, where `b` is the newest byte there, the list holds what each store access has
overwritten, newest first, and the Booleans say which of those accesses the fetch does not see (R50): what the newest access it
sees has left there. -/
def fetchedByte (a : Nat) (b : Byte) : List (List Host.Cell) → List Bool → Byte
  | [], _ => b
  | u :: us, hidden =>
    match cellAt u a with
    | none => fetchedByte a b us hidden.tail
    | some old => if hidden.headD false then fetchedByte a old us hidden.tail else b

/-- The address of byte `i` of an access at `a`, modulo `2^XLEN` (R7). -/
def byteAddress (x : Xlen) (a : Word) (i : Nat) : Nat := (x.wrap (a + BitVec.ofNat 64 i)).toNat

/-- `MemRead(a, 2)`: little-endian (R8, R41). -/
def Memory.read16 (m : Memory) (x : Xlen) (a : Word) : BitVec 16 :=
  m.read (byteAddress x a 1) ++ m.read (byteAddress x a 0)

/-- `MemRead(a, 4)`: little-endian (R8, R41). -/
def Memory.read32 (m : Memory) (x : Xlen) (a : Word) : BitVec 32 :=
  m.read (byteAddress x a 3) ++ m.read (byteAddress x a 2) ++ m.read (byteAddress x a 1) ++ m.read (byteAddress x a 0)

/-- The addressed bytes of a 4-byte access, as they are now. -/
def Memory.cells4 (m : Memory) (x : Xlen) (a : Word) : List Host.Cell :=
  [(byteAddress x a 0, m.read (byteAddress x a 0)), (byteAddress x a 1, m.read (byteAddress x a 1)),
   (byteAddress x a 2, m.read (byteAddress x a 2)), (byteAddress x a 3, m.read (byteAddress x a 3))]

/-- The bytes that `MemWrite(a, 4, v)` stores, little-endian (R8, R41). -/
def storedCells (x : Xlen) (a : Word) (v : BitVec 32) : List Host.Cell :=
  [(byteAddress x a 0, v.extractLsb' 0 8), (byteAddress x a 1, v.extractLsb' 8 8),
   (byteAddress x a 2, v.extractLsb' 16 8), (byteAddress x a 3, v.extractLsb' 24 8)]

end Sys2Proof.Machine
end

