-- ==== Sys2Proof/Machine/ResetValues.lean ====
section
/-! DEFINITION. The reset values that the model names where the spec gives none (notes/assumptions/5.md, 6.md). -/

namespace Sys2Proof.Machine

/-- What `x1` to `x31` hold in `State.reset`. R37 of spec/10_state.md gives them no value and says "never as zero"
(DESIGN CHOICE, unsafe, notes/assumptions/5.md). -/
def resetRegister : Word := 0x5A5A5A5C#64

/-- What the host's word-wide control registers hold at reset (notes/assumptions/6.md; `mcause` is PRESUMED the family's 0,
the others DESIGN CHOICE). -/
def resetControl : Word := 0#64

end Sys2Proof.Machine
end

