-- ==== Sys2Proof/Machine/State.lean ====
section
/-! DEFINITION. The state of the hart as plain data, why a step can stop, and the state after reset.

spec/10_state.md and spec/60_exceptions.md; INVENTORY.md lists each field with its rule and its reset value. -/

namespace Sys2Proof.Machine

/-- The two values of `ELP` and of the `xPELP` bits (R16, R27). -/
inductive Elp where
  /-- 0 `NO_LP_EXPECTED`. -/
  | noLpExpected
  /-- 1 `LP_EXPECTED`. -/
  | lpExpected
deriving DecidableEq, Repr

/-- An `ELP` value as the bit software sees (R16). -/
def Elp.toBool : Elp → Bool
  | .noLpExpected => false
  | .lpExpected => true

/-- The `ELP` value a written bit stands for (R16). -/
def Elp.ofBool : Bool → Elp
  | false => .noLpExpected
  | true => .lpExpected

/-- The fields of `mstatus` (R23, R27, R34, R111, R137). `MPP` is held as the mode it names. -/
structure Mstatus where
  sie : Bool
  mie : Bool
  spie : Bool
  mpie : Bool
  spp : Bool
  mpp : Priv
  tw : Bool
  tsr : Bool
  mpv : Bool
  ufcfie : Bool
  spelp : Elp
  mpelp : Elp
deriving DecidableEq, Repr

/-- The fields of `vsstatus` (R26, R27, R34). -/
structure Vsstatus where
  sie : Bool
  spie : Bool
  spp : Bool
  ufcfie : Bool
  spelp : Elp
deriving DecidableEq, Repr

/-- The fields of `hstatus` (R34, R112). -/
structure Hstatus where
  spv : Bool
  vtsr : Bool
deriving DecidableEq, Repr

/-- The fields of `menvcfg` (R21, R22) and of `henvcfg` (R24, R25). -/
structure Envcfg where
  cfie : Bool
  sfcfie : Bool
deriving DecidableEq, Repr

/-- The trap registers of one mode: `xtvec`, `xepc`, `xcause`, `xtval` (R154). -/
structure TrapCsrs where
  tvec : Word
  epc : Word
  cause : Word
  tval : Word
deriving DecidableEq, Repr

/-- An interrupt the oracle `HostInterruptPending` announces: its cause and its destination mode (R157). -/
structure Announcement where
  cause : BitVec 6
  target : TrapTarget
deriving DecidableEq, Repr

/-- The fetch exceptions `HostFetch` may answer with (R47, R155). -/
inductive FetchException where
  | addressBreakpoint
  | pageFault
  | guestPageFault
  | accessFault
deriving DecidableEq, Repr

/-- The access exceptions the host's memory system may answer a load or store with (R8, R126, R127). -/
inductive DataException where
  | pageFault
  | accessFault
deriving DecidableEq, Repr

/-- What the host answers in one step: R6's oracles, as data (notes/assumptions/17.md). -/
structure HostAnswer where
  /-- An interrupt announced before the step (R157). -/
  interrupt : Option Announcement
  /-- An exception of the fetch (R47). -/
  fetch : Option FetchException
  /-- Which of the store accesses that no `FENCE.I` has followed the fetch of the first parcel does not see yet, newest first
  (R50); it sees those the list does not reach. -/
  staleLow : List Bool
  /-- The same for the second parcel. -/
  staleHigh : List Bool
  /-- An exception of the data access, if the step makes one (R126, R127). -/
  data : Option DataException
  /-- The bits of `mip` that become pending during the step (R157). -/
  mipSet : Word
  /-- The bits of `mip` that cease to be pending during the step (R157). -/
  mipClear : Word
deriving DecidableEq, Repr

/-- The silent host: no interrupt, no access exception, every fetch sees every store, no pending bit changes. -/
def HostAnswer.quiet : HostAnswer :=
  { interrupt := none, fetch := none, staleLow := [], staleHigh := [], data := none, mipSet := 0#64, mipClear := 0#64 }

/-- The state of the machine. -/
structure State where
  /-- The implementation parameters (R6); no step changes them. -/
  cfg : Config
  /-- `x0` to `x31` (R10); `x0` is read through `State.readReg` (R11). -/
  regs : Vector Word 32
  /-- The address of the instruction to execute (R15). -/
  pc : Word
  /-- The expected landing pad state (R16). -/
  elp : Elp
  /-- The current privilege (R19). -/
  priv : Priv
  /-- The virtualisation mode `V` (R19). -/
  virt : Bool
  /-- `mseccfg.MFCFIE` (R20). -/
  mfcfie : Bool
  /-- `menvcfg` (R21, R22). -/
  menvcfg : Envcfg
  /-- `mstatus` (R23, R27, R34). -/
  mstatus : Mstatus
  /-- `henvcfg` (R24, R25). -/
  henvcfg : Envcfg
  /-- `hstatus` (R34, R112). -/
  hstatus : Hstatus
  /-- `vsstatus` (R26, R27, R34). -/
  vsstatus : Vsstatus
  /-- `mtvec`, `mepc`, `mcause`, `mtval` (R154). -/
  mtrap : TrapCsrs
  /-- `stvec`, `sepc`, `scause`, `stval` (R154). -/
  strap : TrapCsrs
  /-- `vstvec`, `vsepc`, `vscause`, `vstval` (R154). -/
  vstrap : TrapCsrs
  /-- `medeleg` (R159). -/
  medeleg : Word
  /-- `mideleg` (R159). -/
  mideleg : Word
  /-- `hedeleg` (R159). -/
  hedeleg : Word
  /-- `hideleg` (R159). -/
  hideleg : Word
  /-- `mie` (R157). -/
  mie : Word
  /-- `mip` (R157). -/
  mip : Word
  /-- Memory (R40). -/
  mem : Memory
  /-- The bytes that each store access since the last `FENCE.I` has overwritten, newest first (R45, R50). -/
  staleStores : List (List Host.Cell)
  /-- The MODEL's own: the host's answers for the steps to come; an empty list is the silent host. -/
  answers : List HostAnswer
  /-- The MODEL's own: how many free values have been drawn (Config.freeWord). -/
  draws : Nat
deriving DecidableEq, Repr

/-- Why a step can stop with a fault. There is no constructor: every exceptional condition the spec describes is a trap, and
taking a trap is a next state (R153, R154), so no step of this machine faults. Nobody raises one (safe). -/
inductive Fault where
deriving DecidableEq, Repr

/-- Why a step can be refused. -/
inductive Refusal where
  /-- Raised by `exec` for an instruction that has no meaning yet; no arm does so in this model (safe). -/
  | notModelled (mnemonic : String)
deriving DecidableEq, Repr

/-- The answer of one step. -/
abbrev Result := Host.Outcome State Fault Refusal

/-- The trap registers of one mode at reset. -/
def TrapCsrs.reset : TrapCsrs :=
  { tvec := resetControl, epc := resetControl, cause := resetControl, tval := resetControl }

/-- The state after reset of a hart with the parameters `c`, whose `x1` to `x31` happen to hold what `x` lists (R35 to R38).
A field of the extension that does not exist is 0 (R33). -/
def State.resetOf (c : Config) (x : Vector Word 32) : State :=
  { cfg := c
    regs := x.set 0 0#64
    pc := c.resetPc
    elp := .noLpExpected
    priv := .m
    virt := false
    mfcfie := c.hasMfcfie && c.reset.mfcfie
    menvcfg := { cfie := c.hasMenvCfie && c.reset.menvCfie, sfcfie := c.hasSField && c.reset.menvSfcfie }
    mstatus :=
      { sie := false, mie := false, spie := false, mpie := false, spp := false, mpp := .m, tw := false, tsr := false,
        mpv := false, ufcfie := c.hasUField && c.reset.ufcfie, spelp := .ofBool (c.hasSField && c.reset.spelp),
        mpelp := .ofBool (c.hasMfcfie && c.reset.mpelp) }
    henvcfg := { cfie := c.hasHField && c.reset.henvCfie, sfcfie := c.hasHField && c.reset.henvSfcfie }
    hstatus := { spv := false, vtsr := false }
    vsstatus :=
      { sie := false, spie := false, spp := false, ufcfie := c.hasVuField && c.reset.vsUfcfie,
        spelp := .ofBool (c.hasHField && c.reset.vsSpelp) }
    mtrap := .reset
    strap := .reset
    vstrap := .reset
    medeleg := resetControl
    mideleg := resetControl
    hedeleg := resetControl
    hideleg := resetControl
    mie := resetControl
    mip := resetControl
    mem := []
    staleStores := []
    answers := []
    draws := 0 }

/-- The machine right after reset, with the reference parameters and the named register contents (notes/assumptions/1.md,
5.md, 6.md). -/
def State.reset : State := .resetOf .reference (.replicate 32 resetRegister)

end Sys2Proof.Machine
end

