-- ==== Sys2Proof/Machine/Flags.lean ====
section
/-! DEFINITION. The one flag of the extension, `ELP`: when forward-edge CFI is active (spec/10_state.md R28) and which jumps set
`ELP` (spec/40_indirect_jumps.md R80 to R83). RISC-V has no condition codes (R16). -/

namespace Sys2Proof.Machine

/-- `xFCFIE()`: is forward-edge CFI active at the current privilege (R28). On a hart without the extension it never is (R64). -/
def State.xfcfie (s : State) : Bool :=
  s.cfg.hasZicfisslp &&
  match s.priv, s.virt with
  | .m, _ => s.mfcfie
  | .s, false => s.menvcfg.cfie && s.menvcfg.sfcfie
  | .u, false => s.menvcfg.cfie && s.mstatus.ufcfie
  | .s, true => s.menvcfg.cfie && s.henvcfg.cfie && s.henvcfg.sfcfie
  | .u, true => s.menvcfg.cfie && s.henvcfg.cfie && s.vsstatus.ufcfie

/-- The three register-indirect jumps, as the listings of R80 and R81 test for them. -/
inductive JumpKind where
  | jalr
  | cJr
  | cJalr
deriving DecidableEq, Repr

/-- `is_indirect_call_jump` of a register-indirect jump with these register numbers (R80). -/
def isIndirectCallJump (rd rs1 : RegIdx) : Bool := (rs1 != 1 && rs1 != 5) || rd != 0

/-- `is_sw_guarded_jump` (R81). -/
def isSwGuardedJump (k : JumpKind) (rd rs1 : RegIdx) : Bool := k == .jalr && rd == 7 && rs1 == 7

/-- `is_lp_expected` (R82). -/
def isLpExpected (k : JumpKind) (rd rs1 : RegIdx) : Bool := isIndirectCallJump rd rs1 && !isSwGuardedJump k rd rs1

/-- `ELP` after a completed register-indirect jump that starts in `s` (R83). -/
def elpAfterJump (s : State) (k : JumpKind) (rd rs1 : RegIdx) : Elp :=
  if s.xfcfie && isLpExpected k rd rs1 then .lpExpected else s.elp

/-- The label test of `lpad`: `LPL` is 0 or equals `x7[31:12]` (R101, R104, R105). -/
def labelMatches (lpl : BitVec 20) (x7 : Word) : Bool := lpl == 0#20 || lpl == x7.extractLsb' 12 20

/-- Is `pc` a multiple of 4 (R43, R101). -/
def isFourAligned (pc : Word) : Bool := pc.extractLsb' 0 2 == 0#2

end Sys2Proof.Machine
end

