-- ==== Sys2Proof/Machine/Operands.lean ====
section
/-! DEFINITION. The operand forms: registers, sign-extended immediates, effective addresses and jump targets
(spec/10_state.md R10, R11; spec/30_encoding.md R65; spec/43_host_subset.md). -/

namespace Sys2Proof.Machine

/-- `x[i]`: `x0` reads 0 (R8, R11). -/
def State.readReg (s : State) (i : RegIdx) : Word := if i = 0 then 0#64 else s.regs[i]

/-- `x[i] <- v`, modulo `2^XLEN`; a write to `x0` is discarded (R8, R11). -/
def State.writeReg (s : State) (i : RegIdx) (v : Word) : State :=
  { s with regs := if i = 0 then s.regs else s.regs.set i (s.cfg.xlen.wrap v) }

/-- `pc <- t`, modulo `2^XLEN` (R8). -/
def State.goto (s : State) (t : Word) : State := { s with pc := s.cfg.xlen.wrap t }

/-- The default next pc: `pc + len` (R8, R15). -/
def State.advance (s : State) (len : Nat) : State := s.goto (s.pc + BitVec.ofNat 64 len)

/-- `ELP <- e`. -/
def State.setElp (s : State) (e : Elp) : State := { s with elp := e }

/-- `sext_XLEN` of an immediate (R65). -/
def State.sext {n : Nat} (s : State) (imm : BitVec n) : Word := s.cfg.xlen.sext imm

/-- `sext_XLEN(imm20 ++ 0x000)`: the U-type immediate (R65). -/
def State.upperImm (s : State) (imm20 : BitVec 20) : Word := s.sext (imm20 ++ 0x000#12)

/-- `x[rs1] + sext_XLEN(imm)` modulo `2^XLEN`: `addi`'s sum and the address of a load, a store or a `jalr` (R84, R123, R126). -/
def State.regPlusImm (s : State) (rs1 : RegIdx) (imm : BitVec 12) : Word :=
  s.cfg.xlen.wrap (s.readReg rs1 + s.sext imm)

/-- `pc + off` modulo `2^XLEN`: the target of a branch or of `jal` (R128, R134). -/
def State.pcPlus {n : Nat} (s : State) (off : BitVec n) : Word := s.cfg.xlen.wrap (s.pc + s.sext off)

/-- A value with bit 0 cleared (R84 to R86). -/
def clearBit0 (w : Word) : Word := w &&& ~~~(1#64)

/-- Does a jump to `t` violate the instruction alignment: bit 1 set when `HAS_C` is false (R42, R84, R128). -/
def State.targetMisaligned (s : State) (t : Word) : Bool := !s.cfg.hasC && t.getLsbD 1

/-- `zext_XLEN(uimm)` of the CSR `I` forms (R65). -/
def zextUimm (uimm : BitVec 5) : Word := uimm.setWidth 64

/-- Is a data address a multiple of 4 (R44). -/
def isWordAligned (a : Word) : Bool := a.extractLsb' 0 2 == 0#2

end Sys2Proof.Machine
end

