-- ==== Sys2Proof/Machine/Ops.lean ====
section
/-! DEFINITION. The named operations: taking a trap and returning from one, free values, memory accesses. -/

namespace Sys2Proof.Machine

/-! ### Free values (notes/assumptions/22.md) -/

/-- The next free value, `XLEN` bits of it. -/
def State.freeValue (s : State) : Word := s.cfg.xlen.wrap (Config.freeWord s.draws)

/-- The same state with one more free value drawn. -/
def State.drawn (s : State) : State := { s with draws := s.draws + 1 }

/-! ### The host's answer for this step (notes/assumptions/17.md) -/

/-- What the host answers in this step. -/
def State.answer (s : State) : HostAnswer := s.answers.headD HostAnswer.quiet

/-- The answer is used up, and the pending bits change as it says (R157). -/
def State.nextAnswer (s : State) : State :=
  { s with
    answers := s.answers.tail
    mip := s.cfg.xlen.wrap ((s.mip ||| s.answer.mipSet) &&& ~~~s.answer.mipClear) }

/-! ### Exceptions and their causes (R126 to R137, R144, R151, R152) -/

/-- The exceptions of this machine. -/
inductive Exception where
  | instructionAddressMisaligned
  | instructionAccessFault
  | illegalInstruction
  | breakpoint
  | loadAddressMisaligned
  | loadAccessFault
  | storeAddressMisaligned
  | storeAccessFault
  | ecallFromU
  | ecallFromS
  | ecallFromVS
  | ecallFromM
  | instructionPageFault
  | loadPageFault
  | storePageFault
  | instructionGuestPageFault
  | virtualInstruction
deriving DecidableEq, Repr

/-- Exception codes; 12 and 20 are PRESUMED (notes/assumptions/20.md). -/
def exceptionCode : Exception → BitVec 6
  | .instructionAddressMisaligned => 0
  | .instructionAccessFault => 1
  | .illegalInstruction => 2
  | .breakpoint => 3
  | .loadAddressMisaligned => 4
  | .loadAccessFault => 5
  | .storeAddressMisaligned => 6
  | .storeAccessFault => 7
  | .ecallFromU => 8
  | .ecallFromS => 9
  | .ecallFromVS => 10
  | .ecallFromM => 11
  | .instructionPageFault => 12
  | .loadPageFault => 13
  | .storePageFault => 15
  | .instructionGuestPageFault => 20
  | .virtualInstruction => 22

/-! ### Taking a trap (R153, R154, R159) -/

/-- Can a trap from the present mode be taken into that mode: it exists and is not less privileged (R159). -/
def State.admitsTarget (s : State) : TrapTarget → Bool
  | .m => true
  | .hs => s.cfg.hasS && decide (s.priv ≠ .m)
  | .vs => s.cfg.hasH && s.virt && decide (s.priv ≠ .m)

/-- The mode that the first row for a cause, `priv` and `V` names; M where there is none (notes/assumptions/16.md). -/
def routeTarget (c : BitVec 6) (p : Priv) (v : Bool) : List TrapRoute → TrapTarget
  | [] => .m
  | r :: rs => if r.cause = c ∧ r.priv = p ∧ r.virt = v then r.target else routeTarget c p v rs

/-- The mode the delegation registers name: M, unless the first one delegates the cause, and then HS, or VS when the second one
delegates it too and `vs` allows it (R159, notes/assumptions/16.md). -/
def delegatedTarget (c : BitVec 6) (deleg hdeleg : Word) (s vs : Bool) : TrapTarget :=
  if s && deleg.getLsbD c.toNat then if vs && hdeleg.getLsbD c.toNat then .vs else .hs else .m

/-- The mode the host decides on for an exception (R159). -/
def State.hostTarget (s : State) (c : BitVec 6) : TrapTarget :=
  match s.cfg.trapTarget with
  | .delegation => delegatedTarget c s.medeleg s.hedeleg s.cfg.hasS (s.cfg.hasH && s.virt)
  | .table l => routeTarget c s.priv s.virt l

/-- `HostTrapTarget` for an exception (R159): the mode the host decides on, if the trap can be taken there, and M if not. -/
def State.exceptionTarget (s : State) (c : BitVec 6) : TrapTarget :=
  if s.admitsTarget (s.hostTarget c) then s.hostTarget c else .m

/-- `(i << (XLEN-1)) | c` (R154). -/
def causeWord (x : Xlen) (interrupt : Bool) (c : BitVec 6) : Word :=
  (if interrupt then 1#64 <<< (x.bits - 1) else 0#64) ||| c.setWidth 64

/-- `xtvec.BASE`: the register with its two mode bits cleared (PRESUMED layout, notes/assumptions/11.md). -/
def tvecBase (tvec : Word) : Word := tvec &&& ~~~(3#64)

/-- `xtvec.MODE == vectored` (PRESUMED layout, notes/assumptions/11.md). -/
def tvecVectored (tvec : Word) : Bool := tvec.extractLsb' 0 2 == 1#2

/-- `xtvec.BASE`, and `+ 4*c` for an interrupt in vectored mode (R154). -/
def trapVector (x : Xlen) (tvec : Word) (interrupt : Bool) (c : BitVec 6) : Word :=
  x.wrap (tvecBase tvec + (if interrupt && tvecVectored tvec then 4#64 * c.setWidth 64 else 0#64))

/-- `xepc`, `xcause` and `xtval` written, `xtvec` kept (R154). -/
def recordTrap (s : State) (r : TrapCsrs) (interrupt : Bool) (c : BitVec 6) (tval : Word) : TrapCsrs :=
  { r with epc := s.pc, cause := causeWord s.cfg.xlen interrupt c, tval := s.cfg.xlen.wrap tval }

/-- A trap into M (R153, R154); the faulting or interrupted `pc` is the present one. -/
def State.trapIntoM (s : State) (interrupt : Bool) (c : BitVec 6) (tval : Word) : State :=
  { s with
    mtrap := recordTrap s s.mtrap interrupt c tval
    mstatus := { s.mstatus with mpp := s.priv, mpv := s.virt, mpie := s.mstatus.mie, mie := false, mpelp := s.elp }
    elp := .noLpExpected
    priv := .m
    virt := false
    pc := trapVector s.cfg.xlen s.mtrap.tvec interrupt c }

/-- A trap into S/HS (R153, R154). -/
def State.trapIntoHS (s : State) (interrupt : Bool) (c : BitVec 6) (tval : Word) : State :=
  { s with
    strap := recordTrap s s.strap interrupt c tval
    mstatus :=
      { s.mstatus with spp := decide (s.priv = .s), spie := s.mstatus.sie, sie := false, spelp := s.elp }
    hstatus := { s.hstatus with spv := s.virt }
    elp := .noLpExpected
    priv := .s
    virt := false
    pc := trapVector s.cfg.xlen s.strap.tvec interrupt c }

/-- A trap into VS (R153, R154); `V` stays 1. -/
def State.trapIntoVS (s : State) (interrupt : Bool) (c : BitVec 6) (tval : Word) : State :=
  { s with
    vstrap := recordTrap s s.vstrap interrupt c tval
    vsstatus :=
      { s.vsstatus with spp := decide (s.priv = .s), spie := s.vsstatus.sie, sie := false, spelp := s.elp }
    elp := .noLpExpected
    priv := .s
    pc := trapVector s.cfg.xlen s.vstrap.tvec interrupt c }

/-- Trap delivery (R153, R154). -/
def State.takeTrap (s : State) (target : TrapTarget) (interrupt : Bool) (c : BitVec 6) (tval : Word) : State :=
  match target with
  | .m => s.trapIntoM interrupt c tval
  | .hs => s.trapIntoHS interrupt c tval
  | .vs => s.trapIntoVS interrupt c tval

/-- The state after exception `e` with trap value `tval` on the instruction at `pc` (R154, R159). -/
def State.except (s : State) (e : Exception) (tval : Word) : State :=
  s.takeTrap (s.exceptionTarget (exceptionCode e)) false (exceptionCode e) tval

/-- The same where the spec states no trap value: it is a free value (notes/assumptions/22.md). -/
def State.exceptFree (s : State) (e : Exception) : State := s.drawn.except e s.freeValue

/-- `raise <e>(tval)` (R8). -/
def raise (e : Exception) (tval : Word) (s : State) : Result := .next (s.except e tval)

/-- `raise <e>` with an unstated trap value. -/
def raiseFree (e : Exception) (s : State) : Result := .next (s.exceptFree e)

/-- The trap value of an illegal-instruction exception on the encoding `c`: `XTVAL_ILLEGAL` (R151). -/
def State.illegalTval (s : State) (c : Code) : Word :=
  match s.cfg.xtvalIllegal with
  | .zero => 0#64
  | .instructionBits => c.bits.setWidth 64

/-- `raise IllegalInstruction(inst)` by the instruction `i` itself (R8, R151). -/
def raiseIllegal (i : Instr) (s : State) : Result := raise .illegalInstruction (s.illegalTval (encode i)) s

/-- `raise VirtualInstruction(inst)` (R112, R144); the spec states no trap value. -/
def raiseVirtual (s : State) : Result := raiseFree .virtualInstruction s

/-- An encoding whose "instruction bits" the spec does not settle raises illegal-instruction: 0 with `XTVAL_ILLEGAL` = `zero`,
else a free value (notes/assumptions/22.md). -/
def raiseIllegalUnsettled (s : State) : Result :=
  match s.cfg.xtvalIllegal with
  | .zero => raise .illegalInstruction 0#64 s
  | .instructionBits => raiseFree .illegalInstruction s

/-! ### Returning from a trap (R110 to R113) -/

/-- The value of an `xepc` as read: bit 0 as 0, bit 1 as 0 when not `HAS_C` (R110, notes/assumptions/15.md). -/
def epcView (c : Config) (epc : Word) : Word :=
  if c.hasC then epc &&& ~~~(1#64) else epc &&& ~~~(3#64)

/-- The lowest implemented privilege, "U if HAS_U else M" (R110). -/
def lowestPriv (c : Config) : Priv := if c.hasU then .u else .m

/-- The return of `MRET` (R110). -/
def State.returnFromM (s : State) : State :=
  { s with
    elp := s.mstatus.mpelp
    mstatus :=
      { s.mstatus with
        mpelp := .noLpExpected, mie := s.mstatus.mpie, mpie := true, mpp := lowestPriv s.cfg, mpv := false }
    priv := s.mstatus.mpp
    virt := s.cfg.hasH && decide (s.mstatus.mpp ≠ .m) && s.mstatus.mpv
    pc := epcView s.cfg s.mtrap.epc }

/-- The mode an `xPP` bit of S or VS names: 1 is S, 0 is U (R111, R112); on a hart without U-mode, a mode that never occurs
(R19, D3), it is S (notes/assumptions/35.md). -/
def privOfSpp (c : Config) (b : Bool) : Priv := if b || !c.hasU then .s else .u

/-- The return of `SRET` with `V` = 0 (R111). -/
def State.returnFromS (s : State) : State :=
  { s with
    elp := s.mstatus.spelp
    mstatus := { s.mstatus with spelp := .noLpExpected, sie := s.mstatus.spie, spie := true, spp := false }
    hstatus := { s.hstatus with spv := false }
    priv := privOfSpp s.cfg s.mstatus.spp
    virt := s.cfg.hasH && s.hstatus.spv
    pc := epcView s.cfg s.strap.epc }

/-- The return of `SRET` with `V` = 1 (R112). -/
def State.returnFromVS (s : State) : State :=
  { s with
    elp := s.vsstatus.spelp
    vsstatus := { s.vsstatus with spelp := .noLpExpected, sie := s.vsstatus.spie, spie := true, spp := false }
    priv := privOfSpp s.cfg s.vsstatus.spp
    pc := epcView s.cfg s.vstrap.epc }

/-! ### Data memory (R8, R41, R44, R50) -/

/-- `MemRead(a, 4)` (R8). -/
def State.load32 (s : State) (a : Word) : BitVec 32 := s.mem.read32 s.cfg.xlen a

/-- The single-copy atomic accesses of a 4-byte store, by the bytes they reach: one when it is 4-byte aligned, else one for each
byte (R44, R45, notes/assumptions/24.md). -/
def storeAccesses (a : Word) (cells : List Host.Cell) : List (List Host.Cell) :=
  if isWordAligned a then [cells] else cells.map (fun c => [c])

/-- `MemWrite(a, 4, v)` (R8); the overwritten bytes are kept for the fetches that may still see them (R50). -/
def State.store32 (s : State) (a : Word) (v : BitVec 32) : State :=
  { s with
    mem := s.mem.writeAll (storedCells s.cfg.xlen a v)
    staleStores := storeAccesses a (s.mem.cells4 s.cfg.xlen a) ++ s.staleStores }

/-- Does a data access at `a` trap for its alignment (R44). -/
def State.dataMisaligned (s : State) (a : Word) : Bool :=
  decide (s.cfg.misalignedData = .trap) && !isWordAligned a

/-- The exception of a load that the memory system refuses (R126). -/
def loadException : DataException → Exception
  | .pageFault => .loadPageFault
  | .accessFault => .loadAccessFault

/-- The exception of a store that the memory system refuses (R127). -/
def storeException : DataException → Exception
  | .pageFault => .storePageFault
  | .accessFault => .storeAccessFault

/-! ### Jumps -/

/-- The end of a taken branch or of a jump: `pc <- t`, or instruction-address-misaligned on the jump with the target as trap
value and no other change (R42, R84, R128, D20); `t'` is the state with the instruction's other effects. -/
def jumpTo (s t' : State) (t : Word) : Result :=
  if s.targetMisaligned t then raise .instructionAddressMisaligned t s else .next (t'.goto t)

end Sys2Proof.Machine
end

