-- ==== Sys2Proof/Machine/Arith.lean ====
section
/-! DEFINITION. Integer computation, wrapping modulo `2^XLEN`, without flags (spec/43_host_subset.md R120 to R125). -/

namespace Sys2Proof.Machine

/-- Write a result to `rd` and go on to the next instruction. -/
def writeResult (rd : RegIdx) (v : Word) (s : State) : Result := .next ((s.writeReg rd v).advance 4)

/-- `lui rd, imm20` (R121). -/
def execLui (rd : RegIdx) (imm20 : BitVec 20) (s : State) : Result := writeResult rd (s.upperImm imm20) s

/-- `auipc rd, imm20` (R122). -/
def execAuipc (rd : RegIdx) (imm20 : BitVec 20) (s : State) : Result := writeResult rd (s.pc + s.upperImm imm20) s

/-- `addi rd, rs1, imm` (R123). -/
def execAddi (rd rs1 : RegIdx) (imm : BitVec 12) (s : State) : Result := writeResult rd (s.regPlusImm rs1 imm) s

/-- `add rd, rs1, rs2` (R124). -/
def execAdd (rd rs1 rs2 : RegIdx) (s : State) : Result := writeResult rd (s.readReg rs1 + s.readReg rs2) s

/-- `slli rd, rs1, shamt` (R125): bit 5 of the shift amount is illegal when `XLEN` = 32. -/
def execSlli (rd rs1 : RegIdx) (shamt : BitVec 6) (s : State) : Result :=
  if s.cfg.xlen = .x32 ∧ shamt.getLsbD 5 = true then raiseIllegal (.slli rd rs1 shamt) s
  else writeResult rd (s.readReg rs1 <<< shamt.toNat) s

end Sys2Proof.Machine
end

