-- ==== Sys2Proof/Machine/Branches.lean ====
section
/-! DEFINITION. Conditional branches (spec/43_host_subset.md R128 to R131). -/

namespace Sys2Proof.Machine

/-- A conditional branch: taken to `pc + off`, else on to `pc + 4` (R128). -/
def branchIf (taken : Bool) (off : BitVec 13) (s : State) : Result :=
  if taken then jumpTo s s (s.pcPlus off) else .next (s.advance 4)

/-- `beq rs1, rs2, off` (R128). -/
def execBeq (rs1 rs2 : RegIdx) (off : BitVec 13) (s : State) : Result :=
  branchIf (s.readReg rs1 == s.readReg rs2) off s

/-- `bne rs1, rs2, off` (R129). -/
def execBne (rs1 rs2 : RegIdx) (off : BitVec 13) (s : State) : Result :=
  branchIf (s.readReg rs1 != s.readReg rs2) off s

/-- `bltu rs1, rs2, off` (R130). -/
def execBltu (rs1 rs2 : RegIdx) (off : BitVec 13) (s : State) : Result :=
  branchIf (decide ((s.readReg rs1).toNat < (s.readReg rs2).toNat)) off s

/-- `bgeu rs1, rs2, off` (R131). -/
def execBgeu (rs1 rs2 : RegIdx) (off : BitVec 13) (s : State) : Result :=
  branchIf (decide ((s.readReg rs2).toNat ≤ (s.readReg rs1).toNat)) off s

end Sys2Proof.Machine
end

