-- ==== Sys2Proof/Machine/Csr.lean ====
section
/-! DEFINITION. The control registers as CSR instructions reach them: numbers, existence, access rights, the words read and
what a write changes (spec/10_state.md R31 to R34, spec/43_host_subset.md R144).

The numbers of R31 are the spec's; those of the host registers that it names without a number are PRESUMED
(notes/assumptions/10.md). -/

namespace Sys2Proof.Machine

/-- The control registers. -/
inductive Csr where
  | mstatus | mstatush | menvcfg | menvcfgh | mseccfg | mseccfgh
  | sstatus | henvcfg | henvcfgh | vsstatus
  | hstatus
  | mtvec | mepc | mcause | mtval
  | stvec | sepc | scause | stval
  | vstvec | vsepc | vscause | vstval
  | medeleg | mideleg | hedeleg | hideleg
  | mie | mip
deriving DecidableEq, Repr

/-- The register with a CSR number (R31; from `hstatus` on PRESUMED, notes/assumptions/10.md). -/
def csrOfNumber (n : BitVec 12) : Option Csr :=
  if n = 0x300#12 then some .mstatus
  else if n = 0x310#12 then some .mstatush
  else if n = 0x30A#12 then some .menvcfg
  else if n = 0x31A#12 then some .menvcfgh
  else if n = 0x747#12 then some .mseccfg
  else if n = 0x757#12 then some .mseccfgh
  else if n = 0x100#12 then some .sstatus
  else if n = 0x60A#12 then some .henvcfg
  else if n = 0x61A#12 then some .henvcfgh
  else if n = 0x200#12 then some .vsstatus
  else if n = 0x600#12 then some .hstatus
  else if n = 0x305#12 then some .mtvec
  else if n = 0x341#12 then some .mepc
  else if n = 0x342#12 then some .mcause
  else if n = 0x343#12 then some .mtval
  else if n = 0x105#12 then some .stvec
  else if n = 0x141#12 then some .sepc
  else if n = 0x142#12 then some .scause
  else if n = 0x143#12 then some .stval
  else if n = 0x205#12 then some .vstvec
  else if n = 0x241#12 then some .vsepc
  else if n = 0x242#12 then some .vscause
  else if n = 0x243#12 then some .vstval
  else if n = 0x302#12 then some .medeleg
  else if n = 0x303#12 then some .mideleg
  else if n = 0x602#12 then some .hedeleg
  else if n = 0x603#12 then some .hideleg
  else if n = 0x304#12 then some .mie
  else if n = 0x344#12 then some .mip
  else none

/-- "exists when" of R31; for the host registers: with the mode they serve (notes/assumptions/10.md, 27.md). -/
def csrExists (c : Config) : Csr → Bool
  | .mstatus => true
  | .mstatush => c.xlen == .x32
  | .menvcfg => c.hasS || c.hasU
  | .menvcfgh => c.xlen == .x32
  | .mseccfg => c.hasZicfisslp
  | .mseccfgh => c.hasZicfisslp && c.xlen == .x32
  | .sstatus => c.hasS
  | .henvcfg => c.hasH
  | .henvcfgh => c.hasH && c.xlen == .x32
  | .vsstatus => c.hasH
  | .hstatus => c.hasH
  | .mtvec => true
  | .mepc => true
  | .mcause => true
  | .mtval => true
  | .stvec => c.hasS
  | .sepc => c.hasS
  | .scause => c.hasS
  | .stval => c.hasS
  | .vstvec => c.hasH
  | .vsepc => c.hasH
  | .vscause => c.hasH
  | .vstval => c.hasH
  | .medeleg => c.hasS
  | .mideleg => c.hasS
  | .hedeleg => c.hasH
  | .hideleg => c.hasH
  | .mie => true
  | .mip => true

/-- With `V` = 1 an S-level number reaches the VS register: `sstatus` by R27 and R144; the others PRESUMED
(notes/assumptions/26.md). -/
def csrVirtualised : Csr → Csr
  | .sstatus => .vsstatus
  | .stvec => .vstvec
  | .sepc => .vsepc
  | .scause => .vscause
  | .stval => .vstval
  | r => r

/-- The lowest privilege that bits 9:8 of a CSR number give (R144): U, S, HS, M. -/
inductive CsrLevel where
  | u
  | s
  | hs
  | m
deriving DecidableEq, Repr

/-- Bits 9:8 of the number (R144). -/
def csrLevel (n : BitVec 12) : CsrLevel :=
  if n.extractLsb' 8 2 = 0b00#2 then .u
  else if n.extractLsb' 8 2 = 0b01#2 then .s
  else if n.extractLsb' 8 2 = 0b10#2 then .hs
  else .m

/-- Bits 11:10 = 11 mark a read-only CSR (R144). -/
def csrReadOnly (n : BitVec 12) : Bool := n.extractLsb' 10 2 == 0b11#2

/-- What becomes of an access to a CSR number. -/
inductive CsrAccess where
  | illegal
  | virtual
  | reaches (r : Csr)
deriving DecidableEq, Repr

/-- The access rule of R144 (a) and (b), with existence and the read-only mark tested first (notes/assumptions/34.md). -/
def State.csrAccess (s : State) (n : BitVec 12) (write : Bool) : CsrAccess :=
  match csrOfNumber n with
  | none => .illegal
  | some r =>
    if csrExists s.cfg r = false then .illegal
    else if write && csrReadOnly n then .illegal
    else
      match csrLevel n with
      | .u => .reaches r
      | .s => if s.priv = .u then .illegal else if s.virt then .reaches (csrVirtualised r) else .reaches r
      | .hs => if s.virt then .virtual else if s.priv = .u then .illegal else .reaches r
      | .m => if s.priv = .m then .reaches r else .illegal

/-! ### The words of the status and configuration registers -/

/-- The word with the given bits at the given positions, all others 0 (notes/assumptions/12.md). -/
def packBits : List (Nat × Bool) → Word
  | [] => 0#64
  | (p, b) :: l => (if b then 1#64 <<< p else 0#64) ||| packBits l

/-- The two bits of `MPP`: U 0, S 1, M 3 (PRESUMED, notes/assumptions/11.md). -/
def privBits : Priv → BitVec 2
  | .u => 0b00
  | .s => 0b01
  | .m => 0b11

/-- `mstatus` as a 64-bit word (R31, R34); the positions of `TW` and `TSR` in notes/assumptions/11.md. -/
def Mstatus.word (c : Config) (m : Mstatus) : Word :=
  packBits
    [(1, m.sie), (3, m.mie), (5, m.spie), (7, m.mpie), (8, m.spp),
     (11, (privBits m.mpp).getLsbD 0), (12, (privBits m.mpp).getLsbD 1), (21, m.tw), (22, m.tsr), (39, m.mpv),
     (c.pos.mstatusUfcfie, m.ufcfie), (c.pos.mstatusSpelp, m.spelp.toBool), (c.pos.mstatusMpelp, m.mpelp.toBool)]

/-- `sstatus`, the restricted view of `mstatus` (R32): `SPELP`, `UFCFIE` when `SSTATUS_HAS_UFCFIE`, never `MPELP`. R32 does not say
which of the host's fields it shows: `SIE`, `SPIE` and `SPP`, no others (PRESUMED, notes/assumptions/38.md). -/
def Mstatus.sstatusWord (c : Config) (m : Mstatus) : Word :=
  packBits
    [(1, m.sie), (5, m.spie), (8, m.spp), (c.pos.mstatusUfcfie, c.sstatusHasUfcfie && m.ufcfie),
     (c.pos.mstatusSpelp, m.spelp.toBool)]

/-- `vsstatus` (R26, R27, R34). -/
def Vsstatus.word (c : Config) (v : Vsstatus) : Word :=
  packBits
    [(1, v.sie), (5, v.spie), (8, v.spp), (c.pos.vsstatusUfcfie, v.ufcfie), (c.pos.vsstatusSpelp, v.spelp.toBool)]

/-- `hstatus` (R34); the position of `VTSR` in notes/assumptions/11.md. -/
def Hstatus.word (h : Hstatus) : Word := packBits [(7, h.spv), (22, h.vtsr)]

/-- `menvcfg` (R21, R22). -/
def State.menvcfgWord (s : State) : Word :=
  packBits [(s.cfg.pos.menvcfgCfie, s.menvcfg.cfie), (s.cfg.pos.menvcfgSfcfie, s.menvcfg.sfcfie)]

/-- `henvcfg` (R24, R25). -/
def State.henvcfgWord (s : State) : Word :=
  packBits [(s.cfg.pos.henvcfgCfie, s.henvcfg.cfie), (s.cfg.pos.henvcfgSfcfie, s.henvcfg.sfcfie)]

/-- `mseccfg` (R20). -/
def State.mseccfgWord (s : State) : Word := packBits [(s.cfg.pos.mseccfgMfcfie, s.mfcfie)]

/-- The upper half of a 64-bit register, as its `h` register shows it (R31). -/
def upperHalf (w : Word) : Word := (w.extractLsb' 32 32).setWidth 64

/-- A 64-bit register after a write of `v` to its unsuffixed CSR: the low half with `XLEN` = 32, all of it with 64 (R31). -/
def mergeLow (x : Xlen) (old v : Word) : Word :=
  match x with
  | .x32 => old.extractLsb' 32 32 ++ v.extractLsb' 0 32
  | .x64 => v

/-- A 64-bit register after a write of `v` to its `h` CSR (R31). -/
def mergeHigh (old v : Word) : Word := v.extractLsb' 0 32 ++ old.extractLsb' 0 32

/-- The value a CSR read returns. -/
def State.readCsr (s : State) (r : Csr) : Word :=
  match r with
  | .mstatus => s.cfg.xlen.wrap (s.mstatus.word s.cfg)
  | .mstatush => upperHalf (s.mstatus.word s.cfg)
  | .menvcfg => s.cfg.xlen.wrap s.menvcfgWord
  | .menvcfgh => upperHalf s.menvcfgWord
  | .mseccfg => s.cfg.xlen.wrap s.mseccfgWord
  | .mseccfgh => upperHalf s.mseccfgWord
  | .sstatus => s.cfg.xlen.wrap (s.mstatus.sstatusWord s.cfg)
  | .henvcfg => s.cfg.xlen.wrap s.henvcfgWord
  | .henvcfgh => upperHalf s.henvcfgWord
  | .vsstatus => s.cfg.xlen.wrap (s.vsstatus.word s.cfg)
  | .hstatus => s.cfg.xlen.wrap s.hstatus.word
  | .mtvec => s.mtrap.tvec
  | .mepc => epcView s.cfg s.mtrap.epc
  | .mcause => s.mtrap.cause
  | .mtval => s.mtrap.tval
  | .stvec => s.strap.tvec
  | .sepc => epcView s.cfg s.strap.epc
  | .scause => s.strap.cause
  | .stval => s.strap.tval
  | .vstvec => s.vstrap.tvec
  | .vsepc => epcView s.cfg s.vstrap.epc
  | .vscause => s.vstrap.cause
  | .vstval => s.vstrap.tval
  | .medeleg => s.medeleg
  | .mideleg => s.mideleg
  | .hedeleg => s.hedeleg
  | .hideleg => s.hideleg
  | .mie => s.mie
  | .mip => s.mip

/-! ### Writes (R33, R144 (c)) -/

/-- The implemented mode that a written `MPP` names, if there is one. -/
def privOfBits (c : Config) (b : BitVec 2) : Option Priv :=
  if b = 0b11#2 then some .m
  else if b = 0b01#2 ∧ c.hasS = true then some .s
  else if b = 0b00#2 ∧ c.hasU = true then some .u
  else none

/-- An implemented mode, chosen by a free value (notes/assumptions/13.md). -/
def freePriv (c : Config) (w : Word) : Priv :=
  match privOfBits c (w.extractLsb' 0 2) with
  | some p => p
  | none => .m

/-- The fields of `mstatus` but `MPP` after a write of `w`; a field that does not exist stays 0 (R33, notes/assumptions/29.md). -/
def Mstatus.fieldsFrom (c : Config) (w : Word) (mpp : Priv) : Mstatus :=
  { sie := c.hasS && w.getLsbD 1
    mie := w.getLsbD 3
    spie := c.hasS && w.getLsbD 5
    mpie := w.getLsbD 7
    spp := c.hasS && w.getLsbD 8
    mpp := mpp
    tw := (c.hasS || c.hasU) && w.getLsbD 21
    tsr := c.hasS && w.getLsbD 22
    mpv := c.hasH && w.getLsbD 39
    ufcfie := c.hasUField && w.getLsbD c.pos.mstatusUfcfie
    spelp := .ofBool (c.hasSField && w.getLsbD c.pos.mstatusSpelp)
    mpelp := .ofBool (c.hasMfcfie && w.getLsbD c.pos.mstatusMpelp) }

/-- `mstatus` takes the 64-bit word `w`. A write of a mode that does not exist to `MPP` leaves an implemented mode that the
spec does not name: a free value (notes/assumptions/13.md). -/
def State.putMstatus (s : State) (w : Word) : State :=
  match privOfBits s.cfg (w.extractLsb' 11 2) with
  | some p => { s with mstatus := .fieldsFrom s.cfg w p }
  | none => { s.drawn with mstatus := .fieldsFrom s.cfg w (freePriv s.cfg s.freeValue) }

/-- `mstatus` after a write of `w` to `sstatus`: the fields of the view, no others (R32, R33); the host's among them are `SIE`,
`SPIE` and `SPP` (PRESUMED, notes/assumptions/38.md). -/
def Mstatus.withSstatus (c : Config) (m : Mstatus) (w : Word) : Mstatus :=
  { m with
    sie := w.getLsbD 1
    spie := w.getLsbD 5
    spp := w.getLsbD 8
    ufcfie := if c.sstatusHasUfcfie then c.hasUField && w.getLsbD c.pos.mstatusUfcfie else m.ufcfie
    spelp := .ofBool (c.hasSField && w.getLsbD c.pos.mstatusSpelp) }

/-- `vsstatus` after a write (R33). -/
def Vsstatus.fieldsFrom (c : Config) (w : Word) : Vsstatus :=
  { sie := w.getLsbD 1
    spie := w.getLsbD 5
    spp := w.getLsbD 8
    ufcfie := c.hasVuField && w.getLsbD c.pos.vsstatusUfcfie
    spelp := .ofBool (c.hasHField && w.getLsbD c.pos.vsstatusSpelp) }

/-- `menvcfg` takes a 64-bit word (R33). -/
def State.putMenvcfg (s : State) (w : Word) : State :=
  { s with
    menvcfg :=
      { cfie := s.cfg.hasMenvCfie && w.getLsbD s.cfg.pos.menvcfgCfie
        sfcfie := s.cfg.hasSField && w.getLsbD s.cfg.pos.menvcfgSfcfie } }

/-- `henvcfg` takes a 64-bit word (R33). -/
def State.putHenvcfg (s : State) (w : Word) : State :=
  { s with
    henvcfg :=
      { cfie := s.cfg.hasHField && w.getLsbD s.cfg.pos.henvcfgCfie
        sfcfie := s.cfg.hasHField && w.getLsbD s.cfg.pos.henvcfgSfcfie } }

/-- `mseccfg` takes a 64-bit word (R33). -/
def State.putMseccfg (s : State) (w : Word) : State :=
  { s with mfcfie := s.cfg.hasMfcfie && w.getLsbD s.cfg.pos.mseccfgMfcfie }

/-- A written `xtvec`: bit 1 is not kept, so that the mode is direct or vectored (DESIGN CHOICE, notes/assumptions/14.md). -/
def tvecLegal (v : Word) : Word := v &&& ~~~(2#64)

/-- The bits of `medeleg` that can be set: not bit 11, the environment call from M (PRESUMED, notes/assumptions/16.md). -/
def medelegMask : Word := ~~~(0x800#64)

/-- The bits of `hedeleg` that can be set (PRESUMED, notes/assumptions/16.md): not the environment calls from HS, VS and M, the
guest-page faults and the virtual-instruction exception. -/
def hedelegMask : Word := ~~~(0xF00E00#64)

/-- The bits of `mip` that software writes (PRESUMED, notes/assumptions/19.md): `SSIP`, `STIP` and `SEIP` with S-mode, `VSSIP` with
the hypervisor extension. The others are the interrupt sources' alone. -/
def mipWritable (c : Config) : Word := (if c.hasS then 0x222#64 else 0#64) ||| (if c.hasH then 0x004#64 else 0#64)

/-- The bits of `v` where `mask` is set, those of `old` elsewhere. -/
def mergeMasked (mask old v : Word) : Word := (old &&& ~~~mask) ||| (v &&& mask)

/-- The state after a write of the `XLEN`-bit value `v` to a register (R144 (c)). -/
def State.writeCsr (s : State) (r : Csr) (v : Word) : State :=
  match r with
  | .mstatus => s.putMstatus (mergeLow s.cfg.xlen (s.mstatus.word s.cfg) v)
  | .mstatush => s.putMstatus (mergeHigh (s.mstatus.word s.cfg) v)
  | .menvcfg => s.putMenvcfg (mergeLow s.cfg.xlen s.menvcfgWord v)
  | .menvcfgh => s.putMenvcfg (mergeHigh s.menvcfgWord v)
  | .mseccfg => s.putMseccfg (mergeLow s.cfg.xlen s.mseccfgWord v)
  | .mseccfgh => s.putMseccfg (mergeHigh s.mseccfgWord v)
  | .sstatus => { s with mstatus := s.mstatus.withSstatus s.cfg v }
  | .henvcfg => s.putHenvcfg (mergeLow s.cfg.xlen s.henvcfgWord v)
  | .henvcfgh => s.putHenvcfg (mergeHigh s.henvcfgWord v)
  | .vsstatus => { s with vsstatus := .fieldsFrom s.cfg v }
  | .hstatus => { s with hstatus := { spv := v.getLsbD 7, vtsr := v.getLsbD 22 } }
  | .mtvec => { s with mtrap := { s.mtrap with tvec := tvecLegal (s.cfg.xlen.wrap v) } }
  | .mepc => { s with mtrap := { s.mtrap with epc := s.cfg.xlen.wrap v } }
  | .mcause => { s with mtrap := { s.mtrap with cause := s.cfg.xlen.wrap v } }
  | .mtval => { s with mtrap := { s.mtrap with tval := s.cfg.xlen.wrap v } }
  | .stvec => { s with strap := { s.strap with tvec := tvecLegal (s.cfg.xlen.wrap v) } }
  | .sepc => { s with strap := { s.strap with epc := s.cfg.xlen.wrap v } }
  | .scause => { s with strap := { s.strap with cause := s.cfg.xlen.wrap v } }
  | .stval => { s with strap := { s.strap with tval := s.cfg.xlen.wrap v } }
  | .vstvec => { s with vstrap := { s.vstrap with tvec := tvecLegal (s.cfg.xlen.wrap v) } }
  | .vsepc => { s with vstrap := { s.vstrap with epc := s.cfg.xlen.wrap v } }
  | .vscause => { s with vstrap := { s.vstrap with cause := s.cfg.xlen.wrap v } }
  | .vstval => { s with vstrap := { s.vstrap with tval := s.cfg.xlen.wrap v } }
  | .medeleg => { s with medeleg := s.cfg.xlen.wrap v &&& medelegMask }
  | .mideleg => { s with mideleg := s.cfg.xlen.wrap v }
  | .hedeleg => { s with hedeleg := s.cfg.xlen.wrap v &&& hedelegMask }
  | .hideleg => { s with hideleg := s.cfg.xlen.wrap v }
  | .mie => { s with mie := s.cfg.xlen.wrap v }
  | .mip => { s with mip := mergeMasked (mipWritable s.cfg) s.mip (s.cfg.xlen.wrap v) }

/-- A CSR instruction (R138 to R144): the access is checked; the old value is read; with `write` the register takes
`newValue old`; `x[rd]` takes the old value; `pc` advances by 4. -/
def csrInstruction (i : Instr) (rd : RegIdx) (n : BitVec 12) (write : Bool) (newValue : Word → Word) (s : State) :
    Result :=
  match s.csrAccess n write with
  | .illegal => raiseIllegal i s
  | .virtual => raiseVirtual s
  | .reaches r =>
    let old := s.readCsr r
    let s' := if write then s.writeCsr r (newValue old) else s
    .next ((s'.writeReg rd old).advance 4)

end Sys2Proof.Machine
end

