-- ==== Sys2Proof/Machine/CsrAccess.lean ====
section
/-! DEFINITION. The six CSR instructions (spec/43_host_subset.md R138 to R144), each one call of the shared
`csrInstruction`. -/

namespace Sys2Proof.Machine

/-- `csrrw rd, csr, rs1` (R138). -/
def execCsrrw (rd rs1 : RegIdx) (csr : BitVec 12) (s : State) : Result :=
  csrInstruction (.csrrw rd rs1 csr) rd csr true (fun _ => s.readReg rs1) s

/-- `csrrs rd, csr, rs1` (R139): no write when `rs1` is `x0`. -/
def execCsrrs (rd rs1 : RegIdx) (csr : BitVec 12) (s : State) : Result :=
  csrInstruction (.csrrs rd rs1 csr) rd csr (rs1 != 0) (fun t => t ||| s.readReg rs1) s

/-- `csrrc rd, csr, rs1` (R140): no write when `rs1` is `x0`. -/
def execCsrrc (rd rs1 : RegIdx) (csr : BitVec 12) (s : State) : Result :=
  csrInstruction (.csrrc rd rs1 csr) rd csr (rs1 != 0) (fun t => t &&& ~~~(s.readReg rs1)) s

/-- `csrrwi rd, csr, uimm` (R141). -/
def execCsrrwi (rd : RegIdx) (uimm : BitVec 5) (csr : BitVec 12) (s : State) : Result :=
  csrInstruction (.csrrwi rd uimm csr) rd csr true (fun _ => zextUimm uimm) s

/-- `csrrsi rd, csr, uimm` (R142): no write when `uimm` is 0. -/
def execCsrrsi (rd : RegIdx) (uimm : BitVec 5) (csr : BitVec 12) (s : State) : Result :=
  csrInstruction (.csrrsi rd uimm csr) rd csr (uimm != 0) (fun t => t ||| zextUimm uimm) s

/-- `csrrci rd, csr, uimm` (R143): no write when `uimm` is 0. -/
def execCsrrci (rd : RegIdx) (uimm : BitVec 5) (csr : BitVec 12) (s : State) : Result :=
  csrInstruction (.csrrci rd uimm csr) rd csr (uimm != 0) (fun t => t &&& ~~~(zextUimm uimm)) s

end Sys2Proof.Machine
end

