-- ==== Sys2Proof/Machine/Fences.lean ====
section
/-! DEFINITION. Fences (spec/43_host_subset.md R132, R133). -/

namespace Sys2Proof.Machine

/-- `fence` (R132): a no-op on a single-hart, sequentially consistent model. -/
def execFence (_fm _pred _succ : BitVec 4) (_rs1 _rd : RegIdx) (s : State) : Result := .next (s.advance 4)

/-- Every later fetch sees every earlier store (R50, R133). -/
def State.syncFetch (s : State) : State := { s with staleStores := [] }

/-- `fence.i` (R133). -/
def execFenceI (_imm : BitVec 12) (_rs1 _rd : RegIdx) (s : State) : Result := .next (s.syncFetch.advance 4)

end Sys2Proof.Machine
end

