-- ==== Sys2Proof/Machine/Jumps.lean ====
section
/-! DEFINITION. Jumps: the register-indirect ones with their side effect on `ELP` (spec/40_indirect_jumps.md R84 to R86), and the
direct one (spec/43_host_subset.md R134). -/

namespace Sys2Proof.Machine

/-- `jal rd, off` (R134). -/
def execJal (rd : RegIdx) (off : BitVec 21) (s : State) : Result :=
  jumpTo s (s.writeReg rd (s.pc + 4#64)) (s.pcPlus off)

/-- `jalr rd, imm(rs1)` (R84): the target is read before the link is written; `ELP` by R83. -/
def execJalr (rd rs1 : RegIdx) (imm : BitVec 12) (s : State) : Result :=
  jumpTo s ((s.writeReg rd (s.pc + 4#64)).setElp (elpAfterJump s .jalr rd rs1)) (clearBit0 (s.regPlusImm rs1 imm))

/-- `c.jr rs1` (R85), an instruction only when `HAS_C`. -/
def execCJr (rs1 : RegIdx) (s : State) : Result :=
  if s.cfg.hasC then .next ((s.setElp (elpAfterJump s .cJr 0 rs1)).goto (clearBit0 (s.readReg rs1)))
  else raiseIllegalUnsettled s

/-- `c.jalr rs1` (R86), an instruction only when `HAS_C`; the link is `pc + 2`. -/
def execCJalr (rs1 : RegIdx) (s : State) : Result :=
  if s.cfg.hasC then
    .next (((s.writeReg 1 (s.pc + 2#64)).setElp (elpAfterJump s .cJalr 1 rs1)).goto (clearBit0 (s.readReg rs1)))
  else raiseIllegalUnsettled s

end Sys2Proof.Machine
end

