-- ==== Sys2Proof/Machine/LandingPad.lean ====
section
/-! DEFINITION. The landing pad instruction (spec/41_lpad.md R101 to R106). -/

namespace Sys2Proof.Machine

/-- `lpad LPL` (R101): while CFI is active, the alignment test, then the label test, then `ELP <- NO_LP_EXPECTED`; while it is
not active, a no-op (R102). The tests do not look at `ELP` (R103). -/
def execLpad (lpl : BitVec 20) (s : State) : Result :=
  if s.xfcfie then
    if isFourAligned s.pc = false then raiseIllegal (.lpad lpl) s
    else if labelMatches lpl (s.readReg 7) then .next ((s.setElp .noLpExpected).advance 4)
    else raiseIllegal (.lpad lpl) s
  else .next (s.advance 4)

end Sys2Proof.Machine
end

