-- ==== Sys2Proof/Machine/LoadStore.lean ====
section
/-! DEFINITION. `lw` and `sw` (spec/43_host_subset.md R126, R127; spec/20_memory.md R44). A misaligned access that traps does so
before the memory system is asked (R156, notes/assumptions/21.md). -/

namespace Sys2Proof.Machine

/-- `lw rd, imm(rs1)` (R126). -/
def execLw (rd rs1 : RegIdx) (imm : BitVec 12) (s : State) : Result :=
  let a := s.regPlusImm rs1 imm
  if s.dataMisaligned a then raise .loadAddressMisaligned a s
  else
    match s.answer.data with
    | some e => raiseFree (loadException e) s
    | none => .next ((s.writeReg rd (s.sext (s.load32 a))).advance 4)

/-- `sw rs2, imm(rs1)` (R127). -/
def execSw (rs2 rs1 : RegIdx) (imm : BitVec 12) (s : State) : Result :=
  let a := s.regPlusImm rs1 imm
  if s.dataMisaligned a then raise .storeAddressMisaligned a s
  else
    match s.answer.data with
    | some e => raiseFree (storeException e) s
    | none => .next ((s.store32 a ((s.readReg rs2).setWidth 32)).advance 4)

end Sys2Proof.Machine
end

