-- ==== Sys2Proof/Machine/System.lean ====
section
/-! DEFINITION. `ecall`, `ebreak`, `wfi` (spec/43_host_subset.md R135 to R137). -/

namespace Sys2Proof.Machine

/-- Which environment call this is, by `priv` and `V` (R135). -/
def State.ecallException (s : State) : Exception :=
  match s.priv, s.virt with
  | .u, _ => .ecallFromU
  | .s, false => .ecallFromS
  | .s, true => .ecallFromVS
  | .m, _ => .ecallFromM

/-- `ecall` (R135): `xtval` is 0. -/
def execEcall (s : State) : Result := raise s.ecallException 0#64 s

/-- `ebreak` (R136); the spec states no `xtval`. -/
def execEbreak (s : State) : Result := raiseFree .breakpoint s

/-- Where `WFI` is illegal once its time bound is over (R137): in U-mode when `HAS_S`, and below M with `mstatus.TW` = 1.
Whether "U-mode" includes VU the spec leaves open: it does here, whatever `V` (DESIGN CHOICE, notes/assumptions/39.md). -/
def State.wfiBounded (s : State) : Bool :=
  (s.cfg.hasS && decide (s.priv = .u)) || (s.mstatus.tw && decide (s.priv ≠ .m))

/-- `wfi` (R137, D32): a no-op; on an implementation whose time bound is zero, illegal-instruction where R137 says so
(notes/assumptions/25.md; in VU as in U, 39.md). -/
def execWfi (s : State) : Result :=
  if s.cfg.wfiBound = .noWait ∧ s.wfiBounded = true then raiseIllegal .wfi s else .next (s.advance 4)

end Sys2Proof.Machine
end

