-- ==== Sys2Proof/Machine/TrapReturn.lean ====
section
/-! DEFINITION. `mret` and `sret` (spec/42_trap_return.md R110 to R114). -/

namespace Sys2Proof.Machine

/-- `mret` (R110). -/
def execMret (s : State) : Result :=
  if s.priv = .m then .next s.returnFromM else raiseIllegal .mret s

/-- `sret` (R111 with `V` = 0, R112 with `V` = 1), an instruction only when `HAS_S`. -/
def execSret (s : State) : Result :=
  if s.cfg.hasS = false then raiseIllegal .sret s
  else if s.virt then
    if s.priv = .u then raiseVirtual s
    else if s.hstatus.vtsr then raiseVirtual s
    else .next s.returnFromVS
  else
    if s.priv = .u then raiseIllegal .sret s
    else if s.priv = .s ∧ s.mstatus.tsr = true then raiseIllegal .sret s
    else .next s.returnFromS

end Sys2Proof.Machine
end

