-- ==== Sys2Proof/Machine/Fetch.lean ====
section
/-! DEFINITION. What happens before an instruction executes: the interrupt the host announces, the fetch, the landing pad
requirement (spec/60_exceptions.md R155 steps 1 to 3, spec/20_memory.md R41, R47, R50, spec/41_lpad.md R100). -/

namespace Sys2Proof.Machine

/-! ### Interrupts (R157, notes/assumptions/18.md) -/

/-- Is an interrupt announced for a mode the host's choice: where the delegation registers decide, the mode that `mideleg` and
`hideleg` name; else whichever the oracle announces (R157, R159). -/
def State.routesInterrupt (s : State) (a : Announcement) : Bool :=
  match s.cfg.trapTarget with
  | .delegation => a.target == delegatedTarget a.cause s.mideleg s.hideleg s.cfg.hasS s.cfg.hasH
  | .table _ => true

/-- "globally gated by `mstatus.MIE`/`SIE`" (R157): a mode's own enable counts in that mode; a more privileged mode is always
enabled, a less privileged one never. -/
def State.globallyEnabled (s : State) : TrapTarget → Bool
  | .m => decide (s.priv ≠ .m) || s.mstatus.mie
  | .hs => decide (s.priv ≠ .m) && (s.virt || decide (s.priv = .u) || s.mstatus.sie)
  | .vs => s.virt && (decide (s.priv = .u) || s.vsstatus.sie)

/-- The announced interrupt if it is taken: pending in `mip`, enabled in `mie`, globally enabled, and announced for a mode that the
host routes it to and that can take it (R155 step 1, R157, R159). -/
def State.takenInterrupt (s : State) : Option Announcement :=
  match s.answer.interrupt with
  | none => none
  | some a =>
    if s.mip.getLsbD a.cause.toNat && s.mie.getLsbD a.cause.toNat && s.routesInterrupt a && s.admitsTarget a.target &&
      s.globallyEnabled a.target then some a
    else none

/-! ### Fetch (R41, R47, R50, R60) -/

/-- What a fetch brings: an instruction of 16 or 32 bits, or the first parcel of a longer encoding (R60). -/
inductive Fetched where
  | code (c : Code)
  | long (p : BitVec 16)
deriving DecidableEq, Repr

/-- The exception of a fetch that the host refuses (R47, R152). -/
def fetchExceptionOf : FetchException → Exception
  | .addressBreakpoint => .breakpoint
  | .pageFault => .instructionPageFault
  | .guestPageFault => .instructionGuestPageFault
  | .accessFault => .instructionAccessFault

/-- The byte at `a` as a fetch sees it that does not see the store accesses marked in `hidden` (R50). -/
def State.fetchByte (s : State) (hidden : List Bool) (a : Nat) : Byte :=
  fetchedByte a (s.mem.read a) s.staleStores hidden

/-- The 16-bit parcel at `a`, little-endian; one fetch sees or does not see a store access as a whole (R41, R45, R50). -/
def State.fetchParcel (s : State) (hidden : List Bool) (a : Word) : BitVec 16 :=
  s.fetchByte hidden (byteAddress s.cfg.xlen a 1) ++ s.fetchByte hidden (byteAddress s.cfg.xlen a 0)

/-- `HostFetch(pc)` (R47, R60). -/
def State.fetch (s : State) : Except FetchException Fetched :=
  match s.answer.fetch with
  | some e => .error e
  | none =>
    let lo := s.fetchParcel s.answer.staleLow s.pc
    match lengthOf lo with
    | .half => .ok (.code (.half lo))
    | .word => .ok (.code (.word (joinParcels lo (s.fetchParcel s.answer.staleHigh (s.pc + 2#64)))))
    | .long => .ok (.long lo)

/-- Is what was fetched an `lpad` (R61, R100). -/
def Fetched.isLpad : Fetched → Bool
  | .code (.word w) => isLpadWord w
  | .code (.half _) => false
  | .long _ => false

/-- The landing pad requirement is violated (R100). -/
def State.landingPadMissing (s : State) (f : Fetched) : Bool :=
  s.xfcfie && decide (s.elp = .lpExpected) && !f.isLpad

/-- Decode what was fetched; without `HAS_C` a 16-bit parcel is no instruction (R60). -/
def decodeFetched (c : Config) : Fetched → Except DecodeError Instr
  | .code (.half h) => if c.hasC then decodeHalf h else .error .noCompressed
  | .code (.word w) => decodeWord w
  | .long _ => .error .tooLong

/-- Illegal-instruction on what was fetched (R68, R100, R151). The "instruction bits" of an encoding longer than 32 bits, and of
a 16-bit parcel on a hart without `HAS_C`, are not settled by the spec (notes/assumptions/22.md). -/
def raiseIllegalFetched (f : Fetched) (s : State) : Result :=
  match f with
  | .code (.word w) => raise .illegalInstruction (s.illegalTval (.word w)) s
  | .code (.half h) =>
    if s.cfg.hasC then raise .illegalInstruction (s.illegalTval (.half h)) s else raiseIllegalUnsettled s
  | .long _ => raiseIllegalUnsettled s

end Sys2Proof.Machine
end

