-- ==== Sys2Proof/Machine/Step.lean ====
section
/-! DEFINITION. One step of the hart, in the order of spec/60_exceptions.md R155, and where the next instruction is fetched. -/

namespace Sys2Proof.Machine

/-- An outcome with its next state changed by `f`. -/
def mapNext (f : State → State) : Result → Result
  | .next s => .next (f s)
  | .fault e => .fault e
  | .refused r => .refused r

/-- Step 4 of R155: decode and execute what was fetched; an encoding that is no instruction raises illegal-instruction (R68). -/
def execFetched (f : Fetched) (s : State) : Result :=
  match decodeFetched s.cfg f with
  | .ok i => exec i s
  | .error _ => raiseIllegalFetched f s

/-- Steps 1 to 5 of R155, with the host's answer still in place. -/
def stepAnswered (s : State) : Result :=
  match s.takenInterrupt with
  | some a => .next (s.takeTrap a.target true a.cause 0#64)
  | none =>
    match s.fetch with
    | .error e => raiseFree (fetchExceptionOf e) s
    | .ok f => if s.landingPadMissing f then raiseIllegalFetched f s else execFetched f s

/-- One step (R155); it uses up one answer of the host (notes/assumptions/17.md). -/
def step (s : State) : Host.Outcome State Fault Refusal := mapNext State.nextAnswer (stepAnswered s)

/-- The addresses and bytes of a table instruction placed at `pc`. -/
def fetchCells (s : State) (nbits w : Nat) : List Host.Cell :=
  (tableBytes nbits w).mapIdx (fun i b => (byteAddress s.cfg.xlen s.pc i, b))

/-- `s` with the instruction `w` stored at `pc`, seen by the next fetch, which the host neither refuses nor interrupts
(notes/assumptions/9.md). -/
def State.withFetchWord (s : State) (nbits w : Nat) : State :=
  { s with
    mem := s.mem.writeAll (fetchCells s nbits w)
    answers :=
      { s.answer with interrupt := none, fetch := none, staleLow := [], staleHigh := [] } :: s.answers.tail }

end Sys2Proof.Machine
end

