-- ==== Sys2Proof/Safety.lean ====
section
/-! DEFINITION. The terms claims are stated in: what a step leaves alone, what a trap is, which instructions are which, and the
invariants of a legal state. -/

namespace Sys2Proof.Machine

/-! ### What stays the same -/

/-- The parameters, the mode and every control, trap and delegation register are the same; `ELP`, `pc`, the general registers
and memory are not spoken of. -/
structure SameControl (s t : State) : Prop where
  cfg : t.cfg = s.cfg
  priv : t.priv = s.priv
  virt : t.virt = s.virt
  mfcfie : t.mfcfie = s.mfcfie
  menvcfg : t.menvcfg = s.menvcfg
  mstatus : t.mstatus = s.mstatus
  henvcfg : t.henvcfg = s.henvcfg
  hstatus : t.hstatus = s.hstatus
  vsstatus : t.vsstatus = s.vsstatus
  mtrap : t.mtrap = s.mtrap
  strap : t.strap = s.strap
  vstrap : t.vstrap = s.vstrap
  medeleg : t.medeleg = s.medeleg
  mideleg : t.mideleg = s.mideleg
  hedeleg : t.hedeleg = s.hedeleg
  hideleg : t.hideleg = s.hideleg
  mie : t.mie = s.mie
  mip : t.mip = s.mip

/-- The parameters, the enables outside the status registers, the delegation registers, `mie` and `mip` are the same: what neither
a trap nor a return from one writes. -/
structure SameEnables (s t : State) : Prop where
  cfg : t.cfg = s.cfg
  mfcfie : t.mfcfie = s.mfcfie
  menvcfg : t.menvcfg = s.menvcfg
  henvcfg : t.henvcfg = s.henvcfg
  medeleg : t.medeleg = s.medeleg
  mideleg : t.mideleg = s.mideleg
  hedeleg : t.hedeleg = s.hedeleg
  hideleg : t.hideleg = s.hideleg
  mie : t.mie = s.mie
  mip : t.mip = s.mip

/-- Every byte of memory reads as before, a fetch sees what it saw, and the host's answers and the free values are untouched. -/
structure SameMemory (s t : State) : Prop where
  bytes : ∀ a, t.mem.read a = s.mem.read a
  stale : t.staleStores = s.staleStores
  answers : t.answers = s.answers
  draws : t.draws = s.draws

/-- Every general register but `rd` reads as before. -/
def SameRegsBut (rd : RegIdx) (s t : State) : Prop := ∀ r, r ≠ rd → t.readReg r = s.readReg r

/-- Every general register reads as before. -/
def SameRegs (s t : State) : Prop := ∀ r, t.readReg r = s.readReg r

/-- What `x[rd]` reads after a write of `v`: `v` modulo `2^XLEN`, and 0 for `x0`, which discards the write (R8, R11). -/
def writtenValue (s : State) (rd : RegIdx) (v : Word) : Word := if rd = 0 then 0#64 else s.cfg.xlen.wrap v

/-! ### Traps and instructions in one step -/

/-- The same machine with another count of free values. -/
def State.withDraws (s : State) (n : Nat) : State := { s with draws := n }

/-- `t` is the state after a trap taken in `s` (R153, R154), whatever free values were drawn for it. -/
def TrapFrom (s t : State) : Prop :=
  ∃ target interrupt c tval, t = (s.takeTrap target interrupt c tval).withDraws t.draws

/-- `t` is the state after a step that takes a trap in `s`. -/
def TrapStep (s t : State) : Prop := ∃ u, TrapFrom s u ∧ t = u.nextAnswer

/-- The instruction that a step from `s` executes: no interrupt is taken, the fetch succeeds, the landing pad requirement is
met, and the bits decode to `i` (R155). -/
def Executes (s : State) (i : Instr) : Prop :=
  s.takenInterrupt = none ∧
  ∃ f, s.fetch = .ok f ∧ s.landingPadMissing f = false ∧ decodeFetched s.cfg f = .ok i

/-- A register-indirect jump that expects a landing pad (R80 to R82). -/
def expectsLandingPad : Instr → Bool
  | .jalr rd rs1 _ => isLpExpected .jalr rd rs1
  | .cJr rs1 => isLpExpected .cJr 0 rs1
  | .cJalr rs1 => isLpExpected .cJalr 1 rs1
  | _ => false

/-- The `xRET` instructions. -/
def isTrapReturn : Instr → Bool
  | .mret => true
  | .sret => true
  | _ => false

/-- The `xPELP` bit that a trap into the given mode writes (R153). -/
def savedElp (t : State) : TrapTarget → Elp
  | .m => t.mstatus.mpelp
  | .hs => t.mstatus.spelp
  | .vs => t.vsstatus.spelp

/-- The trap registers of the given mode (R154). -/
def trapCsrsOf (t : State) : TrapTarget → TrapCsrs
  | .m => t.mtrap
  | .hs => t.strap
  | .vs => t.vstrap

/-- The register that holds what a CSR shows: the `h` halves and `sstatus` are no registers of their own (R31, R32). -/
def csrHome : Csr → Csr
  | .mstatush => .mstatus
  | .sstatus => .mstatus
  | .menvcfgh => .menvcfg
  | .mseccfgh => .mseccfg
  | .henvcfgh => .henvcfg
  | r => r

/-! ### Control-register fields -/

/-- Bit `p` of the CSR `r` is the plain read/write bit that `get` reads from the state (R33): a read of `r` returns it there, and
a write of `v` stores bit `p` of `v`. -/
def PlainBit (s : State) (r : Csr) (p : Nat) (get : State → Bool) (v : Word) : Prop :=
  (s.readCsr r).getLsbD p = get s ∧ get (s.writeCsr r v) = v.getLsbD p

/-- Position `p` of a 64-bit register with the CSRs `low` and, when `XLEN` = 32, `high` is a plain read/write bit (R31, R33). -/
def PlainField (s : State) (low high : Csr) (p : Nat) (get : State → Bool) (v : Word) : Prop :=
  (s.cfg.xlen = .x64 ∨ p < 32 → PlainBit s low p get v) ∧
  (s.cfg.xlen = .x32 → 32 ≤ p → PlainBit s high (p - 32) get v)

/-- With `XLEN` = 32 a write of one half of a 64-bit register leaves a field at position `p` of the other half as it was (R31). -/
def KeptByOtherHalf (s : State) (low high : Csr) (p : Nat) (get : State → Bool) (v : Word) : Prop :=
  s.cfg.xlen = .x32 →
    (p < 32 → get (s.writeCsr high v) = get s) ∧ (32 ≤ p → get (s.writeCsr low v) = get s)

/-! ### Invariants -/

/-- The memory is in canonical form and lists only `XLEN`-bit addresses (R40). -/
def State.MemoryOk (s : State) : Prop :=
  s.mem.wf = true ∧ (∀ c ∈ s.mem, c.1 < 2 ^ s.cfg.xlen.bits) ∧
  ∀ u ∈ s.staleStores, ∀ c ∈ u, c.1 < 2 ^ s.cfg.xlen.bits

/-- `pc[0]` is 0, and `pc[1]` is 0 when `HAS_C` is false (R15). -/
def State.PcOk (s : State) : Prop :=
  s.pc.getLsbD 0 = false ∧ (s.cfg.hasC = false → s.pc.getLsbD 1 = false)

/-- A mode that the hart implements (R6, R19). -/
def implementedPriv (c : Config) : Priv → Bool
  | .m => true
  | .s => c.hasS
  | .u => c.hasU

/-- The mode is implemented, `V` = 1 only with `HAS_H` and below M, and the saved modes are modes that exist (R19, R34). -/
def State.ModeOk (s : State) : Prop :=
  implementedPriv s.cfg s.priv = true ∧
  (s.virt = true → s.cfg.hasH = true ∧ s.priv ≠ .m) ∧
  implementedPriv s.cfg s.mstatus.mpp = true ∧
  (s.mstatus.mpv = true → s.cfg.hasH = true) ∧
  (s.hstatus.spv = true → s.cfg.hasH = true)

/-- A field of the extension whose register or governed mode does not exist is 0 (R33); on a hart without the extension `ELP`
is 0 too. -/
def State.FieldsOk (s : State) : Prop :=
  (s.cfg.hasZicfisslp = false → s.elp = .noLpExpected) ∧
  (s.cfg.hasMfcfie = false → s.mfcfie = false ∧ s.mstatus.mpelp = .noLpExpected) ∧
  (s.cfg.hasMenvCfie = false → s.menvcfg.cfie = false) ∧
  (s.cfg.hasSField = false → s.menvcfg.sfcfie = false ∧ s.mstatus.spelp = .noLpExpected) ∧
  (s.cfg.hasUField = false → s.mstatus.ufcfie = false) ∧
  (s.cfg.hasHField = false → s.henvcfg.cfie = false ∧ s.henvcfg.sfcfie = false ∧ s.vsstatus.spelp = .noLpExpected) ∧
  (s.cfg.hasVuField = false → s.vsstatus.ufcfie = false)

/-- A word of `XLEN` bits. -/
def Fits (s : State) (w : Word) : Prop := s.cfg.xlen.wrap w = w

/-- The trap registers of a mode hold `XLEN`-bit words. -/
def TrapCsrsFit (s : State) (r : TrapCsrs) : Prop := Fits s r.tvec ∧ Fits s r.epc ∧ Fits s r.cause ∧ Fits s r.tval

/-- `pc`, the general registers and the word-wide control registers are `XLEN` bits wide (R10, R15), and `x0` is 0 (R11). -/
def State.WordsOk (s : State) : Prop :=
  Fits s s.pc ∧ (∀ i : RegIdx, Fits s s.regs[i]) ∧ s.regs[(0 : RegIdx)] = 0#64 ∧
  TrapCsrsFit s s.mtrap ∧ TrapCsrsFit s s.strap ∧ TrapCsrsFit s s.vstrap ∧
  Fits s s.medeleg ∧ Fits s s.mideleg ∧ Fits s s.hedeleg ∧ Fits s s.hideleg ∧ Fits s s.mie ∧ Fits s s.mip

end Sys2Proof.Machine
end

