-- ==== Sys2Proof/Certificates/Slice0/Obligations.lean ====
section
/-! DEFINITION. The statements for the provers. Each docstring names the rule of spec/ it formalises, or the log entry where it
rests on a choice of the model. Nothing is proved here. -/

open Sys2Proof Sys2Proof.Machine

/-! ### Encoding -/

/-- R61 to R67: decoding the encoding of a well-formed instruction gives it back, with every operand at every value. -/
def Obligations.DecodeOfEncode : Prop :=
  ∀ i : Instr, i.wf = true → decode (encode i) = .ok i

/-- R61 to R68: a word that decodes, of 32 bits or of 16, is the encoding of a well-formed instruction, so no bit of it is dropped
and no two words mean the same instruction, but for the 16-bit word 0x9002, `c.ebreak`, which is the instruction `ebreak` whose
encoding is the 32-bit word (that the two are one instruction of the model is log entry 33's). -/
def Obligations.EncodeOfDecodeWord : Prop :=
  (∀ (w : BitVec 32) (i : Instr), decodeWord w = .ok i → encode i = .word w ∧ i.wf = true) ∧
  ∀ (h : BitVec 16) (i : Instr), decodeHalf h = .ok i →
    (encode i = .half h ∧ i.wf = true) ∨ (h = 0x9002#16 ∧ i = .ebreak)

/-- R41, R60: the decoder reads a well-formed instruction from its stored bytes and leaves the bytes after it. -/
def Obligations.DecodeBytesOfEncode : Prop :=
  ∀ (i : Instr) (rest : List Byte), i.wf = true → decodeBytes ((encode i).bytes ++ rest) = .ok (i, rest)

/-- R61, R63: the words that decode to `lpad` are those with `inst & 0x00000FFF == 0x00000017`, and the label is
`inst[31:12]`; with the same major opcode and another `rd` the word is `auipc`. -/
def Obligations.LpadWords : Prop :=
  ∀ w : BitVec 32,
    (isLpadWord w = true ↔ w &&& 0x00000FFF#32 = 0x00000017#32) ∧
    (isLpadWord w = true → decodeWord w = .ok (.lpad (w.extractLsb' 12 20))) ∧
    (∀ l, decodeWord w = .ok (.lpad l) → isLpadWord w = true) ∧
    (w.extractLsb' 0 7 = 0b0010111#7 → isLpadWord w = false → decodeWord w = .ok (.auipc (rdOf w) (w.extractLsb' 12 20)))

/-- R69 and C3: where the upper half of one 32-bit instruction is `?017h`, it forms an `lpad` with the lower half of the next. -/
def Obligations.AccidentalLandingPad : Prop :=
  ∀ a b : BitVec 32, a.extractLsb' 16 12 = 0x017#12 →
    decodeWord (joinParcels (a.extractLsb' 16 16) (b.extractLsb' 0 16)) =
      .ok (.lpad (b.extractLsb' 0 16 ++ a.extractLsb' 28 4))

/-- Words written out from the field tables of R61, R62 and R67 decode to the instructions they spell (a sanity check), and the
reserved encodings that R68 (d) names are no instructions. -/
def Obligations.WrittenOutWords : Prop :=
  decodeWord (0xAAB33#20 ++ 0b00000#5 ++ 0b0010111#7) = .ok (.lpad 0xAAB33#20) ∧
  decodeWord (0b000000000100#12 ++ 0b00110#5 ++ 0b010#3 ++ 0b00101#5 ++ 0b0000011#7) = .ok (.lw 5 6 4#12) ∧
  decodeWord (0b1111111#7 ++ 0b00101#5 ++ 0b00110#5 ++ 0b010#3 ++ 0b11100#5 ++ 0b0100011#7) = .ok (.sw 5 6 0xFFC#12) ∧
  decodeWord (0b1#1 ++ 0b111111#6 ++ 0b00110#5 ++ 0b00101#5 ++ 0b110#3 ++ 0b1100#4 ++ 0b1#1 ++ 0b1100011#7) =
    .ok (.bltu 5 6 0x1FF8#13) ∧
  decodeWord (0b0#1 ++ 0b0010000000#10 ++ 0b0#1 ++ 0b00000000#8 ++ 0b00001#5 ++ 0b1101111#7) = .ok (.jal 1 0x100#21) ∧
  decodeWord (0x300#12 ++ 0b00101#5 ++ 0b011#3 ++ 0b00000#5 ++ 0b1110011#7) = .ok (.csrrc 0 5 0x300#12) ∧
  decodeHalf (0b1001#4 ++ 0b01010#5 ++ 0b00000#5 ++ 0b10#2) = .ok (.cJalr 10) ∧
  decodeHalf 0x0000#16 = .error .noSuchHalf ∧ decodeHalf 0x8002#16 = .error .noSuchHalf ∧
  decodeHalf 0x9002#16 = .ok .ebreak ∧
  ∀ w : BitVec 32, w.extractLsb' 0 7 = 0b1100111#7 → w.extractLsb' 12 3 ≠ 0b000#3 → decodeWord w = .error .noSuchWord

/-! ### When forward-edge CFI is active -/

/-- R29: the truth table of `xFCFIE()`, one row per mode, on a hart with the extension. -/
def Obligations.ActiveTable : Prop :=
  ∀ s : State, s.cfg.hasZicfisslp = true →
    (s.priv = .m → (s.xfcfie = true ↔ s.mfcfie = true)) ∧
    (s.priv = .s → s.virt = false → (s.xfcfie = true ↔ s.menvcfg.cfie = true ∧ s.menvcfg.sfcfie = true)) ∧
    (s.priv = .u → s.virt = false → (s.xfcfie = true ↔ s.menvcfg.cfie = true ∧ s.mstatus.ufcfie = true)) ∧
    (s.priv = .s → s.virt = true →
      (s.xfcfie = true ↔ s.menvcfg.cfie = true ∧ s.henvcfg.cfie = true ∧ s.henvcfg.sfcfie = true)) ∧
    (s.priv = .u → s.virt = true →
      (s.xfcfie = true ↔ s.menvcfg.cfie = true ∧ s.henvcfg.cfie = true ∧ s.vsstatus.ufcfie = true))

/-- R30: while CFI is not active, an indirect call or jump does not update `ELP`, no instruction is required to be `lpad`, and
`lpad` executes as a no-op; trap delivery still saves and clears `ELP`, and `mret` and `sret` still restore it. -/
def Obligations.InactiveCfi : Prop :=
  ∀ s : State, s.xfcfie = false →
    (∀ rd rs1 imm t, s.targetMisaligned (clearBit0 (s.regPlusImm rs1 imm)) = false →
      exec (.jalr rd rs1 imm) s = .next t → t.elp = s.elp) ∧
    (∀ rs1 t, s.cfg.hasC = true → exec (.cJr rs1) s = .next t → t.elp = s.elp) ∧
    (∀ rs1 t, s.cfg.hasC = true → exec (.cJalr rs1) s = .next t → t.elp = s.elp) ∧
    (∀ f, s.landingPadMissing f = false) ∧
    (∀ lpl, exec (.lpad lpl) s = .next (s.advance 4)) ∧
    (∀ x i c tv, savedElp (s.takeTrap x i c tv) x = s.elp ∧ (s.takeTrap x i c tv).elp = .noLpExpected) ∧
    (s.priv = .m → ∃ t, exec .mret s = .next t ∧ t.elp = s.mstatus.mpelp ∧ t.mstatus.mpelp = .noLpExpected) ∧
    (s.cfg.hasS = true → s.virt = false → (s.priv = .m ∨ (s.priv = .s ∧ s.mstatus.tsr = false)) →
      ∃ t, exec .sret s = .next t ∧ t.elp = s.mstatus.spelp ∧ t.mstatus.spelp = .noLpExpected) ∧
    (s.cfg.hasS = true → s.virt = true → s.priv ≠ .u → s.hstatus.vtsr = false →
      ∃ t, exec .sret s = .next t ∧ t.elp = s.vsstatus.spelp ∧ t.vsstatus.spelp = .noLpExpected)

/-! ### Which jumps expect a landing pad -/

/-- R80 to R82, R87: `is_indirect_call_jump`, `is_sw_guarded_jump` and `is_lp_expected` by instruction and register numbers: of
the pairs of `JALR` exactly `(x0, x1)`, `(x0, x5)` and `(x7, x7)` expect no landing pad; `C.JR` expects none exactly through
`x1` and `x5`; `C.JALR` always expects one; no other instruction does. -/
def Obligations.JumpClassification : Prop :=
  (∀ rd rs1 : RegIdx, isIndirectCallJump rd rs1 = true ↔ (rs1 ≠ 1 ∧ rs1 ≠ 5) ∨ rd ≠ 0) ∧
  (∀ (k : JumpKind) (rd rs1 : RegIdx), isSwGuardedJump k rd rs1 = true ↔ k = .jalr ∧ rd = 7 ∧ rs1 = 7) ∧
  (∀ (k : JumpKind) (rd rs1 : RegIdx), isLpExpected k rd rs1 = true ↔
    isIndirectCallJump rd rs1 = true ∧ isSwGuardedJump k rd rs1 = false) ∧
  (∀ rd rs1 : RegIdx,
    isLpExpected .jalr rd rs1 = false ↔ (rd = 0 ∧ rs1 = 1) ∨ (rd = 0 ∧ rs1 = 5) ∨ (rd = 7 ∧ rs1 = 7)) ∧
  (∀ rs1 : RegIdx, isLpExpected .cJr 0 rs1 = false ↔ rs1 = 1 ∨ rs1 = 5) ∧
  (∀ rs1 : RegIdx, isLpExpected .cJalr 1 rs1 = true) ∧
  (∀ i : Instr, expectsLandingPad i = true ↔
    (∃ rd rs1 imm, i = .jalr rd rs1 imm ∧ isLpExpected .jalr rd rs1 = true) ∨
    (∃ rs1, i = .cJr rs1 ∧ isLpExpected .cJr 0 rs1 = true) ∨ (∃ rs1, i = .cJalr rs1 ∧ isLpExpected .cJalr 1 rs1 = true))

/-! ### Register-indirect jumps -/

/-- R83, R84: a `jalr` whose target is aligned goes to `(x[rs1] + imm)` with bit 0 cleared, links `pc + 4` in `rd`, sets `ELP`
exactly when CFI is active and a landing pad is expected, and changes nothing else; the register is read before the link is
written. To a target with bit 1 set on a hart without `HAS_C` it raises instruction-address-misaligned (cause 0) with the
target as trap value, and neither links nor sets `ELP` (D13, D20). -/
def Obligations.JalrResult : Prop :=
  ∀ (s : State) (rd rs1 : RegIdx) (imm : BitVec 12),
    (s.targetMisaligned (clearBit0 (s.regPlusImm rs1 imm)) = false →
      ∃ t, exec (.jalr rd rs1 imm) s = .next t ∧
        t.pc = s.cfg.xlen.wrap (s.readReg rs1 + s.cfg.xlen.sext imm) &&& ~~~(1#64) ∧
        t.readReg rd = writtenValue s rd (s.pc + 4#64) ∧ SameRegsBut rd s t ∧
        t.elp = (if s.xfcfie = true ∧ isLpExpected .jalr rd rs1 = true then .lpExpected else s.elp) ∧
        SameControl s t ∧ SameMemory s t) ∧
    (s.cfg.hasC = false → (clearBit0 (s.regPlusImm rs1 imm)).getLsbD 1 = true →
      exec (.jalr rd rs1 imm) s =
        .next (s.takeTrap (s.exceptionTarget 0) false 0 (clearBit0 (s.regPlusImm rs1 imm))))

/-- R83, R85, R86: with `HAS_C`, `c.jr` goes to `x[rs1]` with bit 0 cleared and writes no register, and while CFI is active sets
`ELP` unless `rs1` is `x1` or `x5`; `c.jalr` goes there too, links `pc + 2` in `x1`, and while CFI is active sets `ELP` for
every `rs1`. Without `HAS_C` neither is an instruction: each raises illegal-instruction (cause 2, R60). -/
def Obligations.CompressedJumpResults : Prop :=
  ∀ (s : State) (rs1 : RegIdx),
    (s.cfg.hasC = true → ∃ t, exec (.cJr rs1) s = .next t ∧
      t.pc = s.cfg.xlen.wrap (s.readReg rs1 &&& ~~~(1#64)) ∧ SameRegs s t ∧
      t.elp = (if s.xfcfie = true ∧ rs1 ≠ 1 ∧ rs1 ≠ 5 then .lpExpected else s.elp) ∧
      SameControl s t ∧ SameMemory s t) ∧
    (s.cfg.hasC = true → ∃ t, exec (.cJalr rs1) s = .next t ∧ t.pc = s.cfg.xlen.wrap (s.readReg rs1 &&& ~~~(1#64)) ∧
      t.readReg 1 = s.cfg.xlen.wrap (s.pc + 2#64) ∧ SameRegsBut 1 s t ∧
      t.elp = (if s.xfcfie = true then .lpExpected else s.elp) ∧ SameControl s t ∧ SameMemory s t) ∧
    (s.cfg.hasC = false → ∀ i, i = .cJr rs1 ∨ i = .cJalr rs1 →
      ∃ t, exec i s = .next t ∧ TrapFrom s t ∧ (trapCsrsOf t (s.exceptionTarget 2)).cause = 2#64 ∧ SameRegs s t)

/-! ### The landing pad instruction -/

/-- R101, R106: `lpad` while CFI is active completes at a 4-byte aligned `pc` when its label is 0 or equals `x7[31:12]`, whatever
`ELP` is: `ELP` becomes `NO_LP_EXPECTED`, `pc` advances by 4 and nothing else changes; while CFI is not active it changes only
`pc`. R64: on a hart without the extension the same words, `auipc` with `rd` = `x0`, are a no-op in every mode, whatever the
alignment, the label, `x7` and the control registers. -/
def Obligations.LpadCompletes : Prop :=
  ∀ (s : State) (lpl : BitVec 20),
    decodeWord (lpl ++ 0b00000#5 ++ 0b0010111#7) = .ok (.lpad lpl) ∧
    (s.cfg.hasZicfisslp = false →
      ∃ t, exec (.lpad lpl) s = .next t ∧ t.elp = s.elp ∧ t.pc = s.cfg.xlen.wrap (s.pc + 4#64) ∧
        SameRegs s t ∧ SameControl s t ∧ SameMemory s t) ∧
    (s.xfcfie = true → s.pc.extractLsb' 0 2 = 0b00#2 → (lpl = 0#20 ∨ lpl = (s.readReg 7).extractLsb' 12 20) →
      ∃ t, exec (.lpad lpl) s = .next t ∧ t.elp = .noLpExpected ∧ t.pc = s.cfg.xlen.wrap (s.pc + 4#64) ∧
        SameRegs s t ∧ SameControl s t ∧ SameMemory s t) ∧
    (s.xfcfie = false →
      ∃ t, exec (.lpad lpl) s = .next t ∧ t.elp = s.elp ∧ t.pc = s.cfg.xlen.wrap (s.pc + 4#64) ∧
        SameRegs s t ∧ SameControl s t ∧ SameMemory s t)

/-- R101, R150, R153: while CFI is active, an `lpad` that is not 4-byte aligned, or whose nonzero label differs from `x7[31:12]`,
raises illegal-instruction: the trap saves the `ELP` that stood, records cause 2, the `pc` of the `lpad` and, as `XTVAL_ILLEGAL`
says, zero or the word of the `lpad`, and no general register and no byte of memory changes. -/
def Obligations.LpadFaults : Prop :=
  ∀ (s : State) (lpl : BitVec 20), s.xfcfie = true →
    (s.pc.extractLsb' 0 2 ≠ 0b00#2 ∨ (lpl ≠ 0#20 ∧ lpl ≠ (s.readReg 7).extractLsb' 12 20)) →
    ∃ t, exec (.lpad lpl) s = .next t ∧ TrapFrom s t ∧
      savedElp t (s.exceptionTarget 2) = s.elp ∧ t.elp = .noLpExpected ∧
      (trapCsrsOf t (s.exceptionTarget 2)).cause = 2#64 ∧ (trapCsrsOf t (s.exceptionTarget 2)).epc = s.pc ∧
      (trapCsrsOf t (s.exceptionTarget 2)).tval =
        (if s.cfg.xtvalIllegal = .zero then 0#64 else (lpl ++ 0x017#12).setWidth 64) ∧
      SameRegs s t ∧ SameMemory s t

/-! ### Integer computation -/

/-- R121: `lui`, of the U-type encoding with opcode 0110111, writes `sext_XLEN(imm20 ++ 0x000)`, whose bits 31:12 are `imm20`
and whose bits 11:0 are 0, and raises no exception. -/
def Obligations.LuiResult : Prop :=
  ∀ (s : State) (rd : RegIdx) (imm20 : BitVec 20),
    encode (.lui rd imm20) = .word (imm20 ++ regBits rd ++ 0b0110111#7) ∧
    ∃ t, exec (.lui rd imm20) s = .next t ∧
      t.readReg rd = writtenValue s rd (s.cfg.xlen.sext (imm20 ++ 0x000#12)) ∧
      (rd ≠ 0 → (t.readReg rd).extractLsb' 12 20 = imm20 ∧ (t.readReg rd).extractLsb' 0 12 = 0#12) ∧
      t.pc = s.cfg.xlen.wrap (s.pc + 4#64) ∧ t.elp = s.elp ∧ SameRegsBut rd s t ∧ SameControl s t ∧ SameMemory s t

/-- R122: `auipc`, of the U-type encoding with opcode 0010111, writes `pc + sext_XLEN(imm20 ++ 0x000)` modulo `2^XLEN`; with
`rd` = `x0` the word is `lpad`. -/
def Obligations.AuipcResult : Prop :=
  ∀ (s : State) (rd : RegIdx) (imm20 : BitVec 20),
    decodeWord (imm20 ++ regBits rd ++ 0b0010111#7) = .ok (if rd = 0 then .lpad imm20 else .auipc rd imm20) ∧
    ∃ t, exec (.auipc rd imm20) s = .next t ∧
      t.readReg rd = writtenValue s rd (s.pc + s.cfg.xlen.sext (imm20 ++ 0x000#12)) ∧
      t.pc = s.cfg.xlen.wrap (s.pc + 4#64) ∧ t.elp = s.elp ∧ SameRegsBut rd s t ∧ SameControl s t ∧ SameMemory s t

/-- R123, R124: `addi` (I-type, opcode 0010011, `funct3` 000) and `add` (R-type, opcode 0110011, `funct3` 000, `funct7` 0) write
their sum modulo `2^XLEN`, signal no overflow, and change nothing else but `pc`. -/
def Obligations.SumResults : Prop :=
  ∀ (s : State) (rd rs1 rs2 : RegIdx) (imm : BitVec 12),
    encode (.addi rd rs1 imm) = .word (imm ++ regBits rs1 ++ 0b000#3 ++ regBits rd ++ 0b0010011#7) ∧
    encode (.add rd rs1 rs2) =
      .word (0b0000000#7 ++ regBits rs2 ++ regBits rs1 ++ 0b000#3 ++ regBits rd ++ 0b0110011#7) ∧
    (∃ t, exec (.addi rd rs1 imm) s = .next t ∧
      t.readReg rd = writtenValue s rd (s.readReg rs1 + s.cfg.xlen.sext imm) ∧
      t.pc = s.cfg.xlen.wrap (s.pc + 4#64) ∧ t.elp = s.elp ∧ SameRegsBut rd s t ∧ SameControl s t ∧ SameMemory s t) ∧
    (∃ t, exec (.add rd rs1 rs2) s = .next t ∧
      t.readReg rd = writtenValue s rd (s.readReg rs1 + s.readReg rs2) ∧
      t.pc = s.cfg.xlen.wrap (s.pc + 4#64) ∧ t.elp = s.elp ∧ SameRegsBut rd s t ∧ SameControl s t ∧ SameMemory s t)

/-- R125: `slli` (I-type, opcode 0010011, `funct3` 001, `inst[31:26]` 0, `shamt` in `inst[25:20]`) keeps the low `XLEN` bits of
`x[rs1] * 2^shamt`; with `XLEN` = 32 and bit 5 of the amount set it raises illegal-instruction and writes no register. -/
def Obligations.SlliResult : Prop :=
  ∀ (s : State) (rd rs1 : RegIdx) (shamt : BitVec 6),
    encode (.slli rd rs1 shamt) =
      .word (0b000000#6 ++ shamt ++ regBits rs1 ++ 0b001#3 ++ regBits rd ++ 0b0010011#7) ∧
    (¬(s.cfg.xlen = .x32 ∧ shamt.getLsbD 5 = true) →
      ∃ t, exec (.slli rd rs1 shamt) s = .next t ∧
        (t.readReg rd).toNat =
          (if rd = 0 then 0 else ((s.readReg rs1).toNat * 2 ^ shamt.toNat) % 2 ^ s.cfg.xlen.bits) ∧
        t.pc = s.cfg.xlen.wrap (s.pc + 4#64) ∧ t.elp = s.elp ∧ SameRegsBut rd s t ∧ SameControl s t ∧ SameMemory s t) ∧
    (s.cfg.xlen = .x32 → shamt.getLsbD 5 = true →
      ∃ t, exec (.slli rd rs1 shamt) s = .next t ∧ TrapFrom s t ∧ (trapCsrsOf t (s.exceptionTarget 2)).cause = 2#64 ∧
        (trapCsrsOf t (s.exceptionTarget 2)).epc = s.pc ∧ SameRegs s t ∧ SameMemory s t)

/-! ### Loads and stores -/

/-- R41, R126: `lw` at an address that does not trap, with no exception from the host's memory, writes the sign-extended
little-endian word at `x[rs1] + imm`. -/
def Obligations.LwResult : Prop :=
  ∀ (s : State) (rd rs1 : RegIdx) (imm : BitVec 12),
    s.dataMisaligned (s.regPlusImm rs1 imm) = false → s.answer.data = none →
    ∃ t, exec (.lw rd rs1 imm) s = .next t ∧
      (∀ b0 b1 b2 b3, s.mem.read (byteAddress s.cfg.xlen (s.regPlusImm rs1 imm) 0) = b0 →
        s.mem.read (byteAddress s.cfg.xlen (s.regPlusImm rs1 imm) 1) = b1 →
        s.mem.read (byteAddress s.cfg.xlen (s.regPlusImm rs1 imm) 2) = b2 →
        s.mem.read (byteAddress s.cfg.xlen (s.regPlusImm rs1 imm) 3) = b3 →
        t.readReg rd = writtenValue s rd ((b3 ++ b2 ++ b1 ++ b0 : BitVec 32).signExtend 64)) ∧
      t.pc = s.cfg.xlen.wrap (s.pc + 4#64) ∧ t.elp = s.elp ∧ SameRegsBut rd s t ∧ SameControl s t ∧ SameMemory s t

/-- R41, R127: `sw` at an address that does not trap, with no exception from the host's memory, stores the low 32 bits of
`x[rs2]` little-endian at `x[rs1] + imm`; every other byte of memory and every register is unchanged. R50, as log entry 24 models
it: the bytes it overwrites are recorded, by store access, before those of the earlier stores, so that a fetch sees the stored
bytes or the overwritten ones as after the store of `StaleFetch`. -/
def Obligations.SwResult : Prop :=
  ∀ (s : State) (rs2 rs1 : RegIdx) (imm : BitVec 12), s.mem.wf = true →
    s.dataMisaligned (s.regPlusImm rs1 imm) = false → s.answer.data = none →
    ∃ t, exec (.sw rs2 rs1 imm) s = .next t ∧
      t.mem.read (byteAddress s.cfg.xlen (s.regPlusImm rs1 imm) 0) = (s.readReg rs2).extractLsb' 0 8 ∧
      t.mem.read (byteAddress s.cfg.xlen (s.regPlusImm rs1 imm) 1) = (s.readReg rs2).extractLsb' 8 8 ∧
      t.mem.read (byteAddress s.cfg.xlen (s.regPlusImm rs1 imm) 2) = (s.readReg rs2).extractLsb' 16 8 ∧
      t.mem.read (byteAddress s.cfg.xlen (s.regPlusImm rs1 imm) 3) = (s.readReg rs2).extractLsb' 24 8 ∧
      (∀ a, (∀ k, k < 4 → a ≠ byteAddress s.cfg.xlen (s.regPlusImm rs1 imm) k) → t.mem.read a = s.mem.read a) ∧
      t.staleStores =
        storeAccesses (s.regPlusImm rs1 imm) (s.mem.cells4 s.cfg.xlen (s.regPlusImm rs1 imm)) ++ s.staleStores ∧
      (∀ hidden a, t.fetchByte hidden a =
        (s.store32 (s.regPlusImm rs1 imm) ((s.readReg rs2).extractLsb' 0 32)).fetchByte hidden a) ∧
      t.pc = s.cfg.xlen.wrap (s.pc + 4#64) ∧ t.elp = s.elp ∧ t.answers = s.answers ∧ t.draws = s.draws ∧
      SameRegs s t ∧ SameControl s t

/-- R44, R126, R127: with `MISALIGNED_DATA` = `trap`, a load or store at an address that is no multiple of 4 raises cause 4 or
6, whatever the host's memory would answer (that order, which R156 leaves open, is log entry 21's); at an address that does not
trap, an exception of the host's memory is raised with cause 5 or 13 on a load and 7 or 15 on a store. `xepc` is the
instruction, no register is written and no byte of memory changes. -/
def Obligations.DataAccessExceptions : Prop :=
  ∀ (s : State) (r rs1 : RegIdx) (imm : BitVec 12) (i : Instr) (c : BitVec 6),
    ((s.cfg.misalignedData = .trap ∧ (s.regPlusImm rs1 imm).extractLsb' 0 2 ≠ 0b00#2 ∧
        ((i = .lw r rs1 imm ∧ c = 4) ∨ (i = .sw r rs1 imm ∧ c = 6))) ∨
     (s.dataMisaligned (s.regPlusImm rs1 imm) = false ∧ s.answer.data = some .accessFault ∧
        ((i = .lw r rs1 imm ∧ c = 5) ∨ (i = .sw r rs1 imm ∧ c = 7))) ∨
     (s.dataMisaligned (s.regPlusImm rs1 imm) = false ∧ s.answer.data = some .pageFault ∧
        ((i = .lw r rs1 imm ∧ c = 13) ∨ (i = .sw r rs1 imm ∧ c = 15)))) →
    ∃ t, exec i s = .next t ∧ TrapFrom s t ∧ (trapCsrsOf t (s.exceptionTarget c)).cause = c.setWidth 64 ∧
      (trapCsrsOf t (s.exceptionTarget c)).epc = s.pc ∧ SameRegs s t ∧ (∀ a, t.mem.read a = s.mem.read a) ∧
      t.staleStores = s.staleStores

/-- R8, R41: a load reads back what a store to the same address stored, aligned or not, at the top of the address space too. -/
def Obligations.LoadAfterStore : Prop :=
  ∀ (s : State) (a : Word) (v : BitVec 32), s.mem.wf = true → (s.store32 a v).load32 a = v

/-! ### Direct control transfer -/

/-- R128 to R131: a branch (B-type, opcode 1100011, `funct3` 000, 001, 110, 111) is taken exactly on its condition (unsigned for
`bltu` and `bgeu`), goes to `pc + off` when taken and to `pc + 4` when not, and changes nothing else; a taken branch to a target
with bit 1 set on a hart without `HAS_C` raises instruction-address-misaligned (cause 0) on the branch. -/
def Obligations.BranchResults : Prop :=
  ∀ (s : State) (rs1 rs2 : RegIdx) (off : BitVec 13) (i : Instr) (funct3 : BitVec 3) (taken : Prop),
    ((i = .beq rs1 rs2 off ∧ funct3 = 0b000#3 ∧ (taken ↔ s.readReg rs1 = s.readReg rs2)) ∨
     (i = .bne rs1 rs2 off ∧ funct3 = 0b001#3 ∧ (taken ↔ s.readReg rs1 ≠ s.readReg rs2)) ∨
     (i = .bltu rs1 rs2 off ∧ funct3 = 0b110#3 ∧ (taken ↔ (s.readReg rs1).toNat < (s.readReg rs2).toNat)) ∨
     (i = .bgeu rs1 rs2 off ∧ funct3 = 0b111#3 ∧ (taken ↔ (s.readReg rs1).toNat ≥ (s.readReg rs2).toNat))) →
    encode i =
      .word (off.extractLsb' 12 1 ++ off.extractLsb' 5 6 ++ regBits rs2 ++ regBits rs1 ++ funct3 ++ off.extractLsb' 1 4 ++
        off.extractLsb' 11 1 ++ 0b1100011#7) ∧
    (taken → s.targetMisaligned (s.pcPlus off) = false →
      ∃ t, exec i s = .next t ∧ t.pc = s.cfg.xlen.wrap (s.pc + s.cfg.xlen.sext off) ∧
        t.elp = s.elp ∧ SameRegs s t ∧ SameControl s t ∧ SameMemory s t) ∧
    (taken → s.cfg.hasC = false → (s.pcPlus off).getLsbD 1 = true →
      ∃ t, exec i s = .next t ∧ TrapFrom s t ∧ (trapCsrsOf t (s.exceptionTarget 0)).cause = 0#64 ∧
        (trapCsrsOf t (s.exceptionTarget 0)).epc = s.pc ∧ SameRegs s t ∧ SameMemory s t) ∧
    (¬taken →
      ∃ t, exec i s = .next t ∧ t.pc = s.cfg.xlen.wrap (s.pc + 4#64) ∧
        t.elp = s.elp ∧ SameRegs s t ∧ SameControl s t ∧ SameMemory s t)

/-- R134: `jal` (J-type, opcode 1101111) links `pc + 4`, goes to `pc + off` and never sets `ELP`; to a target with bit 1 set on a
hart without `HAS_C` it raises instruction-address-misaligned (cause 0) with the target as trap value (D20, vector H26). -/
def Obligations.JalResult : Prop :=
  ∀ (s : State) (rd : RegIdx) (off : BitVec 21),
    encode (.jal rd off) =
      .word (off.extractLsb' 20 1 ++ off.extractLsb' 1 10 ++ off.extractLsb' 11 1 ++ off.extractLsb' 12 8 ++ regBits rd ++
        0b1101111#7) ∧
    (s.targetMisaligned (s.pcPlus off) = false →
      ∃ t, exec (.jal rd off) s = .next t ∧ t.pc = s.cfg.xlen.wrap (s.pc + s.cfg.xlen.sext off) ∧
        t.readReg rd = writtenValue s rd (s.pc + 4#64) ∧ t.elp = s.elp ∧
        SameRegsBut rd s t ∧ SameControl s t ∧ SameMemory s t) ∧
    (s.cfg.hasC = false → (s.pcPlus off).getLsbD 1 = true →
      exec (.jal rd off) s = .next (s.takeTrap (s.exceptionTarget 0) false 0 (s.pcPlus off)))

/-! ### Fences and fetch -/

/-- R132, R133: on this single-hart, sequentially consistent model (log entry 31) `fence` is a no-op, whatever its sets and its
ignored fields; after `fence.i` (the word 0x0000100F, or one that differs from it in the fields log entry 32 ignores) every fetch
sees every store that precedes it, whichever accesses the host's answer would hide (log entry 24), and `ELP`, registers and
memory are untouched. -/
def Obligations.FenceResults : Prop :=
  ∀ (s : State) (fm pred succ : BitVec 4) (imm : BitVec 12) (rs1 rd : RegIdx),
    encode (.fenceI 0#12 0 0) = .word 0x0000100F#32 ∧
    (∃ t, exec (.fence fm pred succ rs1 rd) s = .next t ∧ t.pc = s.cfg.xlen.wrap (s.pc + 4#64) ∧ t.elp = s.elp ∧
      SameRegs s t ∧ SameControl s t ∧ SameMemory s t) ∧
    (∃ t, exec (.fenceI imm rs1 rd) s = .next t ∧
      (∀ hidden a, t.fetchParcel hidden a = s.mem.read16 s.cfg.xlen a) ∧
      t.pc = s.cfg.xlen.wrap (s.pc + 4#64) ∧ t.elp = s.elp ∧ t.answers = s.answers ∧ t.draws = s.draws ∧
      (∀ a, t.mem.read a = s.mem.read a) ∧ SameRegs s t ∧ SameControl s t)

/-- R50, R44, R45, as log entry 24 models them: between a store and the next `fence.i` a fetch that hides nothing sees memory; a
fetch sees a 4-byte aligned store as a whole (each of its bytes new) or not at all (each byte of a parcel as a fetch before the
store sees it), and each of the four byte accesses of a misaligned store on its own, whatever it sees of the accesses before. A
byte the store does not write is what it was. -/
def Obligations.StaleFetch : Prop :=
  ∀ (s : State) (a : Word) (v : BitVec 32) (hidden : List Bool), s.mem.wf = true →
    (∀ b, (s.store32 a v).fetchParcel [] b = (s.store32 a v).mem.read16 s.cfg.xlen b) ∧
    (a.extractLsb' 0 2 = 0b00#2 →
      (∀ b, (s.store32 a v).fetchParcel (true :: hidden) b = s.fetchParcel hidden b) ∧
      (∀ k, k < 4 → (s.store32 a v).fetchByte (false :: hidden) (byteAddress s.cfg.xlen a k) = v.extractLsb' (8 * k) 8) ∧
      (∀ h x, (∀ k, k < 4 → x ≠ byteAddress s.cfg.xlen a k) →
        (s.store32 a v).fetchByte (h :: hidden) x = s.fetchByte hidden x)) ∧
    (a.extractLsb' 0 2 ≠ 0b00#2 → ∀ h0 h1 h2 h3 : Bool,
      (∀ k, k < 4 → (s.store32 a v).fetchByte (h0 :: h1 :: h2 :: h3 :: hidden) (byteAddress s.cfg.xlen a k) =
        (if [h0, h1, h2, h3].getD k false = true then s.fetchByte hidden (byteAddress s.cfg.xlen a k)
         else v.extractLsb' (8 * k) 8)) ∧
      (∀ x, (∀ k, k < 4 → x ≠ byteAddress s.cfg.xlen a k) →
        (s.store32 a v).fetchByte (h0 :: h1 :: h2 :: h3 :: hidden) x = s.fetchByte hidden x))

/-! ### Environment -/

/-- R135, R153, R154: `ecall` takes the environment-call exception of its mode, with `xepc` the address of the `ecall` and
`xtval` 0; `ELP` is saved and cleared; registers and memory are untouched. -/
def Obligations.EcallTraps : Prop :=
  ∀ (s : State) (c : BitVec 6),
    ((s.priv = .u ∧ c = 8) ∨ (s.priv = .s ∧ s.virt = false ∧ c = 9) ∨ (s.priv = .s ∧ s.virt = true ∧ c = 10) ∨
     (s.priv = .m ∧ c = 11)) →
    ∃ t, exec .ecall s = .next t ∧ t = s.takeTrap (s.exceptionTarget c) false c 0#64 ∧
      (trapCsrsOf t (s.exceptionTarget c)).cause = c.setWidth 64 ∧
      (trapCsrsOf t (s.exceptionTarget c)).epc = s.pc ∧ (trapCsrsOf t (s.exceptionTarget c)).tval = 0#64 ∧
      savedElp t (s.exceptionTarget c) = s.elp ∧ t.elp = .noLpExpected ∧ SameRegs s t ∧ SameMemory s t

/-- R136: `ebreak`, and the 16-bit word 0x9002, raise breakpoint (cause 3) with `xepc` the address of the instruction. The trap
value is not stated by the spec and not by this statement. -/
def Obligations.EbreakTraps : Prop :=
  decodeHalf 0x9002#16 = .ok .ebreak ∧ decodeWord 0x00100073#32 = .ok .ebreak ∧
  ∀ s : State,
    ∃ t, exec .ebreak s = .next t ∧
      (∃ tval, t = (s.takeTrap (s.exceptionTarget 3) false 3 tval).withDraws t.draws) ∧
      (trapCsrsOf t (s.exceptionTarget 3)).cause = 3#64 ∧
      (trapCsrsOf t (s.exceptionTarget 3)).epc = s.pc ∧ savedElp t (s.exceptionTarget 3) = s.elp ∧
      t.elp = .noLpExpected ∧ SameRegs s t ∧ ∀ a, t.mem.read a = s.mem.read a

/-- R137, D32: `wfi` is a no-op in M-mode, in every mode on an implementation whose time bound it never exceeds, and wherever R137
gives no exception (below M with `TW` = 0, but for U-mode when `HAS_S`); with a bound of zero it raises illegal-instruction in
U-mode when `HAS_S` and below M with `TW` = 1 (log entry 25). That R137's "U-mode" is U with any `V`, so VU too, is the model's
choice (log entry 39). -/
def Obligations.WfiResult : Prop :=
  ∀ s : State,
    ((s.cfg.wfiBound = .completes ∨ s.priv = .m ∨ (s.mstatus.tw = false ∧ ¬(s.cfg.hasS = true ∧ s.priv = .u))) →
      ∃ t, exec .wfi s = .next t ∧ t.pc = s.cfg.xlen.wrap (s.pc + 4#64) ∧ t.elp = s.elp ∧
        SameRegs s t ∧ SameControl s t ∧ SameMemory s t) ∧
    (s.cfg.wfiBound = .noWait → ((s.cfg.hasS = true ∧ s.priv = .u) ∨ (s.mstatus.tw = true ∧ s.priv ≠ .m)) →
      ∃ t, exec .wfi s = .next t ∧ TrapFrom s t ∧ (trapCsrsOf t (s.exceptionTarget 2)).cause = 2#64 ∧
        (trapCsrsOf t (s.exceptionTarget 2)).epc = s.pc ∧ SameRegs s t ∧ SameMemory s t)

/-! ### Trap delivery and return -/

/-- R153: a trap taken into M, S/HS or VS saves `ELP` in that mode's `xPELP` and sets `ELP` to `NO_LP_EXPECTED`, whatever its
cause, from any mode, whether or not CFI is active, and touches no other mode's `xPELP`. -/
def Obligations.TrapSavesElp : Prop :=
  ∀ (s : State) (x : TrapTarget) (interrupt : Bool) (c : BitVec 6) (tv : Word),
    savedElp (s.takeTrap x interrupt c tv) x = s.elp ∧
    (s.takeTrap x interrupt c tv).elp = .noLpExpected ∧
    ∀ y, y ≠ x → savedElp (s.takeTrap x interrupt c tv) y = savedElp s y

/-- R154: what trap delivery writes besides `ELP`: `xepc`, `xcause`, `xtval`, the stack of interrupt enables and of modes, the new
mode, and the handler's address (its base and, for an interrupt in vectored mode, four times the cause; the layout of `xtvec` is
log entry 11's). Everything else is unchanged: the other fields of the status registers, the trap registers of the other modes,
the enables, the delegation registers, the general registers and memory. -/
def Obligations.TrapEntry : Prop :=
  ∀ (s : State) (interrupt : Bool) (c : BitVec 6) (tv : Word),
    (∀ x, (trapCsrsOf (s.takeTrap x interrupt c tv) x).epc = s.pc ∧
      (trapCsrsOf (s.takeTrap x interrupt c tv) x).tval = s.cfg.xlen.wrap tv ∧
      ((trapCsrsOf (s.takeTrap x interrupt c tv) x).cause).toNat =
        (if interrupt = true then 2 ^ (s.cfg.xlen.bits - 1) else 0) + c.toNat ∧
      (trapCsrsOf (s.takeTrap x interrupt c tv) x).tvec = (trapCsrsOf s x).tvec ∧
      (s.takeTrap x interrupt c tv).pc =
        s.cfg.xlen.wrap
          (((trapCsrsOf s x).tvec &&& ~~~(3#64)) +
            (if interrupt = true ∧ (trapCsrsOf s x).tvec.extractLsb' 0 2 = 1#2 then 4#64 * c.setWidth 64 else 0#64)) ∧
      (∀ y, y ≠ x → trapCsrsOf (s.takeTrap x interrupt c tv) y = trapCsrsOf s y) ∧
      SameEnables s (s.takeTrap x interrupt c tv) ∧ SameRegs s (s.takeTrap x interrupt c tv) ∧
      SameMemory s (s.takeTrap x interrupt c tv)) ∧
    (∀ t, t = s.takeTrap .m interrupt c tv →
      t.mstatus = { s.mstatus with
        mpp := s.priv, mpv := s.virt, mpie := s.mstatus.mie, mie := false, mpelp := s.elp } ∧
      t.hstatus = s.hstatus ∧ t.vsstatus = s.vsstatus ∧ t.priv = .m ∧ t.virt = false) ∧
    (∀ t, t = s.takeTrap .hs interrupt c tv →
      t.mstatus = { s.mstatus with
        spp := decide (s.priv = .s), spie := s.mstatus.sie, sie := false, spelp := s.elp } ∧
      t.hstatus = { s.hstatus with spv := s.virt } ∧ t.vsstatus = s.vsstatus ∧ t.priv = .s ∧ t.virt = false) ∧
    (∀ t, t = s.takeTrap .vs interrupt c tv →
      t.vsstatus = { s.vsstatus with
        spp := decide (s.priv = .s), spie := s.vsstatus.sie, sie := false, spelp := s.elp } ∧
      t.mstatus = s.mstatus ∧ t.hstatus = s.hstatus ∧ t.priv = .s ∧ t.virt = s.virt)

/-- R159: the mode an exception with cause `c` is taken into, for every `c`. Where the host decides by its delegation registers
(as R159 says of cause 2; of every other cause it is log entry 16's), M, unless it is raised below M and `medeleg` delegates it,
and then HS, or VS from `V` = 1 when `hedeleg` delegates it too. Where the parameter `HostTrapTarget` is a table (D24), what its
first row for the cause, `priv` and `V` says, if the trap can be taken there, and M if not or if there is no row (log entry 16).
Never into a mode that does not exist or is less privileged than the one that trapped. -/
def Obligations.TrapTargets : Prop :=
  ∀ (s : State) (c : BitVec 6),
    (s.cfg.trapTarget = .delegation →
      s.exceptionTarget c =
        (if s.priv ≠ .m ∧ s.cfg.hasS = true ∧ s.medeleg.getLsbD c.toNat = true then
          (if s.cfg.hasH = true ∧ s.virt = true ∧ s.hedeleg.getLsbD c.toNat = true then .vs else .hs)
         else .m)) ∧
    (∀ before after x,
      s.cfg.trapTarget = .table (before ++ { cause := c, priv := s.priv, virt := s.virt, target := x } :: after) →
      (∀ q ∈ before, ¬(q.cause = c ∧ q.priv = s.priv ∧ q.virt = s.virt)) →
      s.exceptionTarget c =
        (match x with
         | .m => .m
         | .hs => if s.cfg.hasS = true ∧ s.priv ≠ .m then .hs else .m
         | .vs => if s.cfg.hasH = true ∧ s.virt = true ∧ s.priv ≠ .m then .vs else .m)) ∧
    (∀ rows, s.cfg.trapTarget = .table rows →
      (∀ q ∈ rows, ¬(q.cause = c ∧ q.priv = s.priv ∧ q.virt = s.virt)) → s.exceptionTarget c = .m) ∧
    (s.priv = .m → s.exceptionTarget c = .m) ∧
    (s.exceptionTarget c = .hs → s.cfg.hasS = true) ∧
    (s.exceptionTarget c = .vs → s.cfg.hasH = true ∧ s.virt = true)

/-- R110: `mret` in M-mode sets `ELP` to `MPELP` and clears `MPELP`, restores mode and interrupt enable, and goes to `mepc`,
whether or not CFI is active (R113). -/
def Obligations.MretResult : Prop :=
  ∀ s : State, s.priv = .m →
    ∃ t, exec .mret s = .next t ∧ t.elp = s.mstatus.mpelp ∧ t.priv = s.mstatus.mpp ∧
      (t.virt = true ↔ s.cfg.hasH = true ∧ s.mstatus.mpp ≠ .m ∧ s.mstatus.mpv = true) ∧
      t.mstatus = { s.mstatus with
        mpelp := .noLpExpected, mie := s.mstatus.mpie, mpie := true, mpp := (if s.cfg.hasU = true then .u else .m),
        mpv := false } ∧
      t.pc = (if s.cfg.hasC = true then s.mtrap.epc &&& ~~~(1#64) else s.mtrap.epc &&& ~~~(3#64)) ∧
      t.vsstatus = s.vsstatus ∧ t.hstatus = s.hstatus ∧ (∀ x, trapCsrsOf t x = trapCsrsOf s x) ∧
      SameEnables s t ∧ SameRegs s t ∧ SameMemory s t

/-- R111, R112: `sret` with `V` = 0 in S-mode with `TSR` = 0, or in M-mode, returns through `mstatus`, `hstatus` and `sepc`; with
`V` = 1 in VS-mode with `VTSR` = 0 it returns through `vsstatus` and `vsepc`, `V` stays 1 and `mstatus.SPELP` is untouched. That
the low bits of `sepc` and `vsepc` read as those of `mepc` do is log entry 15's, and that a hart without U-mode returns to S (R19,
D3: an absent mode never occurs) is log entry 35's. -/
def Obligations.SretResult : Prop :=
  ∀ s : State, s.cfg.hasS = true →
    (s.virt = false → (s.priv = .m ∨ (s.priv = .s ∧ s.mstatus.tsr = false)) →
      ∃ t, exec .sret s = .next t ∧ t.elp = s.mstatus.spelp ∧
        t.priv = (if s.mstatus.spp = true ∨ s.cfg.hasU = false then .s else .u) ∧
        (t.virt = true ↔ s.cfg.hasH = true ∧ s.hstatus.spv = true) ∧
        t.mstatus = { s.mstatus with
          spelp := .noLpExpected, sie := s.mstatus.spie, spie := true, spp := false } ∧
        t.hstatus = { s.hstatus with spv := false } ∧ t.vsstatus = s.vsstatus ∧
        t.pc = (if s.cfg.hasC = true then s.strap.epc &&& ~~~(1#64) else s.strap.epc &&& ~~~(3#64)) ∧
        (∀ x, trapCsrsOf t x = trapCsrsOf s x) ∧ SameEnables s t ∧ SameRegs s t ∧ SameMemory s t) ∧
    (s.virt = true → s.priv ≠ .u → s.hstatus.vtsr = false →
      ∃ t, exec .sret s = .next t ∧ t.elp = s.vsstatus.spelp ∧
        t.priv = (if s.vsstatus.spp = true ∨ s.cfg.hasU = false then .s else .u) ∧ t.virt = true ∧
        t.vsstatus = { s.vsstatus with
          spelp := .noLpExpected, sie := s.vsstatus.spie, spie := true, spp := false } ∧
        t.mstatus = s.mstatus ∧ t.hstatus = s.hstatus ∧
        t.pc = (if s.cfg.hasC = true then s.vstrap.epc &&& ~~~(1#64) else s.vstrap.epc &&& ~~~(3#64)) ∧
        (∀ x, trapCsrsOf t x = trapCsrsOf s x) ∧ SameEnables s t ∧ SameRegs s t ∧ SameMemory s t)

/-- R110 to R112, R114 (d): where an `xRET` may not execute (an `sret` in every mode of a hart without `HAS_S`) it raises
illegal-instruction on itself, and with `V` = 1 an `sret` virtual-instruction (cause 22); the trap saves the `ELP` that stood, not
the one an `xRET` would have restored, and no register and no byte of memory changes. -/
def Obligations.TrapReturnFaults : Prop :=
  ∀ (s : State) (i : Instr) (c : BitVec 6),
    ((i = .mret ∧ c = 2 ∧ s.priv ≠ .m) ∨
     (i = .sret ∧ c = 2 ∧ s.cfg.hasS = false) ∨
     (i = .sret ∧ c = 2 ∧ s.virt = false ∧ (s.priv = .u ∨ (s.priv = .s ∧ s.mstatus.tsr = true))) ∨
     (i = .sret ∧ c = 22 ∧ s.cfg.hasS = true ∧ s.virt = true ∧ (s.priv = .u ∨ s.hstatus.vtsr = true))) →
    ∃ t, exec i s = .next t ∧ TrapFrom s t ∧ (trapCsrsOf t (s.exceptionTarget c)).cause = c.setWidth 64 ∧
      (trapCsrsOf t (s.exceptionTarget c)).epc = s.pc ∧ savedElp t (s.exceptionTarget c) = s.elp ∧ t.elp = .noLpExpected ∧
      SameRegs s t ∧ ∀ a, t.mem.read a = s.mem.read a

/-! ### CSR instructions -/

/-- R138 to R143: a CSR instruction (I-type, opcode 1110011, `funct3` 001, 010, 011, 101, 110, 111, the CSR number in
`inst[31:20]`, `rs1` or the immediate in `inst[19:15]`) that may access its register reads the old value into `rd` and writes,
in order, the operand, the old value with the operand's bits set, or with them cleared; the set and clear forms write nothing
when their operand field is 0. Everything that is not `rd`, `pc` or the CSR write is unchanged. -/
def Obligations.CsrInstructionResults : Prop :=
  ∀ (s : State) (rd rs1 : RegIdx) (uimm : BitVec 5) (n : BitVec 12) (r : Csr) (i : Instr) (write : Bool) (v : Word)
    (funct3 : BitVec 3) (field : BitVec 5),
    ((i = .csrrw rd rs1 n ∧ funct3 = 0b001#3 ∧ field = regBits rs1 ∧ write = true ∧ v = s.readReg rs1) ∨
     (i = .csrrs rd rs1 n ∧ funct3 = 0b010#3 ∧ field = regBits rs1 ∧ write = (rs1 != 0) ∧ v = s.readCsr r ||| s.readReg rs1) ∨
     (i = .csrrc rd rs1 n ∧ funct3 = 0b011#3 ∧ field = regBits rs1 ∧ write = (rs1 != 0) ∧ v = s.readCsr r &&& ~~~(s.readReg rs1)) ∨
     (i = .csrrwi rd uimm n ∧ funct3 = 0b101#3 ∧ field = uimm ∧ write = true ∧ v = uimm.setWidth 64) ∨
     (i = .csrrsi rd uimm n ∧ funct3 = 0b110#3 ∧ field = uimm ∧ write = (uimm != 0) ∧ v = s.readCsr r ||| uimm.setWidth 64) ∨
     (i = .csrrci rd uimm n ∧ funct3 = 0b111#3 ∧ field = uimm ∧ write = (uimm != 0) ∧ v = s.readCsr r &&& ~~~(uimm.setWidth 64))) →
    s.csrAccess n write = .reaches r →
    encode i = .word (n ++ field ++ funct3 ++ regBits rd ++ 0b1110011#7) ∧
    ∃ t, exec i s = .next t ∧ t.readReg rd = writtenValue s rd (s.readCsr r) ∧ SameRegsBut rd s t ∧
      t.pc = s.cfg.xlen.wrap (s.pc + 4#64) ∧ t.elp = s.elp ∧
      (∀ a, t.mem.read a = s.mem.read a) ∧ t.staleStores = s.staleStores ∧ t.answers = s.answers ∧
      (write = false → SameControl s t ∧ t.draws = s.draws) ∧
      (write = true → SameControl (s.writeCsr r v) t ∧ t.draws = (s.writeCsr r v).draws)

/-- R144 (a), R31: each of the six CSR instructions raises illegal-instruction on a CSR that does not exist (a number with no
register, or one whose register this hart does not have), from too low a privilege (an M-level number below M, from VS and VU
too; an S-level number from U, and from VU by log entry 26; an HS-level number from U with `V` = 0), and on a write to a number
marked read-only (no such number exists in this model, so this says no more than the first clause); with `V` = 1 an access to an
HS-level CSR that exists raises virtual-instruction (cause 22; that existence comes first is log entry 34's). That `mseccfg`
does not exist without the extension is log entry 27's; the numbers of the registers R31 does not list, and where those exist, are
log entry 10's. -/
def Obligations.CsrAccessFaults : Prop :=
  ∀ (s : State) (rd rs1 : RegIdx) (uimm : BitVec 5) (n : BitVec 12) (i : Instr) (write : Bool),
    ((i = .csrrw rd rs1 n ∧ write = true) ∨ (i = .csrrs rd rs1 n ∧ write = (rs1 != 0)) ∨
     (i = .csrrc rd rs1 n ∧ write = (rs1 != 0)) ∨ (i = .csrrwi rd uimm n ∧ write = true) ∨
     (i = .csrrsi rd uimm n ∧ write = (uimm != 0)) ∨ (i = .csrrci rd uimm n ∧ write = (uimm != 0))) →
    (csrOfNumber n = none ∨ (∃ r, csrOfNumber n = some r ∧ csrExists s.cfg r = false) ∨
      (s.cfg.xlen = .x64 ∧ (n = 0x310#12 ∨ n = 0x31A#12 ∨ n = 0x757#12 ∨ n = 0x61A#12)) ∨
      (s.cfg.hasS = false ∧ s.cfg.hasU = false ∧ n = 0x30A#12) ∨ (s.cfg.hasS = false ∧ n = 0x100#12) ∨
      (s.cfg.hasH = false ∧ (n = 0x60A#12 ∨ n = 0x61A#12 ∨ n = 0x200#12)) ∨
      (s.cfg.hasZicfisslp = false ∧ (n = 0x747#12 ∨ n = 0x757#12)) ∨
      (write = true ∧ n.extractLsb' 10 2 = 0b11#2) ∨
      (n.extractLsb' 8 2 = 0b11#2 ∧ s.priv ≠ .m) ∨ (n.extractLsb' 8 2 = 0b01#2 ∧ s.priv = .u) ∨
      (n.extractLsb' 8 2 = 0b10#2 ∧ s.virt = false ∧ s.priv = .u) →
      ∃ t, exec i s = .next t ∧ TrapFrom s t ∧ (trapCsrsOf t (s.exceptionTarget 2)).cause = 2#64 ∧
        (trapCsrsOf t (s.exceptionTarget 2)).epc = s.pc ∧ SameRegs s t ∧ SameMemory s t) ∧
    (s.virt = true → n.extractLsb' 8 2 = 0b10#2 → (∃ r, csrOfNumber n = some r ∧ csrExists s.cfg r = true) →
      ∃ t, exec i s = .next t ∧ TrapFrom s t ∧ (trapCsrsOf t (s.exceptionTarget 22)).cause = 22#64 ∧
        (trapCsrsOf t (s.exceptionTarget 22)).epc = s.pc ∧ SameRegs s t ∧ ∀ a, t.mem.read a = s.mem.read a) ∧
    (s.cfg.hasH = true →
      csrOfNumber 0x60A#12 = some .henvcfg ∧ csrOfNumber 0x200#12 = some .vsstatus ∧
      csrExists s.cfg .henvcfg = true ∧ csrExists s.cfg .vsstatus = true)

/-- R31: the control registers of the extension are reached under their numbers, from the lowest privilege that may access them,
when they exist (`mseccfg` with the extension, log entry 27); R144 (b): with `V` = 1 the number of `sstatus` reaches `vsstatus`.
-/
def Obligations.CsrNumbers : Prop :=
  ∀ (s : State) (w : Bool),
    (s.priv = .m → s.csrAccess 0x300#12 w = .reaches .mstatus ∧
      (s.cfg.xlen = .x32 → s.csrAccess 0x310#12 w = .reaches .mstatush ∧ s.csrAccess 0x31A#12 w = .reaches .menvcfgh) ∧
      (s.cfg.hasS = true ∨ s.cfg.hasU = true → s.csrAccess 0x30A#12 w = .reaches .menvcfg) ∧
      (s.cfg.hasZicfisslp = true → s.csrAccess 0x747#12 w = .reaches .mseccfg ∧
        (s.cfg.xlen = .x32 → s.csrAccess 0x757#12 w = .reaches .mseccfgh))) ∧
    (s.cfg.hasS = true → s.priv ≠ .u →
      s.csrAccess 0x100#12 w = .reaches (if s.virt = true then .vsstatus else .sstatus)) ∧
    (s.cfg.hasH = true → s.priv ≠ .u → s.virt = false →
      s.csrAccess 0x60A#12 w = .reaches .henvcfg ∧ s.csrAccess 0x200#12 w = .reaches .vsstatus ∧
      (s.cfg.xlen = .x32 → s.csrAccess 0x61A#12 w = .reaches .henvcfgh))

/-- R32, R33: `sstatus` is a view of `mstatus`: its `SPELP` is `mstatus.SPELP`, and its `UFCFIE` is `mstatus.UFCFIE` when
`SSTATUS_HAS_UFCFIE`, read and written (`UFCFIE` is read-only zero when not `HAS_U`); without `SSTATUS_HAS_UFCFIE` the bit reads 0
and a write leaves `mstatus.UFCFIE` alone. It never shows `MPELP`, and a write leaves `MPELP` alone. Both fields stand at the same
position in `mstatus`, `sstatus` and `vsstatus`. For the parameters log entry 3 admits. -/
def Obligations.SstatusView : Prop :=
  ∀ (s : State) (v : Word), s.cfg.wf = true → s.cfg.hasZicfisslp = true → s.cfg.hasS = true →
    s.cfg.pos.vsstatusSpelp = s.cfg.pos.mstatusSpelp ∧ s.cfg.pos.vsstatusUfcfie = s.cfg.pos.mstatusUfcfie ∧
    (s.readCsr .sstatus).getLsbD s.cfg.pos.mstatusSpelp = s.mstatus.spelp.toBool ∧
    (s.writeCsr .sstatus v).mstatus.spelp = .ofBool (v.getLsbD s.cfg.pos.mstatusSpelp) ∧
    (s.cfg.sstatusHasUfcfie = true →
      (s.readCsr .sstatus).getLsbD s.cfg.pos.mstatusUfcfie = s.mstatus.ufcfie ∧
      (s.writeCsr .sstatus v).mstatus.ufcfie = (s.cfg.hasU && v.getLsbD s.cfg.pos.mstatusUfcfie)) ∧
    (s.cfg.sstatusHasUfcfie = false →
      (s.readCsr .sstatus).getLsbD s.cfg.pos.mstatusUfcfie = false ∧
      (s.writeCsr .sstatus v).mstatus.ufcfie = s.mstatus.ufcfie) ∧
    (s.readCsr .sstatus).getLsbD s.cfg.pos.mstatusMpelp = false ∧
    (s.writeCsr .sstatus v).mstatus.mpelp = s.mstatus.mpelp

/-- R31, R33: each of the ten fields of the extension that exists on this hart (`MFCFIE` and `MPELP` always, `menvcfg.CFIE` with
S or U, `SFCFIE` and `SPELP` with S, `UFCFIE` with U, the fields of `henvcfg` and `vsstatus` with the hypervisor extension, of
them `vsstatus.UFCFIE` with U too) is a plain read/write bit of its CSR: a read returns the stored bit and a write stores the
written bit; one that does not exist stays 0 under every write of its register, by its view `sstatus` and by `menvcfgh` too (which
exists without S and U by log entry 27). With `XLEN` = 32 a field at a position of 32 or more is in the `h` register; a write of
the `h` register leaves the fields at positions below 32 as they were, and a write of the low CSR those at positions of 32 or more,
where the fields that do not exist are 0 before (`FieldsOk`). For the parameters log entry 3 admits. -/
def Obligations.ExtensionFieldsReadWrite : Prop :=
  ∀ (s : State) (v : Word), s.cfg.wf = true → s.cfg.hasZicfisslp = true →
    PlainField s .mseccfg .mseccfgh s.cfg.pos.mseccfgMfcfie (fun t => t.mfcfie) v ∧
    PlainField s .mstatus .mstatush s.cfg.pos.mstatusMpelp (fun t => t.mstatus.mpelp.toBool) v ∧
    (s.cfg.hasS = true ∨ s.cfg.hasU = true →
      PlainField s .menvcfg .menvcfgh s.cfg.pos.menvcfgCfie (fun t => t.menvcfg.cfie) v) ∧
    (s.cfg.hasS = true →
      PlainField s .menvcfg .menvcfgh s.cfg.pos.menvcfgSfcfie (fun t => t.menvcfg.sfcfie) v ∧
      PlainField s .mstatus .mstatush s.cfg.pos.mstatusSpelp (fun t => t.mstatus.spelp.toBool) v) ∧
    (s.cfg.hasU = true →
      PlainField s .mstatus .mstatush s.cfg.pos.mstatusUfcfie (fun t => t.mstatus.ufcfie) v) ∧
    (s.cfg.hasH = true →
      PlainField s .henvcfg .henvcfgh s.cfg.pos.henvcfgCfie (fun t => t.henvcfg.cfie) v ∧
      PlainField s .henvcfg .henvcfgh s.cfg.pos.henvcfgSfcfie (fun t => t.henvcfg.sfcfie) v ∧
      PlainBit s .vsstatus s.cfg.pos.vsstatusSpelp (fun t => t.vsstatus.spelp.toBool) v ∧
      (s.cfg.hasU = true → PlainBit s .vsstatus s.cfg.pos.vsstatusUfcfie (fun t => t.vsstatus.ufcfie) v)) ∧
    (s.cfg.hasS = false → ∀ r,
      (r = .mstatus ∨ r = .mstatush ∨ r = .sstatus → (s.writeCsr r v).mstatus.spelp = .noLpExpected) ∧
      (r = .menvcfg ∨ r = .menvcfgh → (s.writeCsr r v).menvcfg.sfcfie = false)) ∧
    (s.cfg.hasS = false → s.cfg.hasU = false → ∀ r,
      r = .menvcfg ∨ r = .menvcfgh → (s.writeCsr r v).menvcfg.cfie = false) ∧
    (s.cfg.hasU = false → ∀ r,
      (r = .mstatus ∨ r = .mstatush → (s.writeCsr r v).mstatus.ufcfie = false) ∧
      (r = .sstatus → s.mstatus.ufcfie = false → (s.writeCsr r v).mstatus.ufcfie = false) ∧
      (r = .vsstatus → (s.writeCsr r v).vsstatus.ufcfie = false)) ∧
    (s.cfg.hasH = false → ∀ r,
      (r = .henvcfg ∨ r = .henvcfgh → (s.writeCsr r v).henvcfg = { cfie := false, sfcfie := false }) ∧
      (r = .vsstatus → (s.writeCsr r v).vsstatus.ufcfie = false ∧ (s.writeCsr r v).vsstatus.spelp = .noLpExpected)) ∧
    (s.FieldsOk →
      KeptByOtherHalf s .mseccfg .mseccfgh s.cfg.pos.mseccfgMfcfie (fun t => t.mfcfie) v ∧
      KeptByOtherHalf s .mstatus .mstatush s.cfg.pos.mstatusMpelp (fun t => t.mstatus.mpelp.toBool) v ∧
      KeptByOtherHalf s .mstatus .mstatush s.cfg.pos.mstatusSpelp (fun t => t.mstatus.spelp.toBool) v ∧
      KeptByOtherHalf s .mstatus .mstatush s.cfg.pos.mstatusUfcfie (fun t => t.mstatus.ufcfie) v ∧
      KeptByOtherHalf s .menvcfg .menvcfgh s.cfg.pos.menvcfgCfie (fun t => t.menvcfg.cfie) v ∧
      KeptByOtherHalf s .menvcfg .menvcfgh s.cfg.pos.menvcfgSfcfie (fun t => t.menvcfg.sfcfie) v ∧
      KeptByOtherHalf s .henvcfg .henvcfgh s.cfg.pos.henvcfgCfie (fun t => t.henvcfg.cfie) v ∧
      KeptByOtherHalf s .henvcfg .henvcfgh s.cfg.pos.henvcfgSfcfie (fun t => t.henvcfg.sfcfie) v)

/-- R34, R32: the host's fields stand at their standard positions and are read and written there: `MIE` bit 3, `MPIE` bit 7, `MPP`
bits 12:11 (its encoding of the modes is log entry 11's), `SIE` bit 1, `SPIE` bit 5, `SPP` bit 8, `MPV` bit 39 of `mstatus` (bit 7
of `mstatush` with `XLEN` = 32); `SIE`, `SPIE`, `SPP` of `sstatus` (that these are the host's fields it shows is log entry 38's)
and of `vsstatus` at the same bits; `SPV` bit 7 of `hstatus`; and, at the positions of log entry 11, `TW` bit 21 and `TSR` bit 22
of `mstatus`, `VTSR` bit 22 of `hstatus`. A write stores each field whose mode exists, and 0 in one whose mode does not (log entry
29); `MPP` takes M, S or U as the word names it, if that mode exists (a write of another value is log entry 13's). With `XLEN` = 32
a write of `mstatush` leaves the fields below position 32 as they were, `MPP` where it names a mode that exists, and a write of
`mstatus` leaves `MPV`. A write of `sstatus` leaves the M-level fields alone. -/
def Obligations.HostFieldsReadWrite : Prop :=
  ∀ (s : State) (v : Word), s.cfg.wf = true →
    ((s.readCsr .mstatus).getLsbD 1 = s.mstatus.sie ∧ (s.readCsr .mstatus).getLsbD 3 = s.mstatus.mie ∧
      (s.readCsr .mstatus).getLsbD 5 = s.mstatus.spie ∧ (s.readCsr .mstatus).getLsbD 7 = s.mstatus.mpie ∧
      (s.readCsr .mstatus).getLsbD 8 = s.mstatus.spp ∧
      (s.readCsr .mstatus).extractLsb' 11 2 = (match s.mstatus.mpp with | .u => 0b00#2 | .s => 0b01#2 | .m => 0b11#2) ∧
      (s.readCsr .mstatus).getLsbD 21 = s.mstatus.tw ∧ (s.readCsr .mstatus).getLsbD 22 = s.mstatus.tsr ∧
      (s.cfg.xlen = .x64 → (s.readCsr .mstatus).getLsbD 39 = s.mstatus.mpv) ∧
      (s.cfg.xlen = .x32 → (s.readCsr .mstatush).getLsbD 7 = s.mstatus.mpv) ∧
      (s.readCsr .sstatus).getLsbD 1 = s.mstatus.sie ∧ (s.readCsr .sstatus).getLsbD 5 = s.mstatus.spie ∧
      (s.readCsr .sstatus).getLsbD 8 = s.mstatus.spp ∧
      (s.readCsr .vsstatus).getLsbD 1 = s.vsstatus.sie ∧ (s.readCsr .vsstatus).getLsbD 5 = s.vsstatus.spie ∧
      (s.readCsr .vsstatus).getLsbD 8 = s.vsstatus.spp ∧
      (s.readCsr .hstatus).getLsbD 7 = s.hstatus.spv ∧ (s.readCsr .hstatus).getLsbD 22 = s.hstatus.vtsr) ∧
    (∀ t, t = s.writeCsr .mstatus v →
      t.mstatus.mie = v.getLsbD 3 ∧ t.mstatus.mpie = v.getLsbD 7 ∧
      (s.cfg.hasS = true → t.mstatus.sie = v.getLsbD 1 ∧ t.mstatus.spie = v.getLsbD 5 ∧ t.mstatus.spp = v.getLsbD 8 ∧
        t.mstatus.tsr = v.getLsbD 22) ∧
      (s.cfg.hasS = true ∨ s.cfg.hasU = true → t.mstatus.tw = v.getLsbD 21) ∧
      (s.cfg.hasH = true → t.mstatus.mpv = (if s.cfg.xlen = .x64 then v.getLsbD 39 else s.mstatus.mpv)) ∧
      (v.extractLsb' 11 2 = 0b11#2 → t.mstatus.mpp = .m ∧ t.draws = s.draws) ∧
      (v.extractLsb' 11 2 = 0b01#2 → s.cfg.hasS = true → t.mstatus.mpp = .s ∧ t.draws = s.draws) ∧
      (v.extractLsb' 11 2 = 0b00#2 → s.cfg.hasU = true → t.mstatus.mpp = .u ∧ t.draws = s.draws)) ∧
    (s.cfg.hasH = true → (s.writeCsr .mstatush v).mstatus.mpv = v.getLsbD 7) ∧
    (s.cfg.xlen = .x32 → ∀ t, t = s.writeCsr .mstatush v →
      t.mstatus.mie = s.mstatus.mie ∧ t.mstatus.mpie = s.mstatus.mpie ∧
      (s.cfg.hasS = true → t.mstatus.sie = s.mstatus.sie ∧ t.mstatus.spie = s.mstatus.spie ∧ t.mstatus.spp = s.mstatus.spp ∧
        t.mstatus.tsr = s.mstatus.tsr) ∧
      (s.cfg.hasS = true ∨ s.cfg.hasU = true → t.mstatus.tw = s.mstatus.tw) ∧
      (s.ModeOk → t.mstatus.mpp = s.mstatus.mpp ∧ t.draws = s.draws)) ∧
    (∀ r t, r = .mstatus ∨ r = .mstatush → t = s.writeCsr r v →
      (s.cfg.hasS = false →
        t.mstatus.sie = false ∧ t.mstatus.spie = false ∧ t.mstatus.spp = false ∧ t.mstatus.tsr = false) ∧
      (s.cfg.hasS = false → s.cfg.hasU = false → t.mstatus.tw = false) ∧ (s.cfg.hasH = false → t.mstatus.mpv = false)) ∧
    (∀ t, t = s.writeCsr .sstatus v →
      t.mstatus.sie = v.getLsbD 1 ∧ t.mstatus.spie = v.getLsbD 5 ∧ t.mstatus.spp = v.getLsbD 8 ∧
      t.mstatus.mie = s.mstatus.mie ∧ t.mstatus.mpie = s.mstatus.mpie ∧ t.mstatus.mpp = s.mstatus.mpp ∧
      t.mstatus.mpv = s.mstatus.mpv ∧ t.mstatus.tw = s.mstatus.tw ∧ t.mstatus.tsr = s.mstatus.tsr) ∧
    (∀ t, t = s.writeCsr .vsstatus v →
      t.vsstatus.sie = v.getLsbD 1 ∧ t.vsstatus.spie = v.getLsbD 5 ∧ t.vsstatus.spp = v.getLsbD 8) ∧
    (s.writeCsr .hstatus v).hstatus.spv = v.getLsbD 7 ∧ (s.writeCsr .hstatus v).hstatus.vtsr = v.getLsbD 22

/-- R144 (c), R31, R32: a write to a trap or delegation register, to `mie` or to `mip` is read back, whole for `xcause`, `xtval`,
`mideleg`, `hideleg` and `mie` (log entry 37), without the bits that read as 0 for `xepc` (log entry 15), `xtvec` (entry 14),
`medeleg` and `hedeleg` (entry 16), and in the bits that software writes for `mip`, whose others stay (entry 19); and a write to
any CSR leaves what every other register reads alone. -/
def Obligations.HostRegistersReadWrite : Prop :=
  ∀ (s : State) (r q : Csr) (v : Word), s.cfg.xlen.wrap v = v →
    (r ∈ [Csr.mcause, .mtval, .scause, .stval, .vscause, .vstval, .mideleg, .hideleg, .mie] →
      (s.writeCsr r v).readCsr r = v) ∧
    (r ∈ [Csr.mepc, .sepc, .vsepc] →
      (s.writeCsr r v).readCsr r = (if s.cfg.hasC = true then v &&& ~~~(1#64) else v &&& ~~~(3#64))) ∧
    (r ∈ [Csr.mtvec, .stvec, .vstvec] → (s.writeCsr r v).readCsr r = v &&& ~~~(2#64)) ∧
    (s.writeCsr .medeleg v).readCsr .medeleg = v &&& ~~~(0x800#64) ∧
    (s.writeCsr .hedeleg v).readCsr .hedeleg = v &&& ~~~(0xF00E00#64) ∧
    (∀ p, ((s.writeCsr .mip v).readCsr .mip).getLsbD p =
      (if (s.cfg.hasS = true ∧ (p = 1 ∨ p = 5 ∨ p = 9)) ∨ (s.cfg.hasH = true ∧ p = 2) then v.getLsbD p
       else (s.readCsr .mip).getLsbD p)) ∧
    (csrHome q ≠ csrHome r → (s.writeCsr r v).readCsr q = s.readCsr q)

/-! ### One step -/

/-- R155: when the interrupt, the fetch and the landing pad requirement let it, a step is `exec` of the instruction the fetched
bits decode to; the only addition is that the step uses up one answer of the host, which also says which bits of `mip` become and
cease to be pending (log entries 17 and 19). -/
def Obligations.StepRunsDecoded : Prop :=
  ∀ (s : State) (i : Instr), Executes s i → i.wf = true →
    step s = mapNext State.nextAnswer (exec i s) ∧
    ∀ u : State, u.nextAnswer =
      { u with
        answers := u.answers.tail
        mip := u.cfg.xlen.wrap ((u.mip ||| u.answer.mipSet) &&& ~~~u.answer.mipClear) }

/-- R41, R60: what the fetch brings is what memory holds at `pc`: when the bytes there are the stored form of a well-formed
instruction, the host is quiet, `pc` is in reach and no landing pad is missing, the step executes it. -/
def Obligations.BytesAtPcExecute : Prop :=
  ∀ (s : State) (i : Instr), i.wf = true → s.answer = .quiet →
    (∀ k, (h : k < (encode i).bytes.length) → s.mem.read (byteAddress s.cfg.xlen s.pc k) = (encode i).bytes[k]) →
    (s.cfg.hasC = true ∨ (encode i).length = 4) →
    (s.xfcfie = false ∨ s.elp = .noLpExpected ∨ ∃ l, i = .lpad l) →
    Executes s i

/-- R155 step 1, R157, R159: the announcement of an interrupt is taken exactly when the interrupt is pending in `mip` and
enabled in `mie`, is announced for the mode that `mideleg` and `hideleg` name where the host decides by them (for any mode where
`HostTrapTarget` is a table, D24), and that mode exists and is enabled: a mode more privileged than the present one always, the
present mode by its `MIE` or `SIE`, a less privileged one never (the part of this that R157 and R159 do not say is log entry
18's); without an announcement none is taken. A taken interrupt comes before everything else: the step is the trap into the
announced mode with the present `pc` as `xepc` and 0 as `xtval` (log entry 36), whatever memory holds there, and a pending `ELP`
is saved. -/
def Obligations.InterruptFirst : Prop :=
  ∀ (s : State) (a : Announcement),
    (s.answer.interrupt = none → s.takenInterrupt = none) ∧
    (s.answer.interrupt = some a → s.takenInterrupt = none ∨ s.takenInterrupt = some a) ∧
    (s.answer.interrupt = some a →
      (s.takenInterrupt = some a ↔
        s.mip.getLsbD a.cause.toNat = true ∧ s.mie.getLsbD a.cause.toNat = true ∧
        (s.cfg.trapTarget = .delegation →
          a.target =
            (if s.cfg.hasS = true ∧ s.mideleg.getLsbD a.cause.toNat = true then
              (if s.cfg.hasH = true ∧ s.hideleg.getLsbD a.cause.toNat = true then .vs else .hs)
             else .m)) ∧
        (match a.target with
         | .m => s.priv ≠ .m ∨ s.mstatus.mie = true
         | .hs => s.cfg.hasS = true ∧ (s.priv = .u ∨ (s.priv = .s ∧ (s.virt = true ∨ s.mstatus.sie = true)))
         | .vs => s.cfg.hasH = true ∧ s.virt = true ∧ (s.priv = .u ∨ (s.priv = .s ∧ s.vsstatus.sie = true))))) ∧
    (s.takenInterrupt = some a →
      ∃ t, step s = .next t ∧ t = (s.takeTrap a.target true a.cause 0#64).nextAnswer ∧ TrapStep s t ∧
        (trapCsrsOf t a.target).epc = s.pc ∧ (trapCsrsOf t a.target).tval = 0#64 ∧
        ((trapCsrsOf t a.target).cause).toNat = 2 ^ (s.cfg.xlen.bits - 1) + a.cause.toNat ∧
        t.priv = (if a.target = .m then .m else .s) ∧ (t.virt = true ↔ a.target = .vs ∧ s.virt = true) ∧
        t.pc = trapVector s.cfg.xlen (trapCsrsOf s a.target).tvec true a.cause ∧
        (a.target = .m → t.mstatus = { s.mstatus with
          mpp := s.priv, mpv := s.virt, mpie := s.mstatus.mie, mie := false, mpelp := s.elp }) ∧
        (a.target = .hs → t.mstatus = { s.mstatus with
            spp := decide (s.priv = .s), spie := s.mstatus.sie, sie := false, spelp := s.elp } ∧
          t.hstatus = { s.hstatus with spv := s.virt }) ∧
        (a.target = .vs → t.vsstatus = { s.vsstatus with
          spp := decide (s.priv = .s), spie := s.vsstatus.sie, sie := false, spelp := s.elp }) ∧
        savedElp t a.target = s.elp ∧ t.elp = .noLpExpected ∧ SameRegs s t ∧
        (∀ b, t.mem.read b = s.mem.read b) ∧ t.staleStores = s.staleStores)

/-- R155 step 2, R156 (a), R47: a fetch exception is raised before the landing pad requirement is tested, as a trap on the `pc`
that saves a pending `ELP`: an instruction address breakpoint with cause 3, an instruction page fault with 12, a guest-page
fault with 20, an access fault with 1 (the codes 12 and 20 are log entry 20's). No general register and no byte of memory
changes. -/
def Obligations.FetchExceptionBeforeRequirement : Prop :=
  ∀ (s : State) (e : FetchException) (c : BitVec 6), s.takenInterrupt = none → s.answer.fetch = some e →
    ((e = .addressBreakpoint ∧ c = 3) ∨ (e = .pageFault ∧ c = 12) ∨ (e = .guestPageFault ∧ c = 20) ∨
     (e = .accessFault ∧ c = 1)) →
    ∃ t, step s = .next t ∧
      (∃ tval n, t = ((s.takeTrap (s.exceptionTarget c) false c tval).withDraws n).nextAnswer) ∧ TrapStep s t ∧
      (trapCsrsOf t (s.exceptionTarget c)).cause = c.setWidth 64 ∧ (trapCsrsOf t (s.exceptionTarget c)).epc = s.pc ∧
      savedElp t (s.exceptionTarget c) = s.elp ∧ t.elp = .noLpExpected ∧ SameRegs s t ∧
      (∀ a, t.mem.read a = s.mem.read a) ∧ t.staleStores = s.staleStores

/-- R100, R151, R156 (b): while CFI is active and `ELP` is `LP_EXPECTED`, whatever is fetched that is not an `lpad` raises
illegal-instruction on itself, an illegal encoding, an environment call or an `mret` too: cause 2, `xepc` the target, `xPELP` 1,
`xtval` zero or the instruction's bits as `XTVAL_ILLEGAL` says, no general register and no byte of memory changed. -/
def Obligations.LandingPadRequirement : Prop :=
  ∀ (s : State) (f : Fetched), s.takenInterrupt = none → s.fetch = .ok f →
    s.xfcfie = true → s.elp = .lpExpected → f.isLpad = false →
    ∃ t, step s = .next t ∧ TrapStep s t ∧ (trapCsrsOf t (s.exceptionTarget 2)).cause = 2#64 ∧
      (trapCsrsOf t (s.exceptionTarget 2)).epc = s.pc ∧ savedElp t (s.exceptionTarget 2) = .lpExpected ∧
      (s.cfg.xtvalIllegal = .zero → (trapCsrsOf t (s.exceptionTarget 2)).tval = 0#64) ∧
      (s.cfg.xtvalIllegal = .instructionBits → ∀ w : BitVec 32, f = .code (.word w) →
        (trapCsrsOf t (s.exceptionTarget 2)).tval = w.setWidth 64) ∧
      (s.cfg.xtvalIllegal = .instructionBits → s.cfg.hasC = true → ∀ h : BitVec 16, f = .code (.half h) →
        (trapCsrsOf t (s.exceptionTarget 2)).tval = h.setWidth 64) ∧
      t.elp = .noLpExpected ∧ SameRegs s t ∧ ∀ a, t.mem.read a = s.mem.read a

/-- R68, R60: an encoding that is no instruction raises illegal-instruction: the step is a trap with cause 2 on it, and no general
register and no byte of memory changes. Without `HAS_C` every 16-bit parcel is such an encoding, and on every hart one longer than
32 bits is. The length is read from the lowest bits of the first parcel: what is fetched is a 16-bit instruction unless bits 1:0
are 11, and then a 32-bit one unless bits 4:2 are 111. -/
def Obligations.IllegalEncodingTraps : Prop :=
  (∀ (s : State) (f : Fetched) (d : DecodeError), s.takenInterrupt = none → s.fetch = .ok f →
    decodeFetched s.cfg f = .error d →
    ∃ t, step s = .next t ∧ TrapStep s t ∧ (trapCsrsOf t (s.exceptionTarget 2)).cause = 2#64 ∧
      (trapCsrsOf t (s.exceptionTarget 2)).epc = s.pc ∧ savedElp t (s.exceptionTarget 2) = s.elp ∧ t.elp = .noLpExpected ∧
      SameRegs s t ∧ ∀ a, t.mem.read a = s.mem.read a) ∧
  (∀ (c : Config) (h : BitVec 16), c.hasC = false → decodeFetched c (.code (.half h)) = .error .noCompressed) ∧
  (∀ (c : Config) (p : BitVec 16), decodeFetched c (.long p) = .error .tooLong) ∧
  ∀ (s : State) (p : BitVec 16), s.answer.fetch = none → p = s.fetchParcel s.answer.staleLow s.pc →
    (p.extractLsb' 0 2 ≠ 0b11#2 → s.fetch = .ok (.code (.half p))) ∧
    (p.extractLsb' 0 2 = 0b11#2 → p.extractLsb' 2 3 ≠ 0b111#3 →
      s.fetch = .ok (.code (.word (s.fetchParcel s.answer.staleHigh (s.pc + 2#64) ++ p)))) ∧
    (p.extractLsb' 0 2 = 0b11#2 → p.extractLsb' 2 3 = 0b111#3 → s.fetch = .ok (.long p))

/-- R153, R154 and the whole of 60_exceptions.md: every exceptional condition is a trap, so every step of the machine, from any
state, has a next state. -/
def Obligations.EveryStepHasANextState : Prop := ∀ s : State, ∃ t, step s = .next t

/-- R163: while CFI is active, `ELP` = 1 lasts for at most one instruction boundary: the next step clears it, and it either is a
trap or executes an `lpad`. -/
def Obligations.PendingLandingPadLastsOneStep : Prop :=
  ∀ s : State, s.xfcfie = true → s.elp = .lpExpected →
    ∃ t, step s = .next t ∧ t.elp = .noLpExpected ∧ (TrapStep s t ∨ ∃ l, Executes s (.lpad l))

/-- R17, R88: `ELP` is 1 after a step only if it was 1 and CFI was not active, or the step executed a register-indirect jump that
expects a landing pad while CFI was active, or an `xRET` restored it. -/
def Obligations.WhatSetsElp : Prop :=
  ∀ s t : State, step s = .next t → t.elp = .lpExpected →
    (s.elp = .lpExpected ∧ s.xfcfie = false) ∨
    (∃ i, Executes s i ∧ expectsLandingPad i = true ∧ s.xfcfie = true) ∨
    (∃ i, Executes s i ∧ isTrapReturn i = true)

/-- R160, R144: code in U or VU changes no control register and no mode except by trapping: a step from U-mode is a trap or leaves
every control register, the mode and the parameters as they were, but for the pending bits of `mip` that the host's answer for
this step changes (log entry 19).
(The numbers of the registers R31 does not list are log entry 10's.) -/
def Obligations.UserModeConfinement : Prop :=
  ∀ s t : State, s.priv = .u → step s = .next t → TrapStep s t ∨
    ∃ u : State, t = u.nextAnswer ∧ SameControl s u ∧ u.answers = s.answers

/-- R144, R160: code in VS changes no M-level and no HS-level register except by trapping; `mip` changes as the host's answer says
and not otherwise (log entry 19). (That the S-level numbers of the trap registers reach the VS registers is log entry 26's.) -/
def Obligations.GuestConfinement : Prop :=
  ∀ s t : State, s.priv = .s → s.virt = true → step s = .next t →
    TrapStep s t ∨
      ((∃ u : State, t = u.nextAnswer ∧ u.mip = s.mip ∧ u.answers = s.answers) ∧ t.virt = true ∧
       t.mstatus = s.mstatus ∧ t.mfcfie = s.mfcfie ∧ t.menvcfg = s.menvcfg ∧ t.henvcfg = s.henvcfg ∧
       t.hstatus = s.hstatus ∧ t.mtrap = s.mtrap ∧ t.strap = s.strap ∧ t.medeleg = s.medeleg ∧ t.mideleg = s.mideleg ∧
       t.hedeleg = s.hedeleg ∧ t.hideleg = s.hideleg ∧ t.mie = s.mie)

/-- R51, D19: a CSR write to `mseccfg` in M-mode governs the next instruction: after it CFI is active in M exactly when the
written `MFCFIE` is 1, with `ELP` unchanged. -/
def Obligations.EnableGovernsNextInstruction : Prop :=
  ∀ (s : State) (rs1 : RegIdx), s.priv = .m → s.cfg.hasZicfisslp = true →
    (s.cfg.xlen = .x64 ∨ s.cfg.pos.mseccfgMfcfie < 32) →
    ∃ t, exec (.csrrw 0 rs1 0x747#12) s = .next t ∧
      t.xfcfie = (s.readReg rs1).getLsbD s.cfg.pos.mseccfgMfcfie ∧ t.elp = s.elp ∧ SameRegs s t

/-! ### Invariants -/

/-- R40: every step keeps the memory in its canonical form with `XLEN`-bit addresses. -/
def Obligations.StepKeepsMemory : Prop := ∀ s t : State, s.MemoryOk → step s = .next t → t.MemoryOk

/-- R15, R42: every step keeps `pc[0]` = 0, and `pc[1]` = 0 when `HAS_C` is false. -/
def Obligations.StepKeepsPcAligned : Prop := ∀ s t : State, s.PcOk → step s = .next t → t.PcOk

/-- R19: on a hart with the parameters log entry 3 admits, every step keeps the mode and the saved modes among the implemented
ones, and `V` = 1 below M only. That a write of `MPP` leaves an implemented mode is log entry 13's, and that an `sret` on a hart
without U-mode goes to S is log entry 35's. -/
def Obligations.StepKeepsMode : Prop := ∀ s t : State, s.cfg.wf = true → s.ModeOk → step s = .next t → t.ModeOk

/-- R33, R64: every step keeps the fields that do not exist at 0; that on a hart without the extension these are all ten, and
`ELP` is 0 too, is log entry 28's. -/
def Obligations.StepKeepsFields : Prop := ∀ s t : State, s.FieldsOk → step s = .next t → t.FieldsOk

/-- R10, R11, R15: every step keeps every word `XLEN` bits wide and `x0` at 0. -/
def Obligations.StepKeepsWords : Prop := ∀ s t : State, s.WordsOk → step s = .next t → t.WordsOk

/-- R35, R36, and R37's mode, `pc` and `x0`: after reset, with any parameters and any contents of `x1` to `x31`, `ELP` is
`NO_LP_EXPECTED`, the mode is M with `V` = 0, `pc` is `RESET_PC`, `x0` is 0, and each of the ten fields that exists holds its
`RESET_*`. -/
def Obligations.ResetState : Prop :=
  ∀ (c : Config) (x : Vector Word 32) (s : State), s = State.resetOf c x →
    s.elp = .noLpExpected ∧ s.priv = .m ∧ s.virt = false ∧ s.pc = c.resetPc ∧ s.readReg 0 = 0#64 ∧
    (∀ r : RegIdx, r ≠ 0 → s.readReg r = x[r]) ∧
    (c.hasZicfisslp = true → s.mfcfie = c.reset.mfcfie ∧ s.mstatus.mpelp = .ofBool c.reset.mpelp ∧
      (c.hasS = true ∨ c.hasU = true → s.menvcfg.cfie = c.reset.menvCfie) ∧
      (c.hasS = true → s.menvcfg.sfcfie = c.reset.menvSfcfie ∧ s.mstatus.spelp = .ofBool c.reset.spelp) ∧
      (c.hasU = true → s.mstatus.ufcfie = c.reset.ufcfie) ∧
      (c.hasH = true → s.henvcfg = { cfie := c.reset.henvCfie, sfcfie := c.reset.henvSfcfie } ∧
        s.vsstatus.spelp = .ofBool c.reset.vsSpelp ∧ (c.hasU = true → s.vsstatus.ufcfie = c.reset.vsUfcfie)))

/-- The invariants hold after reset, with any parameters log entry 3 admits and any `XLEN`-bit contents of `x1` to `x31`; the
reset values of the host's registers are log entry 6's. -/
def Obligations.ResetMeetsInvariants : Prop :=
  ∀ (c : Config) (x : Vector Word 32), c.wf = true → (∀ r : RegIdx, c.xlen.wrap x[r] = x[r]) →
    ∀ s, s = State.resetOf c x → s.MemoryOk ∧ s.PcOk ∧ s.ModeOk ∧ s.FieldsOk ∧ s.WordsOk
end

