-- ==== Sys2Proof/Laws/State.lean ====
section
/-! SUPPORT. One lemma per field of `State` for each update of it, true by `rfl`, so that no proof unfolds a record update. -/

namespace Sys2Proof.Machine

variable (s : State)

/-! ### `State.writeReg` -/

@[simp] theorem writeReg_cfg (i : RegIdx) (v : Word) : (s.writeReg i v).cfg = s.cfg := rfl
@[simp] theorem writeReg_regs (i : RegIdx) (v : Word) : (s.writeReg i v).regs = if i = 0 then s.regs else s.regs.set i (s.cfg.xlen.wrap v) := rfl
@[simp] theorem writeReg_pc (i : RegIdx) (v : Word) : (s.writeReg i v).pc = s.pc := rfl
@[simp] theorem writeReg_elp (i : RegIdx) (v : Word) : (s.writeReg i v).elp = s.elp := rfl
@[simp] theorem writeReg_priv (i : RegIdx) (v : Word) : (s.writeReg i v).priv = s.priv := rfl
@[simp] theorem writeReg_virt (i : RegIdx) (v : Word) : (s.writeReg i v).virt = s.virt := rfl
@[simp] theorem writeReg_mfcfie (i : RegIdx) (v : Word) : (s.writeReg i v).mfcfie = s.mfcfie := rfl
@[simp] theorem writeReg_menvcfg (i : RegIdx) (v : Word) : (s.writeReg i v).menvcfg = s.menvcfg := rfl
@[simp] theorem writeReg_mstatus (i : RegIdx) (v : Word) : (s.writeReg i v).mstatus = s.mstatus := rfl
@[simp] theorem writeReg_henvcfg (i : RegIdx) (v : Word) : (s.writeReg i v).henvcfg = s.henvcfg := rfl
@[simp] theorem writeReg_hstatus (i : RegIdx) (v : Word) : (s.writeReg i v).hstatus = s.hstatus := rfl
@[simp] theorem writeReg_vsstatus (i : RegIdx) (v : Word) : (s.writeReg i v).vsstatus = s.vsstatus := rfl
@[simp] theorem writeReg_mtrap (i : RegIdx) (v : Word) : (s.writeReg i v).mtrap = s.mtrap := rfl
@[simp] theorem writeReg_strap (i : RegIdx) (v : Word) : (s.writeReg i v).strap = s.strap := rfl
@[simp] theorem writeReg_vstrap (i : RegIdx) (v : Word) : (s.writeReg i v).vstrap = s.vstrap := rfl
@[simp] theorem writeReg_medeleg (i : RegIdx) (v : Word) : (s.writeReg i v).medeleg = s.medeleg := rfl
@[simp] theorem writeReg_mideleg (i : RegIdx) (v : Word) : (s.writeReg i v).mideleg = s.mideleg := rfl
@[simp] theorem writeReg_hedeleg (i : RegIdx) (v : Word) : (s.writeReg i v).hedeleg = s.hedeleg := rfl
@[simp] theorem writeReg_hideleg (i : RegIdx) (v : Word) : (s.writeReg i v).hideleg = s.hideleg := rfl
@[simp] theorem writeReg_mie (i : RegIdx) (v : Word) : (s.writeReg i v).mie = s.mie := rfl
@[simp] theorem writeReg_mip (i : RegIdx) (v : Word) : (s.writeReg i v).mip = s.mip := rfl
@[simp] theorem writeReg_mem (i : RegIdx) (v : Word) : (s.writeReg i v).mem = s.mem := rfl
@[simp] theorem writeReg_staleStores (i : RegIdx) (v : Word) : (s.writeReg i v).staleStores = s.staleStores := rfl
@[simp] theorem writeReg_answers (i : RegIdx) (v : Word) : (s.writeReg i v).answers = s.answers := rfl
@[simp] theorem writeReg_draws (i : RegIdx) (v : Word) : (s.writeReg i v).draws = s.draws := rfl

/-! ### `State.goto` -/

@[simp] theorem goto_cfg (t : Word) : (s.goto t).cfg = s.cfg := rfl
@[simp] theorem goto_regs (t : Word) : (s.goto t).regs = s.regs := rfl
@[simp] theorem goto_pc (t : Word) : (s.goto t).pc = s.cfg.xlen.wrap t := rfl
@[simp] theorem goto_elp (t : Word) : (s.goto t).elp = s.elp := rfl
@[simp] theorem goto_priv (t : Word) : (s.goto t).priv = s.priv := rfl
@[simp] theorem goto_virt (t : Word) : (s.goto t).virt = s.virt := rfl
@[simp] theorem goto_mfcfie (t : Word) : (s.goto t).mfcfie = s.mfcfie := rfl
@[simp] theorem goto_menvcfg (t : Word) : (s.goto t).menvcfg = s.menvcfg := rfl
@[simp] theorem goto_mstatus (t : Word) : (s.goto t).mstatus = s.mstatus := rfl
@[simp] theorem goto_henvcfg (t : Word) : (s.goto t).henvcfg = s.henvcfg := rfl
@[simp] theorem goto_hstatus (t : Word) : (s.goto t).hstatus = s.hstatus := rfl
@[simp] theorem goto_vsstatus (t : Word) : (s.goto t).vsstatus = s.vsstatus := rfl
@[simp] theorem goto_mtrap (t : Word) : (s.goto t).mtrap = s.mtrap := rfl
@[simp] theorem goto_strap (t : Word) : (s.goto t).strap = s.strap := rfl
@[simp] theorem goto_vstrap (t : Word) : (s.goto t).vstrap = s.vstrap := rfl
@[simp] theorem goto_medeleg (t : Word) : (s.goto t).medeleg = s.medeleg := rfl
@[simp] theorem goto_mideleg (t : Word) : (s.goto t).mideleg = s.mideleg := rfl
@[simp] theorem goto_hedeleg (t : Word) : (s.goto t).hedeleg = s.hedeleg := rfl
@[simp] theorem goto_hideleg (t : Word) : (s.goto t).hideleg = s.hideleg := rfl
@[simp] theorem goto_mie (t : Word) : (s.goto t).mie = s.mie := rfl
@[simp] theorem goto_mip (t : Word) : (s.goto t).mip = s.mip := rfl
@[simp] theorem goto_mem (t : Word) : (s.goto t).mem = s.mem := rfl
@[simp] theorem goto_staleStores (t : Word) : (s.goto t).staleStores = s.staleStores := rfl
@[simp] theorem goto_answers (t : Word) : (s.goto t).answers = s.answers := rfl
@[simp] theorem goto_draws (t : Word) : (s.goto t).draws = s.draws := rfl

/-! ### `State.advance` -/

@[simp] theorem advance_cfg (n : Nat) : (s.advance n).cfg = s.cfg := rfl
@[simp] theorem advance_regs (n : Nat) : (s.advance n).regs = s.regs := rfl
@[simp] theorem advance_pc (n : Nat) : (s.advance n).pc = s.cfg.xlen.wrap (s.pc + BitVec.ofNat 64 n) := rfl
@[simp] theorem advance_elp (n : Nat) : (s.advance n).elp = s.elp := rfl
@[simp] theorem advance_priv (n : Nat) : (s.advance n).priv = s.priv := rfl
@[simp] theorem advance_virt (n : Nat) : (s.advance n).virt = s.virt := rfl
@[simp] theorem advance_mfcfie (n : Nat) : (s.advance n).mfcfie = s.mfcfie := rfl
@[simp] theorem advance_menvcfg (n : Nat) : (s.advance n).menvcfg = s.menvcfg := rfl
@[simp] theorem advance_mstatus (n : Nat) : (s.advance n).mstatus = s.mstatus := rfl
@[simp] theorem advance_henvcfg (n : Nat) : (s.advance n).henvcfg = s.henvcfg := rfl
@[simp] theorem advance_hstatus (n : Nat) : (s.advance n).hstatus = s.hstatus := rfl
@[simp] theorem advance_vsstatus (n : Nat) : (s.advance n).vsstatus = s.vsstatus := rfl
@[simp] theorem advance_mtrap (n : Nat) : (s.advance n).mtrap = s.mtrap := rfl
@[simp] theorem advance_strap (n : Nat) : (s.advance n).strap = s.strap := rfl
@[simp] theorem advance_vstrap (n : Nat) : (s.advance n).vstrap = s.vstrap := rfl
@[simp] theorem advance_medeleg (n : Nat) : (s.advance n).medeleg = s.medeleg := rfl
@[simp] theorem advance_mideleg (n : Nat) : (s.advance n).mideleg = s.mideleg := rfl
@[simp] theorem advance_hedeleg (n : Nat) : (s.advance n).hedeleg = s.hedeleg := rfl
@[simp] theorem advance_hideleg (n : Nat) : (s.advance n).hideleg = s.hideleg := rfl
@[simp] theorem advance_mie (n : Nat) : (s.advance n).mie = s.mie := rfl
@[simp] theorem advance_mip (n : Nat) : (s.advance n).mip = s.mip := rfl
@[simp] theorem advance_mem (n : Nat) : (s.advance n).mem = s.mem := rfl
@[simp] theorem advance_staleStores (n : Nat) : (s.advance n).staleStores = s.staleStores := rfl
@[simp] theorem advance_answers (n : Nat) : (s.advance n).answers = s.answers := rfl
@[simp] theorem advance_draws (n : Nat) : (s.advance n).draws = s.draws := rfl

/-! ### `State.setElp` -/

@[simp] theorem setElp_cfg (e : Elp) : (s.setElp e).cfg = s.cfg := rfl
@[simp] theorem setElp_regs (e : Elp) : (s.setElp e).regs = s.regs := rfl
@[simp] theorem setElp_pc (e : Elp) : (s.setElp e).pc = s.pc := rfl
@[simp] theorem setElp_elp (e : Elp) : (s.setElp e).elp = e := rfl
@[simp] theorem setElp_priv (e : Elp) : (s.setElp e).priv = s.priv := rfl
@[simp] theorem setElp_virt (e : Elp) : (s.setElp e).virt = s.virt := rfl
@[simp] theorem setElp_mfcfie (e : Elp) : (s.setElp e).mfcfie = s.mfcfie := rfl
@[simp] theorem setElp_menvcfg (e : Elp) : (s.setElp e).menvcfg = s.menvcfg := rfl
@[simp] theorem setElp_mstatus (e : Elp) : (s.setElp e).mstatus = s.mstatus := rfl
@[simp] theorem setElp_henvcfg (e : Elp) : (s.setElp e).henvcfg = s.henvcfg := rfl
@[simp] theorem setElp_hstatus (e : Elp) : (s.setElp e).hstatus = s.hstatus := rfl
@[simp] theorem setElp_vsstatus (e : Elp) : (s.setElp e).vsstatus = s.vsstatus := rfl
@[simp] theorem setElp_mtrap (e : Elp) : (s.setElp e).mtrap = s.mtrap := rfl
@[simp] theorem setElp_strap (e : Elp) : (s.setElp e).strap = s.strap := rfl
@[simp] theorem setElp_vstrap (e : Elp) : (s.setElp e).vstrap = s.vstrap := rfl
@[simp] theorem setElp_medeleg (e : Elp) : (s.setElp e).medeleg = s.medeleg := rfl
@[simp] theorem setElp_mideleg (e : Elp) : (s.setElp e).mideleg = s.mideleg := rfl
@[simp] theorem setElp_hedeleg (e : Elp) : (s.setElp e).hedeleg = s.hedeleg := rfl
@[simp] theorem setElp_hideleg (e : Elp) : (s.setElp e).hideleg = s.hideleg := rfl
@[simp] theorem setElp_mie (e : Elp) : (s.setElp e).mie = s.mie := rfl
@[simp] theorem setElp_mip (e : Elp) : (s.setElp e).mip = s.mip := rfl
@[simp] theorem setElp_mem (e : Elp) : (s.setElp e).mem = s.mem := rfl
@[simp] theorem setElp_staleStores (e : Elp) : (s.setElp e).staleStores = s.staleStores := rfl
@[simp] theorem setElp_answers (e : Elp) : (s.setElp e).answers = s.answers := rfl
@[simp] theorem setElp_draws (e : Elp) : (s.setElp e).draws = s.draws := rfl

/-! ### `State.drawn` -/

@[simp] theorem drawn_cfg : (s.drawn).cfg = s.cfg := rfl
@[simp] theorem drawn_regs : (s.drawn).regs = s.regs := rfl
@[simp] theorem drawn_pc : (s.drawn).pc = s.pc := rfl
@[simp] theorem drawn_elp : (s.drawn).elp = s.elp := rfl
@[simp] theorem drawn_priv : (s.drawn).priv = s.priv := rfl
@[simp] theorem drawn_virt : (s.drawn).virt = s.virt := rfl
@[simp] theorem drawn_mfcfie : (s.drawn).mfcfie = s.mfcfie := rfl
@[simp] theorem drawn_menvcfg : (s.drawn).menvcfg = s.menvcfg := rfl
@[simp] theorem drawn_mstatus : (s.drawn).mstatus = s.mstatus := rfl
@[simp] theorem drawn_henvcfg : (s.drawn).henvcfg = s.henvcfg := rfl
@[simp] theorem drawn_hstatus : (s.drawn).hstatus = s.hstatus := rfl
@[simp] theorem drawn_vsstatus : (s.drawn).vsstatus = s.vsstatus := rfl
@[simp] theorem drawn_mtrap : (s.drawn).mtrap = s.mtrap := rfl
@[simp] theorem drawn_strap : (s.drawn).strap = s.strap := rfl
@[simp] theorem drawn_vstrap : (s.drawn).vstrap = s.vstrap := rfl
@[simp] theorem drawn_medeleg : (s.drawn).medeleg = s.medeleg := rfl
@[simp] theorem drawn_mideleg : (s.drawn).mideleg = s.mideleg := rfl
@[simp] theorem drawn_hedeleg : (s.drawn).hedeleg = s.hedeleg := rfl
@[simp] theorem drawn_hideleg : (s.drawn).hideleg = s.hideleg := rfl
@[simp] theorem drawn_mie : (s.drawn).mie = s.mie := rfl
@[simp] theorem drawn_mip : (s.drawn).mip = s.mip := rfl
@[simp] theorem drawn_mem : (s.drawn).mem = s.mem := rfl
@[simp] theorem drawn_staleStores : (s.drawn).staleStores = s.staleStores := rfl
@[simp] theorem drawn_answers : (s.drawn).answers = s.answers := rfl
@[simp] theorem drawn_draws : (s.drawn).draws = s.draws + 1 := rfl

/-! ### `State.nextAnswer` -/

@[simp] theorem nextAnswer_cfg : (s.nextAnswer).cfg = s.cfg := rfl
@[simp] theorem nextAnswer_regs : (s.nextAnswer).regs = s.regs := rfl
@[simp] theorem nextAnswer_pc : (s.nextAnswer).pc = s.pc := rfl
@[simp] theorem nextAnswer_elp : (s.nextAnswer).elp = s.elp := rfl
@[simp] theorem nextAnswer_priv : (s.nextAnswer).priv = s.priv := rfl
@[simp] theorem nextAnswer_virt : (s.nextAnswer).virt = s.virt := rfl
@[simp] theorem nextAnswer_mfcfie : (s.nextAnswer).mfcfie = s.mfcfie := rfl
@[simp] theorem nextAnswer_menvcfg : (s.nextAnswer).menvcfg = s.menvcfg := rfl
@[simp] theorem nextAnswer_mstatus : (s.nextAnswer).mstatus = s.mstatus := rfl
@[simp] theorem nextAnswer_henvcfg : (s.nextAnswer).henvcfg = s.henvcfg := rfl
@[simp] theorem nextAnswer_hstatus : (s.nextAnswer).hstatus = s.hstatus := rfl
@[simp] theorem nextAnswer_vsstatus : (s.nextAnswer).vsstatus = s.vsstatus := rfl
@[simp] theorem nextAnswer_mtrap : (s.nextAnswer).mtrap = s.mtrap := rfl
@[simp] theorem nextAnswer_strap : (s.nextAnswer).strap = s.strap := rfl
@[simp] theorem nextAnswer_vstrap : (s.nextAnswer).vstrap = s.vstrap := rfl
@[simp] theorem nextAnswer_medeleg : (s.nextAnswer).medeleg = s.medeleg := rfl
@[simp] theorem nextAnswer_mideleg : (s.nextAnswer).mideleg = s.mideleg := rfl
@[simp] theorem nextAnswer_hedeleg : (s.nextAnswer).hedeleg = s.hedeleg := rfl
@[simp] theorem nextAnswer_hideleg : (s.nextAnswer).hideleg = s.hideleg := rfl
@[simp] theorem nextAnswer_mie : (s.nextAnswer).mie = s.mie := rfl
@[simp] theorem nextAnswer_mip : (s.nextAnswer).mip = s.cfg.xlen.wrap ((s.mip ||| s.answer.mipSet) &&& ~~~s.answer.mipClear) := rfl
@[simp] theorem nextAnswer_mem : (s.nextAnswer).mem = s.mem := rfl
@[simp] theorem nextAnswer_staleStores : (s.nextAnswer).staleStores = s.staleStores := rfl
@[simp] theorem nextAnswer_answers : (s.nextAnswer).answers = s.answers.tail := rfl
@[simp] theorem nextAnswer_draws : (s.nextAnswer).draws = s.draws := rfl

/-! ### `State.syncFetch` -/

@[simp] theorem syncFetch_cfg : (s.syncFetch).cfg = s.cfg := rfl
@[simp] theorem syncFetch_regs : (s.syncFetch).regs = s.regs := rfl
@[simp] theorem syncFetch_pc : (s.syncFetch).pc = s.pc := rfl
@[simp] theorem syncFetch_elp : (s.syncFetch).elp = s.elp := rfl
@[simp] theorem syncFetch_priv : (s.syncFetch).priv = s.priv := rfl
@[simp] theorem syncFetch_virt : (s.syncFetch).virt = s.virt := rfl
@[simp] theorem syncFetch_mfcfie : (s.syncFetch).mfcfie = s.mfcfie := rfl
@[simp] theorem syncFetch_menvcfg : (s.syncFetch).menvcfg = s.menvcfg := rfl
@[simp] theorem syncFetch_mstatus : (s.syncFetch).mstatus = s.mstatus := rfl
@[simp] theorem syncFetch_henvcfg : (s.syncFetch).henvcfg = s.henvcfg := rfl
@[simp] theorem syncFetch_hstatus : (s.syncFetch).hstatus = s.hstatus := rfl
@[simp] theorem syncFetch_vsstatus : (s.syncFetch).vsstatus = s.vsstatus := rfl
@[simp] theorem syncFetch_mtrap : (s.syncFetch).mtrap = s.mtrap := rfl
@[simp] theorem syncFetch_strap : (s.syncFetch).strap = s.strap := rfl
@[simp] theorem syncFetch_vstrap : (s.syncFetch).vstrap = s.vstrap := rfl
@[simp] theorem syncFetch_medeleg : (s.syncFetch).medeleg = s.medeleg := rfl
@[simp] theorem syncFetch_mideleg : (s.syncFetch).mideleg = s.mideleg := rfl
@[simp] theorem syncFetch_hedeleg : (s.syncFetch).hedeleg = s.hedeleg := rfl
@[simp] theorem syncFetch_hideleg : (s.syncFetch).hideleg = s.hideleg := rfl
@[simp] theorem syncFetch_mie : (s.syncFetch).mie = s.mie := rfl
@[simp] theorem syncFetch_mip : (s.syncFetch).mip = s.mip := rfl
@[simp] theorem syncFetch_mem : (s.syncFetch).mem = s.mem := rfl
@[simp] theorem syncFetch_staleStores : (s.syncFetch).staleStores = [] := rfl
@[simp] theorem syncFetch_answers : (s.syncFetch).answers = s.answers := rfl
@[simp] theorem syncFetch_draws : (s.syncFetch).draws = s.draws := rfl

/-! ### `State.store32` -/

@[simp] theorem store32_cfg (a : Word) (v : BitVec 32) : (s.store32 a v).cfg = s.cfg := rfl
@[simp] theorem store32_regs (a : Word) (v : BitVec 32) : (s.store32 a v).regs = s.regs := rfl
@[simp] theorem store32_pc (a : Word) (v : BitVec 32) : (s.store32 a v).pc = s.pc := rfl
@[simp] theorem store32_elp (a : Word) (v : BitVec 32) : (s.store32 a v).elp = s.elp := rfl
@[simp] theorem store32_priv (a : Word) (v : BitVec 32) : (s.store32 a v).priv = s.priv := rfl
@[simp] theorem store32_virt (a : Word) (v : BitVec 32) : (s.store32 a v).virt = s.virt := rfl
@[simp] theorem store32_mfcfie (a : Word) (v : BitVec 32) : (s.store32 a v).mfcfie = s.mfcfie := rfl
@[simp] theorem store32_menvcfg (a : Word) (v : BitVec 32) : (s.store32 a v).menvcfg = s.menvcfg := rfl
@[simp] theorem store32_mstatus (a : Word) (v : BitVec 32) : (s.store32 a v).mstatus = s.mstatus := rfl
@[simp] theorem store32_henvcfg (a : Word) (v : BitVec 32) : (s.store32 a v).henvcfg = s.henvcfg := rfl
@[simp] theorem store32_hstatus (a : Word) (v : BitVec 32) : (s.store32 a v).hstatus = s.hstatus := rfl
@[simp] theorem store32_vsstatus (a : Word) (v : BitVec 32) : (s.store32 a v).vsstatus = s.vsstatus := rfl
@[simp] theorem store32_mtrap (a : Word) (v : BitVec 32) : (s.store32 a v).mtrap = s.mtrap := rfl
@[simp] theorem store32_strap (a : Word) (v : BitVec 32) : (s.store32 a v).strap = s.strap := rfl
@[simp] theorem store32_vstrap (a : Word) (v : BitVec 32) : (s.store32 a v).vstrap = s.vstrap := rfl
@[simp] theorem store32_medeleg (a : Word) (v : BitVec 32) : (s.store32 a v).medeleg = s.medeleg := rfl
@[simp] theorem store32_mideleg (a : Word) (v : BitVec 32) : (s.store32 a v).mideleg = s.mideleg := rfl
@[simp] theorem store32_hedeleg (a : Word) (v : BitVec 32) : (s.store32 a v).hedeleg = s.hedeleg := rfl
@[simp] theorem store32_hideleg (a : Word) (v : BitVec 32) : (s.store32 a v).hideleg = s.hideleg := rfl
@[simp] theorem store32_mie (a : Word) (v : BitVec 32) : (s.store32 a v).mie = s.mie := rfl
@[simp] theorem store32_mip (a : Word) (v : BitVec 32) : (s.store32 a v).mip = s.mip := rfl
@[simp] theorem store32_mem (a : Word) (v : BitVec 32) : (s.store32 a v).mem = s.mem.writeAll (storedCells s.cfg.xlen a v) := rfl
@[simp] theorem store32_staleStores (a : Word) (v : BitVec 32) : (s.store32 a v).staleStores = storeAccesses a (s.mem.cells4 s.cfg.xlen a) ++ s.staleStores := rfl
@[simp] theorem store32_answers (a : Word) (v : BitVec 32) : (s.store32 a v).answers = s.answers := rfl
@[simp] theorem store32_draws (a : Word) (v : BitVec 32) : (s.store32 a v).draws = s.draws := rfl

/-! ### `State.trapIntoM` -/

@[simp] theorem trapIntoM_cfg (b : Bool) (c : BitVec 6) (v : Word) : (s.trapIntoM b c v).cfg = s.cfg := rfl
@[simp] theorem trapIntoM_regs (b : Bool) (c : BitVec 6) (v : Word) : (s.trapIntoM b c v).regs = s.regs := rfl
@[simp] theorem trapIntoM_pc (b : Bool) (c : BitVec 6) (v : Word) : (s.trapIntoM b c v).pc = trapVector s.cfg.xlen s.mtrap.tvec b c := rfl
@[simp] theorem trapIntoM_elp (b : Bool) (c : BitVec 6) (v : Word) : (s.trapIntoM b c v).elp = .noLpExpected := rfl
@[simp] theorem trapIntoM_priv (b : Bool) (c : BitVec 6) (v : Word) : (s.trapIntoM b c v).priv = .m := rfl
@[simp] theorem trapIntoM_virt (b : Bool) (c : BitVec 6) (v : Word) : (s.trapIntoM b c v).virt = false := rfl
@[simp] theorem trapIntoM_mfcfie (b : Bool) (c : BitVec 6) (v : Word) : (s.trapIntoM b c v).mfcfie = s.mfcfie := rfl
@[simp] theorem trapIntoM_menvcfg (b : Bool) (c : BitVec 6) (v : Word) : (s.trapIntoM b c v).menvcfg = s.menvcfg := rfl
@[simp] theorem trapIntoM_mstatus (b : Bool) (c : BitVec 6) (v : Word) : (s.trapIntoM b c v).mstatus = { s.mstatus with mpp := s.priv, mpv := s.virt, mpie := s.mstatus.mie, mie := false, mpelp := s.elp } := rfl
@[simp] theorem trapIntoM_henvcfg (b : Bool) (c : BitVec 6) (v : Word) : (s.trapIntoM b c v).henvcfg = s.henvcfg := rfl
@[simp] theorem trapIntoM_hstatus (b : Bool) (c : BitVec 6) (v : Word) : (s.trapIntoM b c v).hstatus = s.hstatus := rfl
@[simp] theorem trapIntoM_vsstatus (b : Bool) (c : BitVec 6) (v : Word) : (s.trapIntoM b c v).vsstatus = s.vsstatus := rfl
@[simp] theorem trapIntoM_mtrap (b : Bool) (c : BitVec 6) (v : Word) : (s.trapIntoM b c v).mtrap = recordTrap s s.mtrap b c v := rfl
@[simp] theorem trapIntoM_strap (b : Bool) (c : BitVec 6) (v : Word) : (s.trapIntoM b c v).strap = s.strap := rfl
@[simp] theorem trapIntoM_vstrap (b : Bool) (c : BitVec 6) (v : Word) : (s.trapIntoM b c v).vstrap = s.vstrap := rfl
@[simp] theorem trapIntoM_medeleg (b : Bool) (c : BitVec 6) (v : Word) : (s.trapIntoM b c v).medeleg = s.medeleg := rfl
@[simp] theorem trapIntoM_mideleg (b : Bool) (c : BitVec 6) (v : Word) : (s.trapIntoM b c v).mideleg = s.mideleg := rfl
@[simp] theorem trapIntoM_hedeleg (b : Bool) (c : BitVec 6) (v : Word) : (s.trapIntoM b c v).hedeleg = s.hedeleg := rfl
@[simp] theorem trapIntoM_hideleg (b : Bool) (c : BitVec 6) (v : Word) : (s.trapIntoM b c v).hideleg = s.hideleg := rfl
@[simp] theorem trapIntoM_mie (b : Bool) (c : BitVec 6) (v : Word) : (s.trapIntoM b c v).mie = s.mie := rfl
@[simp] theorem trapIntoM_mip (b : Bool) (c : BitVec 6) (v : Word) : (s.trapIntoM b c v).mip = s.mip := rfl
@[simp] theorem trapIntoM_mem (b : Bool) (c : BitVec 6) (v : Word) : (s.trapIntoM b c v).mem = s.mem := rfl
@[simp] theorem trapIntoM_staleStores (b : Bool) (c : BitVec 6) (v : Word) : (s.trapIntoM b c v).staleStores = s.staleStores := rfl
@[simp] theorem trapIntoM_answers (b : Bool) (c : BitVec 6) (v : Word) : (s.trapIntoM b c v).answers = s.answers := rfl
@[simp] theorem trapIntoM_draws (b : Bool) (c : BitVec 6) (v : Word) : (s.trapIntoM b c v).draws = s.draws := rfl

/-! ### `State.trapIntoHS` -/

@[simp] theorem trapIntoHS_cfg (b : Bool) (c : BitVec 6) (v : Word) : (s.trapIntoHS b c v).cfg = s.cfg := rfl
@[simp] theorem trapIntoHS_regs (b : Bool) (c : BitVec 6) (v : Word) : (s.trapIntoHS b c v).regs = s.regs := rfl
@[simp] theorem trapIntoHS_pc (b : Bool) (c : BitVec 6) (v : Word) : (s.trapIntoHS b c v).pc = trapVector s.cfg.xlen s.strap.tvec b c := rfl
@[simp] theorem trapIntoHS_elp (b : Bool) (c : BitVec 6) (v : Word) : (s.trapIntoHS b c v).elp = .noLpExpected := rfl
@[simp] theorem trapIntoHS_priv (b : Bool) (c : BitVec 6) (v : Word) : (s.trapIntoHS b c v).priv = .s := rfl
@[simp] theorem trapIntoHS_virt (b : Bool) (c : BitVec 6) (v : Word) : (s.trapIntoHS b c v).virt = false := rfl
@[simp] theorem trapIntoHS_mfcfie (b : Bool) (c : BitVec 6) (v : Word) : (s.trapIntoHS b c v).mfcfie = s.mfcfie := rfl
@[simp] theorem trapIntoHS_menvcfg (b : Bool) (c : BitVec 6) (v : Word) : (s.trapIntoHS b c v).menvcfg = s.menvcfg := rfl
@[simp] theorem trapIntoHS_mstatus (b : Bool) (c : BitVec 6) (v : Word) : (s.trapIntoHS b c v).mstatus = { s.mstatus with spp := decide (s.priv = .s), spie := s.mstatus.sie, sie := false, spelp := s.elp } := rfl
@[simp] theorem trapIntoHS_henvcfg (b : Bool) (c : BitVec 6) (v : Word) : (s.trapIntoHS b c v).henvcfg = s.henvcfg := rfl
@[simp] theorem trapIntoHS_hstatus (b : Bool) (c : BitVec 6) (v : Word) : (s.trapIntoHS b c v).hstatus = { s.hstatus with spv := s.virt } := rfl
@[simp] theorem trapIntoHS_vsstatus (b : Bool) (c : BitVec 6) (v : Word) : (s.trapIntoHS b c v).vsstatus = s.vsstatus := rfl
@[simp] theorem trapIntoHS_mtrap (b : Bool) (c : BitVec 6) (v : Word) : (s.trapIntoHS b c v).mtrap = s.mtrap := rfl
@[simp] theorem trapIntoHS_strap (b : Bool) (c : BitVec 6) (v : Word) : (s.trapIntoHS b c v).strap = recordTrap s s.strap b c v := rfl
@[simp] theorem trapIntoHS_vstrap (b : Bool) (c : BitVec 6) (v : Word) : (s.trapIntoHS b c v).vstrap = s.vstrap := rfl
@[simp] theorem trapIntoHS_medeleg (b : Bool) (c : BitVec 6) (v : Word) : (s.trapIntoHS b c v).medeleg = s.medeleg := rfl
@[simp] theorem trapIntoHS_mideleg (b : Bool) (c : BitVec 6) (v : Word) : (s.trapIntoHS b c v).mideleg = s.mideleg := rfl
@[simp] theorem trapIntoHS_hedeleg (b : Bool) (c : BitVec 6) (v : Word) : (s.trapIntoHS b c v).hedeleg = s.hedeleg := rfl
@[simp] theorem trapIntoHS_hideleg (b : Bool) (c : BitVec 6) (v : Word) : (s.trapIntoHS b c v).hideleg = s.hideleg := rfl
@[simp] theorem trapIntoHS_mie (b : Bool) (c : BitVec 6) (v : Word) : (s.trapIntoHS b c v).mie = s.mie := rfl
@[simp] theorem trapIntoHS_mip (b : Bool) (c : BitVec 6) (v : Word) : (s.trapIntoHS b c v).mip = s.mip := rfl
@[simp] theorem trapIntoHS_mem (b : Bool) (c : BitVec 6) (v : Word) : (s.trapIntoHS b c v).mem = s.mem := rfl
@[simp] theorem trapIntoHS_staleStores (b : Bool) (c : BitVec 6) (v : Word) : (s.trapIntoHS b c v).staleStores = s.staleStores := rfl
@[simp] theorem trapIntoHS_answers (b : Bool) (c : BitVec 6) (v : Word) : (s.trapIntoHS b c v).answers = s.answers := rfl
@[simp] theorem trapIntoHS_draws (b : Bool) (c : BitVec 6) (v : Word) : (s.trapIntoHS b c v).draws = s.draws := rfl

/-! ### `State.trapIntoVS` -/

@[simp] theorem trapIntoVS_cfg (b : Bool) (c : BitVec 6) (v : Word) : (s.trapIntoVS b c v).cfg = s.cfg := rfl
@[simp] theorem trapIntoVS_regs (b : Bool) (c : BitVec 6) (v : Word) : (s.trapIntoVS b c v).regs = s.regs := rfl
@[simp] theorem trapIntoVS_pc (b : Bool) (c : BitVec 6) (v : Word) : (s.trapIntoVS b c v).pc = trapVector s.cfg.xlen s.vstrap.tvec b c := rfl
@[simp] theorem trapIntoVS_elp (b : Bool) (c : BitVec 6) (v : Word) : (s.trapIntoVS b c v).elp = .noLpExpected := rfl
@[simp] theorem trapIntoVS_priv (b : Bool) (c : BitVec 6) (v : Word) : (s.trapIntoVS b c v).priv = .s := rfl
@[simp] theorem trapIntoVS_virt (b : Bool) (c : BitVec 6) (v : Word) : (s.trapIntoVS b c v).virt = s.virt := rfl
@[simp] theorem trapIntoVS_mfcfie (b : Bool) (c : BitVec 6) (v : Word) : (s.trapIntoVS b c v).mfcfie = s.mfcfie := rfl
@[simp] theorem trapIntoVS_menvcfg (b : Bool) (c : BitVec 6) (v : Word) : (s.trapIntoVS b c v).menvcfg = s.menvcfg := rfl
@[simp] theorem trapIntoVS_mstatus (b : Bool) (c : BitVec 6) (v : Word) : (s.trapIntoVS b c v).mstatus = s.mstatus := rfl
@[simp] theorem trapIntoVS_henvcfg (b : Bool) (c : BitVec 6) (v : Word) : (s.trapIntoVS b c v).henvcfg = s.henvcfg := rfl
@[simp] theorem trapIntoVS_hstatus (b : Bool) (c : BitVec 6) (v : Word) : (s.trapIntoVS b c v).hstatus = s.hstatus := rfl
@[simp] theorem trapIntoVS_vsstatus (b : Bool) (c : BitVec 6) (v : Word) : (s.trapIntoVS b c v).vsstatus = { s.vsstatus with spp := decide (s.priv = .s), spie := s.vsstatus.sie, sie := false, spelp := s.elp } := rfl
@[simp] theorem trapIntoVS_mtrap (b : Bool) (c : BitVec 6) (v : Word) : (s.trapIntoVS b c v).mtrap = s.mtrap := rfl
@[simp] theorem trapIntoVS_strap (b : Bool) (c : BitVec 6) (v : Word) : (s.trapIntoVS b c v).strap = s.strap := rfl
@[simp] theorem trapIntoVS_vstrap (b : Bool) (c : BitVec 6) (v : Word) : (s.trapIntoVS b c v).vstrap = recordTrap s s.vstrap b c v := rfl
@[simp] theorem trapIntoVS_medeleg (b : Bool) (c : BitVec 6) (v : Word) : (s.trapIntoVS b c v).medeleg = s.medeleg := rfl
@[simp] theorem trapIntoVS_mideleg (b : Bool) (c : BitVec 6) (v : Word) : (s.trapIntoVS b c v).mideleg = s.mideleg := rfl
@[simp] theorem trapIntoVS_hedeleg (b : Bool) (c : BitVec 6) (v : Word) : (s.trapIntoVS b c v).hedeleg = s.hedeleg := rfl
@[simp] theorem trapIntoVS_hideleg (b : Bool) (c : BitVec 6) (v : Word) : (s.trapIntoVS b c v).hideleg = s.hideleg := rfl
@[simp] theorem trapIntoVS_mie (b : Bool) (c : BitVec 6) (v : Word) : (s.trapIntoVS b c v).mie = s.mie := rfl
@[simp] theorem trapIntoVS_mip (b : Bool) (c : BitVec 6) (v : Word) : (s.trapIntoVS b c v).mip = s.mip := rfl
@[simp] theorem trapIntoVS_mem (b : Bool) (c : BitVec 6) (v : Word) : (s.trapIntoVS b c v).mem = s.mem := rfl
@[simp] theorem trapIntoVS_staleStores (b : Bool) (c : BitVec 6) (v : Word) : (s.trapIntoVS b c v).staleStores = s.staleStores := rfl
@[simp] theorem trapIntoVS_answers (b : Bool) (c : BitVec 6) (v : Word) : (s.trapIntoVS b c v).answers = s.answers := rfl
@[simp] theorem trapIntoVS_draws (b : Bool) (c : BitVec 6) (v : Word) : (s.trapIntoVS b c v).draws = s.draws := rfl

/-! ### `State.returnFromM` -/

@[simp] theorem returnFromM_cfg : (s.returnFromM).cfg = s.cfg := rfl
@[simp] theorem returnFromM_regs : (s.returnFromM).regs = s.regs := rfl
@[simp] theorem returnFromM_pc : (s.returnFromM).pc = epcView s.cfg s.mtrap.epc := rfl
@[simp] theorem returnFromM_elp : (s.returnFromM).elp = s.mstatus.mpelp := rfl
@[simp] theorem returnFromM_priv : (s.returnFromM).priv = s.mstatus.mpp := rfl
@[simp] theorem returnFromM_virt : (s.returnFromM).virt = (s.cfg.hasH && decide (s.mstatus.mpp ≠ .m) && s.mstatus.mpv) := rfl
@[simp] theorem returnFromM_mfcfie : (s.returnFromM).mfcfie = s.mfcfie := rfl
@[simp] theorem returnFromM_menvcfg : (s.returnFromM).menvcfg = s.menvcfg := rfl
@[simp] theorem returnFromM_mstatus : (s.returnFromM).mstatus = { s.mstatus with mpelp := .noLpExpected, mie := s.mstatus.mpie, mpie := true, mpp := lowestPriv s.cfg, mpv := false } := rfl
@[simp] theorem returnFromM_henvcfg : (s.returnFromM).henvcfg = s.henvcfg := rfl
@[simp] theorem returnFromM_hstatus : (s.returnFromM).hstatus = s.hstatus := rfl
@[simp] theorem returnFromM_vsstatus : (s.returnFromM).vsstatus = s.vsstatus := rfl
@[simp] theorem returnFromM_mtrap : (s.returnFromM).mtrap = s.mtrap := rfl
@[simp] theorem returnFromM_strap : (s.returnFromM).strap = s.strap := rfl
@[simp] theorem returnFromM_vstrap : (s.returnFromM).vstrap = s.vstrap := rfl
@[simp] theorem returnFromM_medeleg : (s.returnFromM).medeleg = s.medeleg := rfl
@[simp] theorem returnFromM_mideleg : (s.returnFromM).mideleg = s.mideleg := rfl
@[simp] theorem returnFromM_hedeleg : (s.returnFromM).hedeleg = s.hedeleg := rfl
@[simp] theorem returnFromM_hideleg : (s.returnFromM).hideleg = s.hideleg := rfl
@[simp] theorem returnFromM_mie : (s.returnFromM).mie = s.mie := rfl
@[simp] theorem returnFromM_mip : (s.returnFromM).mip = s.mip := rfl
@[simp] theorem returnFromM_mem : (s.returnFromM).mem = s.mem := rfl
@[simp] theorem returnFromM_staleStores : (s.returnFromM).staleStores = s.staleStores := rfl
@[simp] theorem returnFromM_answers : (s.returnFromM).answers = s.answers := rfl
@[simp] theorem returnFromM_draws : (s.returnFromM).draws = s.draws := rfl

/-! ### `State.returnFromS` -/

@[simp] theorem returnFromS_cfg : (s.returnFromS).cfg = s.cfg := rfl
@[simp] theorem returnFromS_regs : (s.returnFromS).regs = s.regs := rfl
@[simp] theorem returnFromS_pc : (s.returnFromS).pc = epcView s.cfg s.strap.epc := rfl
@[simp] theorem returnFromS_elp : (s.returnFromS).elp = s.mstatus.spelp := rfl
@[simp] theorem returnFromS_priv : (s.returnFromS).priv = privOfSpp s.cfg s.mstatus.spp := rfl
@[simp] theorem returnFromS_virt : (s.returnFromS).virt = (s.cfg.hasH && s.hstatus.spv) := rfl
@[simp] theorem returnFromS_mfcfie : (s.returnFromS).mfcfie = s.mfcfie := rfl
@[simp] theorem returnFromS_menvcfg : (s.returnFromS).menvcfg = s.menvcfg := rfl
@[simp] theorem returnFromS_mstatus : (s.returnFromS).mstatus = { s.mstatus with spelp := .noLpExpected, sie := s.mstatus.spie, spie := true, spp := false } := rfl
@[simp] theorem returnFromS_henvcfg : (s.returnFromS).henvcfg = s.henvcfg := rfl
@[simp] theorem returnFromS_hstatus : (s.returnFromS).hstatus = { s.hstatus with spv := false } := rfl
@[simp] theorem returnFromS_vsstatus : (s.returnFromS).vsstatus = s.vsstatus := rfl
@[simp] theorem returnFromS_mtrap : (s.returnFromS).mtrap = s.mtrap := rfl
@[simp] theorem returnFromS_strap : (s.returnFromS).strap = s.strap := rfl
@[simp] theorem returnFromS_vstrap : (s.returnFromS).vstrap = s.vstrap := rfl
@[simp] theorem returnFromS_medeleg : (s.returnFromS).medeleg = s.medeleg := rfl
@[simp] theorem returnFromS_mideleg : (s.returnFromS).mideleg = s.mideleg := rfl
@[simp] theorem returnFromS_hedeleg : (s.returnFromS).hedeleg = s.hedeleg := rfl
@[simp] theorem returnFromS_hideleg : (s.returnFromS).hideleg = s.hideleg := rfl
@[simp] theorem returnFromS_mie : (s.returnFromS).mie = s.mie := rfl
@[simp] theorem returnFromS_mip : (s.returnFromS).mip = s.mip := rfl
@[simp] theorem returnFromS_mem : (s.returnFromS).mem = s.mem := rfl
@[simp] theorem returnFromS_staleStores : (s.returnFromS).staleStores = s.staleStores := rfl
@[simp] theorem returnFromS_answers : (s.returnFromS).answers = s.answers := rfl
@[simp] theorem returnFromS_draws : (s.returnFromS).draws = s.draws := rfl

/-! ### `State.returnFromVS` -/

@[simp] theorem returnFromVS_cfg : (s.returnFromVS).cfg = s.cfg := rfl
@[simp] theorem returnFromVS_regs : (s.returnFromVS).regs = s.regs := rfl
@[simp] theorem returnFromVS_pc : (s.returnFromVS).pc = epcView s.cfg s.vstrap.epc := rfl
@[simp] theorem returnFromVS_elp : (s.returnFromVS).elp = s.vsstatus.spelp := rfl
@[simp] theorem returnFromVS_priv : (s.returnFromVS).priv = privOfSpp s.cfg s.vsstatus.spp := rfl
@[simp] theorem returnFromVS_virt : (s.returnFromVS).virt = s.virt := rfl
@[simp] theorem returnFromVS_mfcfie : (s.returnFromVS).mfcfie = s.mfcfie := rfl
@[simp] theorem returnFromVS_menvcfg : (s.returnFromVS).menvcfg = s.menvcfg := rfl
@[simp] theorem returnFromVS_mstatus : (s.returnFromVS).mstatus = s.mstatus := rfl
@[simp] theorem returnFromVS_henvcfg : (s.returnFromVS).henvcfg = s.henvcfg := rfl
@[simp] theorem returnFromVS_hstatus : (s.returnFromVS).hstatus = s.hstatus := rfl
@[simp] theorem returnFromVS_vsstatus : (s.returnFromVS).vsstatus = { s.vsstatus with spelp := .noLpExpected, sie := s.vsstatus.spie, spie := true, spp := false } := rfl
@[simp] theorem returnFromVS_mtrap : (s.returnFromVS).mtrap = s.mtrap := rfl
@[simp] theorem returnFromVS_strap : (s.returnFromVS).strap = s.strap := rfl
@[simp] theorem returnFromVS_vstrap : (s.returnFromVS).vstrap = s.vstrap := rfl
@[simp] theorem returnFromVS_medeleg : (s.returnFromVS).medeleg = s.medeleg := rfl
@[simp] theorem returnFromVS_mideleg : (s.returnFromVS).mideleg = s.mideleg := rfl
@[simp] theorem returnFromVS_hedeleg : (s.returnFromVS).hedeleg = s.hedeleg := rfl
@[simp] theorem returnFromVS_hideleg : (s.returnFromVS).hideleg = s.hideleg := rfl
@[simp] theorem returnFromVS_mie : (s.returnFromVS).mie = s.mie := rfl
@[simp] theorem returnFromVS_mip : (s.returnFromVS).mip = s.mip := rfl
@[simp] theorem returnFromVS_mem : (s.returnFromVS).mem = s.mem := rfl
@[simp] theorem returnFromVS_staleStores : (s.returnFromVS).staleStores = s.staleStores := rfl
@[simp] theorem returnFromVS_answers : (s.returnFromVS).answers = s.answers := rfl
@[simp] theorem returnFromVS_draws : (s.returnFromVS).draws = s.draws := rfl

end Sys2Proof.Machine
end

