-- ==== Sys2Proof/Laws/Word.lean ====
section
/-! SUPPORT. `Xlen.wrap` as arithmetic modulo `2^XLEN`, and bit by bit. -/

namespace Sys2Proof

theorem Xlen.bits_le (x : Xlen) : x.bits ≤ 64 := by cases x <;> decide

theorem Xlen.bits_ge (x : Xlen) : 32 ≤ x.bits := by cases x <;> decide

theorem Xlen.wrap_toNat (x : Xlen) (w : Word) : (x.wrap w).toNat = w.toNat % 2 ^ x.bits := by
  cases x with
  | x32 => simp [Xlen.wrap, Xlen.bits]; omega
  | x64 => simp [Xlen.wrap, Xlen.bits]; omega

theorem Xlen.wrap_toNat_lt (x : Xlen) (w : Word) : (x.wrap w).toNat < 2 ^ x.bits := by
  rw [Xlen.wrap_toNat]; exact Nat.mod_lt _ (by positivity)

theorem Xlen.wrap_getLsbD (x : Xlen) (w : Word) (i : Nat) :
    (x.wrap w).getLsbD i = (decide (i < x.bits) && w.getLsbD i) := by
  cases x with
  | x32 =>
    simp only [Xlen.wrap, Xlen.bits, BitVec.getLsbD_setWidth]
    by_cases h : i < 32
    · simp [h]; omega
    · simp [h]
  | x64 =>
    simp only [Xlen.wrap, Xlen.bits]
    by_cases h : i < 64
    · simp [h]
    · simp [h, BitVec.getLsbD_of_ge w i (by omega)]

@[simp] theorem Xlen.wrap_wrap (x : Xlen) (w : Word) : x.wrap (x.wrap w) = x.wrap w := by
  apply BitVec.eq_of_getLsbD_eq
  intro i _
  simp [Xlen.wrap_getLsbD]

@[simp] theorem Xlen.wrap_zero (x : Xlen) : x.wrap 0#64 = 0#64 := by cases x <;> decide

/-- A value fits in `XLEN` bits exactly when wrapping leaves it alone. -/
theorem Xlen.wrap_eq_iff (x : Xlen) (w : Word) : x.wrap w = w ↔ w.toNat < 2 ^ x.bits := by
  constructor
  · intro h; rw [← h]; exact x.wrap_toNat_lt w
  · intro h; apply BitVec.eq_of_toNat_eq; rw [Xlen.wrap_toNat, Nat.mod_eq_of_lt h]

/-- Masking keeps a value within `XLEN` bits. -/
theorem Xlen.wrap_and (x : Xlen) (w m : Word) : x.wrap (w &&& m) = x.wrap w &&& m := by
  apply BitVec.eq_of_getLsbD_eq
  intro i _
  simp [Xlen.wrap_getLsbD, Bool.and_assoc]

/-- Wrapping distributes over a union of bits. -/
theorem Xlen.wrap_or (x : Xlen) (a b : Word) : x.wrap (a ||| b) = x.wrap a ||| x.wrap b := by
  apply BitVec.eq_of_getLsbD_eq
  intro i _
  rw [Xlen.wrap_getLsbD, BitVec.getLsbD_or, BitVec.getLsbD_or, Xlen.wrap_getLsbD, Xlen.wrap_getLsbD, Bool.and_or_distrib_left]

/-- Wrapping a summand first does not change a wrapped sum. -/
theorem Xlen.wrap_add_wrap (x : Xlen) (a b : Word) : x.wrap (a + x.wrap b) = x.wrap (a + b) := by
  apply BitVec.eq_of_toNat_eq
  simp only [Xlen.wrap_toNat, BitVec.toNat_add]
  cases x with
  | x32 => simp [Xlen.bits]
  | x64 => simp [Xlen.bits]

end Sys2Proof
end

