-- ==== Sys2Proof/Laws/Registers.lean ====
section
/-! SUPPORT. Reading registers after each update (spec/10_state.md R8, R11). -/

namespace Sys2Proof.Machine

@[simp] theorem readReg_zero (s : State) : s.readReg 0 = 0#64 := rfl

/-- Two states with the same register file read the same. -/
theorem readReg_congr {s t : State} (h : t.regs = s.regs) (r : RegIdx) : t.readReg r = s.readReg r := by
  simp [State.readReg, h]

/-- Reading the written register: the value modulo `2^XLEN`, 0 for `x0`. -/
theorem readReg_writeReg_same (s : State) (i : RegIdx) (v : Word) :
    (s.writeReg i v).readReg i = if i = 0 then 0#64 else s.cfg.xlen.wrap v := by
  unfold State.readReg
  split <;> simp_all

/-- Reading another register. -/
theorem readReg_writeReg_of_ne (s : State) {i r : RegIdx} (v : Word) (h : r ≠ i) :
    (s.writeReg i v).readReg r = s.readReg r := by
  unfold State.readReg
  by_cases hi : i = 0
  · simp [hi]
  · have : (i : Nat) ≠ (r : Nat) := fun e => h (Fin.ext e.symm)
    simp [hi, Vector.getElem_set_ne, this]

/-- A write to `x0` changes nothing. -/
@[simp] theorem writeReg_zero (s : State) (v : Word) : s.writeReg 0 v = s := rfl

@[simp] theorem readReg_goto (s : State) (t : Word) (r : RegIdx) : (s.goto t).readReg r = s.readReg r := rfl
@[simp] theorem readReg_advance (s : State) (n : Nat) (r : RegIdx) : (s.advance n).readReg r = s.readReg r := rfl
@[simp] theorem readReg_setElp (s : State) (e : Elp) (r : RegIdx) : (s.setElp e).readReg r = s.readReg r := rfl
@[simp] theorem readReg_drawn (s : State) (r : RegIdx) : s.drawn.readReg r = s.readReg r := rfl
@[simp] theorem readReg_nextAnswer (s : State) (r : RegIdx) : s.nextAnswer.readReg r = s.readReg r := rfl
@[simp] theorem readReg_store32 (s : State) (a : Word) (v : BitVec 32) (r : RegIdx) :
    (s.store32 a v).readReg r = s.readReg r := rfl
@[simp] theorem readReg_syncFetch (s : State) (r : RegIdx) : s.syncFetch.readReg r = s.readReg r := rfl

end Sys2Proof.Machine
end

