-- ==== Sys2Proof/Laws/Trap.lean ====
section
/-! SUPPORT. What trap delivery can do, said once (spec/60_exceptions.md R153, R154), and the ways an exception is raised. -/

namespace Sys2Proof.Machine

/-! ### `State.takeTrap` -/

section TakeTrap

variable (s : State) (x : TrapTarget) (i : Bool) (c : BitVec 6) (tv : Word)

@[simp] theorem takeTrap_cfg : (s.takeTrap x i c tv).cfg = s.cfg := by cases x <;> rfl
@[simp] theorem takeTrap_regs : (s.takeTrap x i c tv).regs = s.regs := by cases x <;> rfl
@[simp] theorem takeTrap_elp : (s.takeTrap x i c tv).elp = .noLpExpected := by cases x <;> rfl
@[simp] theorem takeTrap_mfcfie : (s.takeTrap x i c tv).mfcfie = s.mfcfie := by cases x <;> rfl
@[simp] theorem takeTrap_menvcfg : (s.takeTrap x i c tv).menvcfg = s.menvcfg := by cases x <;> rfl
@[simp] theorem takeTrap_henvcfg : (s.takeTrap x i c tv).henvcfg = s.henvcfg := by cases x <;> rfl
@[simp] theorem takeTrap_medeleg : (s.takeTrap x i c tv).medeleg = s.medeleg := by cases x <;> rfl
@[simp] theorem takeTrap_mideleg : (s.takeTrap x i c tv).mideleg = s.mideleg := by cases x <;> rfl
@[simp] theorem takeTrap_hedeleg : (s.takeTrap x i c tv).hedeleg = s.hedeleg := by cases x <;> rfl
@[simp] theorem takeTrap_hideleg : (s.takeTrap x i c tv).hideleg = s.hideleg := by cases x <;> rfl
@[simp] theorem takeTrap_mie : (s.takeTrap x i c tv).mie = s.mie := by cases x <;> rfl
@[simp] theorem takeTrap_mip : (s.takeTrap x i c tv).mip = s.mip := by cases x <;> rfl
@[simp] theorem takeTrap_mem : (s.takeTrap x i c tv).mem = s.mem := by cases x <;> rfl
@[simp] theorem takeTrap_staleStores : (s.takeTrap x i c tv).staleStores = s.staleStores := by cases x <;> rfl
@[simp] theorem takeTrap_answers : (s.takeTrap x i c tv).answers = s.answers := by cases x <;> rfl
@[simp] theorem takeTrap_draws : (s.takeTrap x i c tv).draws = s.draws := by cases x <;> rfl
@[simp] theorem readReg_takeTrap (r : RegIdx) : (s.takeTrap x i c tv).readReg r = s.readReg r := by cases x <;> rfl

/-- The trap registers of the destination mode: all but `xtvec` are written. -/
theorem trapCsrsOf_takeTrap :
    trapCsrsOf (s.takeTrap x i c tv) x = recordTrap s (trapCsrsOf s x) i c tv := by cases x <;> rfl

/-- The handler's address comes from the destination mode's `xtvec`. -/
theorem takeTrap_pc :
    (s.takeTrap x i c tv).pc = trapVector s.cfg.xlen (trapCsrsOf s x).tvec i c := by cases x <;> rfl

/-- The handler's mode. -/
theorem takeTrap_priv : (s.takeTrap x i c tv).priv = (match x with | .m => .m | .hs => .s | .vs => .s) := by
  cases x <;> rfl

/-- The handler's virtualisation mode. -/
theorem takeTrap_virt : (s.takeTrap x i c tv).virt = (match x with | .m => false | .hs => false | .vs => s.virt) := by
  cases x <;> rfl

end TakeTrap

/-! ### Where a trap is taken (R159) -/

/-- An exception is taken into a mode that can take it: one that exists and is not less privileged. -/
theorem exceptionTarget_admitted (s : State) (c : BitVec 6) : s.admitsTarget (s.exceptionTarget c) = true := by
  unfold State.exceptionTarget
  split
  · assumption
  · rfl

/-- A mode that can take a trap exists, and is not less privileged than the present one. -/
theorem admitsTarget_cases {s : State} {x : TrapTarget} (h : s.admitsTarget x = true) :
    x = .m ∨ (x = .hs ∧ s.cfg.hasS = true ∧ s.priv ≠ .m) ∨
      (x = .vs ∧ s.cfg.hasH = true ∧ s.virt = true ∧ s.priv ≠ .m) := by
  cases x <;> simp_all [State.admitsTarget]

/-- What the announcement of an interrupt that is taken says (R157, R159). -/
theorem takenInterrupt_cases {s : State} {a : Announcement} (h : s.takenInterrupt = some a) :
    s.answer.interrupt = some a ∧ s.mip.getLsbD a.cause.toNat = true ∧ s.mie.getLsbD a.cause.toNat = true ∧
      s.routesInterrupt a = true ∧ s.admitsTarget a.target = true ∧ s.globallyEnabled a.target = true := by
  unfold State.takenInterrupt at h
  split at h
  · cases h
  · split at h
    · rename_i hi hc
      cases h
      simp only [Bool.and_eq_true] at hc
      exact ⟨hi, hc.1.1.1.1, hc.1.1.1.2, hc.1.1.2, hc.1.2, hc.2⟩
    · cases h

/-! ### The cause -/

/-- An exception's cause is its code. -/
theorem causeWord_exception (x : Xlen) (c : BitVec 6) : causeWord x false c = c.setWidth 64 := by simp [causeWord]

/-- An interrupt's cause is its code with the top bit of the register set. -/
theorem causeWord_toNat (x : Xlen) (i : Bool) (c : BitVec 6) :
    (causeWord x i c).toNat = (if i = true then 2 ^ (x.bits - 1) else 0) + c.toNat := by
  cases i
  · simp [causeWord]; omega
  · have hc := c.isLt
    cases x <;> simp only [causeWord, Xlen.bits, if_true, BitVec.toNat_or, BitVec.toNat_setWidth]
    · rw [Nat.mod_eq_of_lt (by omega : c.toNat < 2 ^ 64), show (1#64 <<< (32 - 1)).toNat = 2 ^ 31 * 1 from by decide,
        Nat.mul_comm, Nat.mul_comm 1, ← Nat.two_pow_add_eq_or_of_lt (by omega : c.toNat < 2 ^ 31)]; rfl
    · rw [Nat.mod_eq_of_lt (by omega : c.toNat < 2 ^ 64), show (1#64 <<< (64 - 1)).toNat = 2 ^ 63 * 1 from by decide,
        Nat.mul_comm, Nat.mul_comm 1, ← Nat.two_pow_add_eq_or_of_lt (by omega : c.toNat < 2 ^ 63)]; rfl

/-! ### `State.withDraws` -/

section WithDraws

variable (s : State) (n : Nat)

@[simp] theorem withDraws_cfg : (s.withDraws n).cfg = s.cfg := rfl
@[simp] theorem withDraws_regs : (s.withDraws n).regs = s.regs := rfl
@[simp] theorem withDraws_pc : (s.withDraws n).pc = s.pc := rfl
@[simp] theorem withDraws_elp : (s.withDraws n).elp = s.elp := rfl
@[simp] theorem withDraws_priv : (s.withDraws n).priv = s.priv := rfl
@[simp] theorem withDraws_virt : (s.withDraws n).virt = s.virt := rfl
@[simp] theorem withDraws_mfcfie : (s.withDraws n).mfcfie = s.mfcfie := rfl
@[simp] theorem withDraws_menvcfg : (s.withDraws n).menvcfg = s.menvcfg := rfl
@[simp] theorem withDraws_mstatus : (s.withDraws n).mstatus = s.mstatus := rfl
@[simp] theorem withDraws_henvcfg : (s.withDraws n).henvcfg = s.henvcfg := rfl
@[simp] theorem withDraws_hstatus : (s.withDraws n).hstatus = s.hstatus := rfl
@[simp] theorem withDraws_vsstatus : (s.withDraws n).vsstatus = s.vsstatus := rfl
@[simp] theorem withDraws_mtrap : (s.withDraws n).mtrap = s.mtrap := rfl
@[simp] theorem withDraws_strap : (s.withDraws n).strap = s.strap := rfl
@[simp] theorem withDraws_vstrap : (s.withDraws n).vstrap = s.vstrap := rfl
@[simp] theorem withDraws_medeleg : (s.withDraws n).medeleg = s.medeleg := rfl
@[simp] theorem withDraws_mideleg : (s.withDraws n).mideleg = s.mideleg := rfl
@[simp] theorem withDraws_hedeleg : (s.withDraws n).hedeleg = s.hedeleg := rfl
@[simp] theorem withDraws_hideleg : (s.withDraws n).hideleg = s.hideleg := rfl
@[simp] theorem withDraws_mie : (s.withDraws n).mie = s.mie := rfl
@[simp] theorem withDraws_mip : (s.withDraws n).mip = s.mip := rfl
@[simp] theorem withDraws_mem : (s.withDraws n).mem = s.mem := rfl
@[simp] theorem withDraws_staleStores : (s.withDraws n).staleStores = s.staleStores := rfl
@[simp] theorem withDraws_draws : (s.withDraws n).draws = n := rfl
@[simp] theorem withDraws_answers : (s.withDraws n).answers = s.answers := rfl
@[simp] theorem readReg_withDraws (r : RegIdx) : (s.withDraws n).readReg r = s.readReg r := rfl
@[simp] theorem savedElp_withDraws (x : TrapTarget) : savedElp (s.withDraws n) x = savedElp s x := by cases x <;> rfl
@[simp] theorem trapCsrsOf_withDraws (x : TrapTarget) : trapCsrsOf (s.withDraws n) x = trapCsrsOf s x := by
  cases x <;> rfl

end WithDraws

/-! ### `State.nextAnswer` in the terms of a trap -/

section NextAnswer

variable (s : State)

@[simp] theorem savedElp_nextAnswer (x : TrapTarget) : savedElp s.nextAnswer x = savedElp s x := by cases x <;> rfl
@[simp] theorem trapCsrsOf_nextAnswer (x : TrapTarget) : trapCsrsOf s.nextAnswer x = trapCsrsOf s x := by cases x <;> rfl

/-- The pending bits are always a word of `XLEN` bits. -/
theorem nextAnswer_mip_fits : s.cfg.xlen.wrap s.nextAnswer.mip = s.nextAnswer.mip := Xlen.wrap_wrap _ _

end NextAnswer

/-! ### The ways to raise an exception -/

/-- An exception with an unstated trap value is a trap with a free one, and one more value drawn. -/
theorem exceptFree_eq (s : State) (e : Exception) :
    s.exceptFree e =
      (s.takeTrap (s.exceptionTarget (exceptionCode e)) false (exceptionCode e) s.freeValue).withDraws (s.draws + 1) := by
  show State.takeTrap s.drawn (s.exceptionTarget (exceptionCode e)) false (exceptionCode e) s.freeValue = _
  cases s.exceptionTarget (exceptionCode e) <;> rfl

/-- `raise` is a next state: a trap. -/
theorem raise_eq (e : Exception) (tv : Word) (s : State) :
    raise e tv s = .next (s.takeTrap (s.exceptionTarget (exceptionCode e)) false (exceptionCode e) tv) := rfl

/-- An exception with a stated trap value draws nothing. -/
theorem raise_eq_draws (e : Exception) (tv : Word) (s : State) :
    raise e tv s = .next
      ((s.takeTrap (s.exceptionTarget (exceptionCode e)) false (exceptionCode e) tv).withDraws s.draws) := by
  rw [raise_eq]
  cases s.exceptionTarget (exceptionCode e) <;> rfl

/-- `raiseFree` is a next state: a trap with a free value. -/
theorem raiseFree_eq (e : Exception) (s : State) :
    raiseFree e s = .next
      ((s.takeTrap (s.exceptionTarget (exceptionCode e)) false (exceptionCode e) s.freeValue).withDraws (s.draws + 1)) := by
  rw [raiseFree, exceptFree_eq]

/-- `raise` with the code of the exception named. -/
theorem raise_code {e : Exception} {c : BitVec 6} (h : exceptionCode e = c) (tv : Word) (s : State) :
    raise e tv s = .next (s.takeTrap (s.exceptionTarget c) false c tv) := by
  subst h; exact raise_eq e tv s

/-- `raiseFree` with the code of the exception named. -/
theorem raiseFree_code {e : Exception} {c : BitVec 6} (h : exceptionCode e = c) (s : State) :
    raiseFree e s = .next
      ((s.takeTrap (s.exceptionTarget c) false c s.freeValue).withDraws (s.draws + 1)) := by
  subst h; exact raiseFree_eq e s

/-- Illegal-instruction by an instruction: cause 2 with the stated trap value. -/
theorem raiseIllegal_eq (i : Instr) (s : State) :
    raiseIllegal i s = .next (s.takeTrap (s.exceptionTarget 2) false 2 (s.illegalTval (encode i))) := rfl

/-- Virtual-instruction: cause 22. -/
theorem raiseVirtual_eq (s : State) :
    raiseVirtual s = .next
      ((s.takeTrap (s.exceptionTarget 22) false 22 s.freeValue).withDraws (s.draws + 1)) :=
  raiseFree_eq .virtualInstruction s

/-- Illegal-instruction with unsettled instruction bits: cause 2. -/
theorem raiseIllegalUnsettled_eq (s : State) :
    ∃ tv n, raiseIllegalUnsettled s = .next
      ((s.takeTrap (s.exceptionTarget 2) false 2 tv).withDraws n) := by
  unfold raiseIllegalUnsettled
  split
  · exact ⟨0#64, s.draws, raise_eq_draws .illegalInstruction 0#64 s⟩
  · exact ⟨s.freeValue, s.draws + 1, raiseFree_eq .illegalInstruction s⟩

/-- Illegal-instruction on whatever was fetched: cause 2. -/
theorem raiseIllegalFetched_eq (f : Fetched) (s : State) :
    ∃ tv n, raiseIllegalFetched f s = .next
      ((s.takeTrap (s.exceptionTarget 2) false 2 tv).withDraws n) := by
  unfold raiseIllegalFetched
  split
  · exact ⟨_, _, raise_eq_draws .illegalInstruction _ s⟩
  · split
    · exact ⟨_, _, raise_eq_draws .illegalInstruction _ s⟩
    · exact raiseIllegalUnsettled_eq s
  · exact raiseIllegalUnsettled_eq s

/-- The trap value of an illegal-instruction exception is at most 32 bits wide, so every `xtval` holds it whole. -/
theorem illegalTval_fits (c : Code) (s : State) : s.cfg.xlen.wrap (s.illegalTval c) = s.illegalTval c := by
  rw [Xlen.wrap_eq_iff]
  unfold State.illegalTval
  have h := s.cfg.xlen.bits_ge
  have hp : 2 ^ 32 ≤ 2 ^ s.cfg.xlen.bits := Nat.pow_le_pow_right (by decide) h
  split
  · exact Nat.lt_of_lt_of_le (by decide) hp
  · rw [BitVec.toNat_setWidth, Nat.mod_eq_of_lt (by have := c.bits.isLt; omega)]
    exact Nat.lt_of_lt_of_le c.bits.isLt hp

/-- Illegal-instruction on a fetched encoding whose bits are settled records them as `XTVAL_ILLEGAL` says. -/
theorem raiseIllegalFetched_code (c : Code) (s : State) (h : s.cfg.hasC = true ∨ ∃ w, c = .word w) :
    raiseIllegalFetched (.code c) s =
      .next (s.takeTrap (s.exceptionTarget 2) false 2 (s.illegalTval c)) := by
  cases c with
  | word w => rfl
  | half b =>
    have hc : s.cfg.hasC = true := h.resolve_right (by simp)
    simp only [raiseIllegalFetched, hc, if_true]
    rfl

/-- A trap taken in `s`, with any count of free values drawn, is a `TrapFrom s`. -/
theorem trapFrom_takeTrap (s : State) (x : TrapTarget) (i : Bool) (c : BitVec 6) (tv : Word) (n : Nat) :
    TrapFrom s ((s.takeTrap x i c tv).withDraws n) :=
  ⟨x, i, c, tv, rfl⟩

/-- An exception with a stated trap value is a `TrapFrom`. -/
theorem trapFrom_except (s : State) (e : Exception) (tv : Word) : TrapFrom s (s.except e tv) :=
  ⟨s.exceptionTarget (exceptionCode e), false, exceptionCode e, tv, rfl⟩

/-- A step that takes a trap is a `TrapStep`. -/
theorem trapStep_takeTrap (s : State) (x : TrapTarget) (i : Bool) (c : BitVec 6) (tv : Word) (n : Nat) :
    TrapStep s ((s.takeTrap x i c tv).withDraws n).nextAnswer := ⟨_, trapFrom_takeTrap s x i c tv n, rfl⟩

end Sys2Proof.Machine
end

