-- ==== Sys2Proof/Laws/Csr.lean ====
section
/-! SUPPORT. Control registers: the bits of a status word, what a CSR write leaves alone, and what a CSR instruction can do
(spec/10_state.md R31 to R34, spec/43_host_subset.md R138 to R144). -/

namespace Sys2Proof.Machine

/-! ### Bits of the words -/

/-- A bit of a packed word is set when some listed field at that position is. -/
theorem packBits_getLsbD : ∀ (l : List (Nat × Bool)) {p : Nat}, p < 64 →
    (packBits l).getLsbD p = l.any (fun f => f.1 == p && f.2)
  | [], _, _ => by simp [packBits]
  | (q, b) :: l, p, h => by
    rw [packBits, BitVec.getLsbD_or, packBits_getLsbD l h, List.any_cons]
    congr 1
    cases b
    · simp
    · simp only [if_true, Bool.and_true]
      rw [BitVec.getLsbD_shiftLeft]
      by_cases hq : q = p
      · subst hq; simp [h]
      · by_cases hlt : p < q
        · simp [hlt, hq]
        · have : p - q ≠ 0 := by omega
          simp [hq, hlt, h, BitVec.getLsbD_one, this]

/-- The low half, and with `XLEN` = 64 everything, of a 64-bit register comes from the written value (R31). -/
theorem mergeLow_getLsbD (x : Xlen) (old v : Word) {p : Nat} (h : p < 64) :
    (mergeLow x old v).getLsbD p = if p < x.bits then v.getLsbD p else old.getLsbD p := by
  cases x
  · show BitVec.getLsbD (w := 32 + 32) (old.extractLsb' 32 32 ++ v.extractLsb' 0 32) p = _
    rw [BitVec.getLsbD_append, BitVec.getLsbD_extractLsb', BitVec.getLsbD_extractLsb']
    by_cases hp : p < 32
    · simp [hp, Xlen.bits]
    · have h2 : p - 32 < 32 := by omega
      have h3 : 32 + (p - 32) = p := by omega
      simp [hp, h2, h3, Xlen.bits]
  · simp [mergeLow, Xlen.bits, h]

/-- The high half of a 64-bit register comes from the value written to its `h` register (R31). -/
theorem mergeHigh_getLsbD (old v : Word) {p : Nat} (h : p < 64) :
    (mergeHigh old v).getLsbD p = if p < 32 then old.getLsbD p else v.getLsbD (p - 32) := by
  show BitVec.getLsbD (w := 32 + 32) (v.extractLsb' 0 32 ++ old.extractLsb' 0 32) p = _
  rw [BitVec.getLsbD_append, BitVec.getLsbD_extractLsb', BitVec.getLsbD_extractLsb']
  by_cases hp : p < 32
  · simp [hp]
  · have h2 : p - 32 < 32 := by omega
    simp [hp, h2]

/-- The `h` register shows positions 32 to 63 at position minus 32 (R31). -/
theorem upperHalf_getLsbD (w : Word) {p : Nat} (h : p < 32) : (upperHalf w).getLsbD p = w.getLsbD (p + 32) := by
  have : p < 64 := by omega
  rw [upperHalf, BitVec.getLsbD_setWidth, BitVec.getLsbD_extractLsb', Nat.add_comm]
  simp [h, this]

/-- Both halves of a 64-bit register fit in 32 bits. -/
theorem wrap_upperHalf (x : Xlen) (w : Word) : x.wrap (upperHalf w) = upperHalf w := by
  rw [Xlen.wrap_eq_iff]
  have : (upperHalf w).toNat < 2 ^ 32 := by
    rw [upperHalf, BitVec.toNat_setWidth]
    exact Nat.lt_of_le_of_lt (Nat.mod_le _ _) (w.extractLsb' 32 32).isLt
  cases x <;> simp only [Xlen.bits] <;> omega

/-! ### What a CSR write leaves alone -/

section WriteCsr

variable (s : State) (r : Csr) (v : Word)

/-- A write of `mstatus` changes `mstatus` and possibly the count of free values. -/
theorem putMstatus_eq (w : Word) :
    ∃ p n, s.putMstatus w = { s with mstatus := .fieldsFrom s.cfg w p, draws := n } := by
  unfold State.putMstatus
  split
  · exact ⟨_, s.draws, rfl⟩
  · exact ⟨_, s.draws + 1, rfl⟩

/-- A CSR write changes only control registers and the count of free values. -/
theorem writeCsr_eq :
    ∃ t : State, s.writeCsr r v =
      { t with
        cfg := s.cfg, regs := s.regs, pc := s.pc, elp := s.elp, priv := s.priv, virt := s.virt, mem := s.mem,
        staleStores := s.staleStores, answers := s.answers } := by
  refine ⟨s.writeCsr r v, ?_⟩
  have h : ∀ w, s.putMstatus w =
      { s.putMstatus w with
        cfg := s.cfg, regs := s.regs, pc := s.pc, elp := s.elp, priv := s.priv, virt := s.virt, mem := s.mem,
        staleStores := s.staleStores, answers := s.answers } := by
    intro w
    obtain ⟨p, n, h⟩ := putMstatus_eq s w
    rw [h]
  cases r <;> first | exact h _ | rfl

@[simp] theorem writeCsr_cfg : (s.writeCsr r v).cfg = s.cfg := by obtain ⟨t, h⟩ := writeCsr_eq s r v; rw [h]
@[simp] theorem writeCsr_regs : (s.writeCsr r v).regs = s.regs := by obtain ⟨t, h⟩ := writeCsr_eq s r v; rw [h]
@[simp] theorem writeCsr_pc : (s.writeCsr r v).pc = s.pc := by obtain ⟨t, h⟩ := writeCsr_eq s r v; rw [h]
@[simp] theorem writeCsr_elp : (s.writeCsr r v).elp = s.elp := by obtain ⟨t, h⟩ := writeCsr_eq s r v; rw [h]
@[simp] theorem writeCsr_priv : (s.writeCsr r v).priv = s.priv := by obtain ⟨t, h⟩ := writeCsr_eq s r v; rw [h]
@[simp] theorem writeCsr_virt : (s.writeCsr r v).virt = s.virt := by obtain ⟨t, h⟩ := writeCsr_eq s r v; rw [h]
@[simp] theorem writeCsr_mem : (s.writeCsr r v).mem = s.mem := by obtain ⟨t, h⟩ := writeCsr_eq s r v; rw [h]
@[simp] theorem writeCsr_staleStores : (s.writeCsr r v).staleStores = s.staleStores := by
  obtain ⟨t, h⟩ := writeCsr_eq s r v; rw [h]
@[simp] theorem writeCsr_answers : (s.writeCsr r v).answers = s.answers := by
  obtain ⟨t, h⟩ := writeCsr_eq s r v; rw [h]
@[simp] theorem readReg_writeCsr (i : RegIdx) : (s.writeCsr r v).readReg i = s.readReg i :=
  readReg_congr (writeCsr_regs s r v) i

end WriteCsr

/-! ### CSR instructions -/

/-- What a CSR instruction can do (R138 to R144). -/
theorem csrInstruction_cases {i : Instr} {rd : RegIdx} {n : BitVec 12} {write : Bool} {f : Word → Word} {s t : State}
    (h : csrInstruction i rd n write f s = .next t) :
    (s.csrAccess n write = .illegal ∧ raiseIllegal i s = .next t) ∨
    (s.csrAccess n write = .virtual ∧ raiseVirtual s = .next t) ∨
    (∃ r, s.csrAccess n write = .reaches r ∧
      t = ((if write = true then s.writeCsr r (f (s.readCsr r)) else s).writeReg rd (s.readCsr r)).advance 4) := by
  unfold csrInstruction at h
  split at h
  · rename_i ha; exact .inl ⟨ha, h⟩
  · rename_i ha; exact .inr (.inl ⟨ha, h⟩)
  · rename_i r ha; exact .inr (.inr ⟨r, ha, by simpa using h.symm⟩)

/-- A CSR instruction that may access its register. -/
theorem csrInstruction_reaches {i : Instr} {rd : RegIdx} {n : BitVec 12} {write : Bool} {f : Word → Word} {s : State}
    {r : Csr} (h : s.csrAccess n write = .reaches r) :
    csrInstruction i rd n write f s =
      .next (((if write = true then s.writeCsr r (f (s.readCsr r)) else s).writeReg rd (s.readCsr r)).advance 4) := by
  simp only [csrInstruction, h]

end Sys2Proof.Machine
end

