-- ==== Sys2Proof/Laws/Encoding.lean ====
section
/-! SUPPORT. Each format of spec/30_encoding.md R62 bit by bit, and each field of it read back. -/

namespace Sys2Proof

/-- One branch at a time of a long chain of tests, such as `decodeWord`. -/
theorem ite_eq_elim {α : Type} {c : Prop} [Decidable c] {a b x : α} {P : Prop} (h : (if c then a else b) = x)
    (h1 : c → a = x → P) (h2 : ¬c → b = x → P) : P := by
  by_cases hc : c
  · exact h1 hc (by rwa [if_pos hc] at h)
  · exact h2 hc (by rwa [if_neg hc] at h)

/-! ### `uType` -/

theorem getLsbD_uType (imm : BitVec 20) (rd : BitVec 5) (op : BitVec 7)
    (i : Nat) (h : i < 32) :
    (uType imm rd op).getLsbD i =
      if i < 7 then op.getLsbD i else
      if i < 12 then rd.getLsbD (i - 7) else
      imm.getLsbD (i - 12) := by
  show BitVec.getLsbD (w := 20 + 5 + 7) (imm ++ rd ++ op) i = _
  simp only [BitVec.getLsbD_append]
  interval_cases i <;> rfl

theorem opcodeOf_uType (imm : BitVec 20) (rd : BitVec 5) (op : BitVec 7) :
    opcodeOf (uType imm rd op) = op := by
  apply BitVec.eq_of_getLsbD_eq
  intro i hi
  rw [opcodeOf, BitVec.getLsbD_extractLsb', getLsbD_uType imm rd op _ (by omega)]
  interval_cases i <;> rfl

theorem rdOf_uType (imm : BitVec 20) (rd : BitVec 5) (op : BitVec 7) :
    rdOf (uType imm rd op) = rd.toFin := by
  have h : (uType imm rd op).extractLsb' 7 5 = rd := by
    apply BitVec.eq_of_getLsbD_eq
    intro i hi
    rw [BitVec.getLsbD_extractLsb', getLsbD_uType imm rd op _ (by omega)]
    interval_cases i <;> rfl
  exact congrArg BitVec.toFin h

theorem uImmOf_uType (imm : BitVec 20) (rd : BitVec 5) (op : BitVec 7) :
    uImmOf (uType imm rd op) = imm := by
  apply BitVec.eq_of_getLsbD_eq
  intro i hi
  rw [uImmOf, BitVec.getLsbD_extractLsb', getLsbD_uType imm rd op _ (by omega)]
  interval_cases i <;> rfl

/-! ### `iType` -/

theorem getLsbD_iType (imm : BitVec 12) (rs1 : BitVec 5) (f3 : BitVec 3) (rd : BitVec 5) (op : BitVec 7)
    (i : Nat) (h : i < 32) :
    (iType imm rs1 f3 rd op).getLsbD i =
      if i < 7 then op.getLsbD i else
      if i < 12 then rd.getLsbD (i - 7) else
      if i < 15 then f3.getLsbD (i - 12) else
      if i < 20 then rs1.getLsbD (i - 15) else
      imm.getLsbD (i - 20) := by
  show BitVec.getLsbD (w := 12 + 5 + 3 + 5 + 7) (imm ++ rs1 ++ f3 ++ rd ++ op) i = _
  simp only [BitVec.getLsbD_append]
  interval_cases i <;> rfl

theorem opcodeOf_iType (imm : BitVec 12) (rs1 : BitVec 5) (f3 : BitVec 3) (rd : BitVec 5) (op : BitVec 7) :
    opcodeOf (iType imm rs1 f3 rd op) = op := by
  apply BitVec.eq_of_getLsbD_eq
  intro i hi
  rw [opcodeOf, BitVec.getLsbD_extractLsb', getLsbD_iType imm rs1 f3 rd op _ (by omega)]
  interval_cases i <;> rfl

theorem rdOf_iType (imm : BitVec 12) (rs1 : BitVec 5) (f3 : BitVec 3) (rd : BitVec 5) (op : BitVec 7) :
    rdOf (iType imm rs1 f3 rd op) = rd.toFin := by
  have h : (iType imm rs1 f3 rd op).extractLsb' 7 5 = rd := by
    apply BitVec.eq_of_getLsbD_eq
    intro i hi
    rw [BitVec.getLsbD_extractLsb', getLsbD_iType imm rs1 f3 rd op _ (by omega)]
    interval_cases i <;> rfl
  exact congrArg BitVec.toFin h

theorem funct3Of_iType (imm : BitVec 12) (rs1 : BitVec 5) (f3 : BitVec 3) (rd : BitVec 5) (op : BitVec 7) :
    funct3Of (iType imm rs1 f3 rd op) = f3 := by
  apply BitVec.eq_of_getLsbD_eq
  intro i hi
  rw [funct3Of, BitVec.getLsbD_extractLsb', getLsbD_iType imm rs1 f3 rd op _ (by omega)]
  interval_cases i <;> rfl

theorem rs1Of_iType (imm : BitVec 12) (rs1 : BitVec 5) (f3 : BitVec 3) (rd : BitVec 5) (op : BitVec 7) :
    rs1Of (iType imm rs1 f3 rd op) = rs1.toFin := by
  have h : (iType imm rs1 f3 rd op).extractLsb' 15 5 = rs1 := by
    apply BitVec.eq_of_getLsbD_eq
    intro i hi
    rw [BitVec.getLsbD_extractLsb', getLsbD_iType imm rs1 f3 rd op _ (by omega)]
    interval_cases i <;> rfl
  exact congrArg BitVec.toFin h

theorem iImmOf_iType (imm : BitVec 12) (rs1 : BitVec 5) (f3 : BitVec 3) (rd : BitVec 5) (op : BitVec 7) :
    iImmOf (iType imm rs1 f3 rd op) = imm := by
  apply BitVec.eq_of_getLsbD_eq
  intro i hi
  rw [iImmOf, BitVec.getLsbD_extractLsb', getLsbD_iType imm rs1 f3 rd op _ (by omega)]
  interval_cases i <;> rfl

theorem uimmOf_iType (imm : BitVec 12) (rs1 : BitVec 5) (f3 : BitVec 3) (rd : BitVec 5) (op : BitVec 7) :
    uimmOf (iType imm rs1 f3 rd op) = rs1 := by
  apply BitVec.eq_of_getLsbD_eq
  intro i hi
  rw [uimmOf, BitVec.getLsbD_extractLsb', getLsbD_iType imm rs1 f3 rd op _ (by omega)]
  interval_cases i <;> rfl

/-! ### `rType` -/

theorem getLsbD_rType (f7 : BitVec 7) (rs2 rs1 : BitVec 5) (f3 : BitVec 3) (rd : BitVec 5) (op : BitVec 7)
    (i : Nat) (h : i < 32) :
    (rType f7 rs2 rs1 f3 rd op).getLsbD i =
      if i < 7 then op.getLsbD i else
      if i < 12 then rd.getLsbD (i - 7) else
      if i < 15 then f3.getLsbD (i - 12) else
      if i < 20 then rs1.getLsbD (i - 15) else
      if i < 25 then rs2.getLsbD (i - 20) else
      f7.getLsbD (i - 25) := by
  show BitVec.getLsbD (w := 7 + 5 + 5 + 3 + 5 + 7) (f7 ++ rs2 ++ rs1 ++ f3 ++ rd ++ op) i = _
  simp only [BitVec.getLsbD_append]
  interval_cases i <;> rfl

theorem opcodeOf_rType (f7 : BitVec 7) (rs2 rs1 : BitVec 5) (f3 : BitVec 3) (rd : BitVec 5) (op : BitVec 7) :
    opcodeOf (rType f7 rs2 rs1 f3 rd op) = op := by
  apply BitVec.eq_of_getLsbD_eq
  intro i hi
  rw [opcodeOf, BitVec.getLsbD_extractLsb', getLsbD_rType f7 rs2 rs1 f3 rd op _ (by omega)]
  interval_cases i <;> rfl

theorem rdOf_rType (f7 : BitVec 7) (rs2 rs1 : BitVec 5) (f3 : BitVec 3) (rd : BitVec 5) (op : BitVec 7) :
    rdOf (rType f7 rs2 rs1 f3 rd op) = rd.toFin := by
  have h : (rType f7 rs2 rs1 f3 rd op).extractLsb' 7 5 = rd := by
    apply BitVec.eq_of_getLsbD_eq
    intro i hi
    rw [BitVec.getLsbD_extractLsb', getLsbD_rType f7 rs2 rs1 f3 rd op _ (by omega)]
    interval_cases i <;> rfl
  exact congrArg BitVec.toFin h

theorem funct3Of_rType (f7 : BitVec 7) (rs2 rs1 : BitVec 5) (f3 : BitVec 3) (rd : BitVec 5) (op : BitVec 7) :
    funct3Of (rType f7 rs2 rs1 f3 rd op) = f3 := by
  apply BitVec.eq_of_getLsbD_eq
  intro i hi
  rw [funct3Of, BitVec.getLsbD_extractLsb', getLsbD_rType f7 rs2 rs1 f3 rd op _ (by omega)]
  interval_cases i <;> rfl

theorem rs1Of_rType (f7 : BitVec 7) (rs2 rs1 : BitVec 5) (f3 : BitVec 3) (rd : BitVec 5) (op : BitVec 7) :
    rs1Of (rType f7 rs2 rs1 f3 rd op) = rs1.toFin := by
  have h : (rType f7 rs2 rs1 f3 rd op).extractLsb' 15 5 = rs1 := by
    apply BitVec.eq_of_getLsbD_eq
    intro i hi
    rw [BitVec.getLsbD_extractLsb', getLsbD_rType f7 rs2 rs1 f3 rd op _ (by omega)]
    interval_cases i <;> rfl
  exact congrArg BitVec.toFin h

theorem rs2Of_rType (f7 : BitVec 7) (rs2 rs1 : BitVec 5) (f3 : BitVec 3) (rd : BitVec 5) (op : BitVec 7) :
    rs2Of (rType f7 rs2 rs1 f3 rd op) = rs2.toFin := by
  have h : (rType f7 rs2 rs1 f3 rd op).extractLsb' 20 5 = rs2 := by
    apply BitVec.eq_of_getLsbD_eq
    intro i hi
    rw [BitVec.getLsbD_extractLsb', getLsbD_rType f7 rs2 rs1 f3 rd op _ (by omega)]
    interval_cases i <;> rfl
  exact congrArg BitVec.toFin h

theorem funct7Of_rType (f7 : BitVec 7) (rs2 rs1 : BitVec 5) (f3 : BitVec 3) (rd : BitVec 5) (op : BitVec 7) :
    funct7Of (rType f7 rs2 rs1 f3 rd op) = f7 := by
  apply BitVec.eq_of_getLsbD_eq
  intro i hi
  rw [funct7Of, BitVec.getLsbD_extractLsb', getLsbD_rType f7 rs2 rs1 f3 rd op _ (by omega)]
  interval_cases i <;> rfl

/-! ### `sType` -/

theorem getLsbD_sType (imm : BitVec 12) (rs2 rs1 : BitVec 5) (f3 : BitVec 3) (op : BitVec 7)
    (i : Nat) (h : i < 32) :
    (sType imm rs2 rs1 f3 op).getLsbD i =
      if i < 7 then op.getLsbD i else
      if i < 12 then imm.getLsbD (i - 7) else
      if i < 15 then f3.getLsbD (i - 12) else
      if i < 20 then rs1.getLsbD (i - 15) else
      if i < 25 then rs2.getLsbD (i - 20) else
      imm.getLsbD (i - 20) := by
  show BitVec.getLsbD (w := 7 + 5 + 5 + 3 + 5 + 7) (imm.extractLsb' 5 7 ++ rs2 ++ rs1 ++ f3 ++ imm.extractLsb' 0 5 ++ op) i = _
  simp only [BitVec.getLsbD_append, BitVec.getLsbD_extractLsb']
  interval_cases i <;> rfl

theorem opcodeOf_sType (imm : BitVec 12) (rs2 rs1 : BitVec 5) (f3 : BitVec 3) (op : BitVec 7) :
    opcodeOf (sType imm rs2 rs1 f3 op) = op := by
  apply BitVec.eq_of_getLsbD_eq
  intro i hi
  rw [opcodeOf, BitVec.getLsbD_extractLsb', getLsbD_sType imm rs2 rs1 f3 op _ (by omega)]
  interval_cases i <;> rfl

theorem funct3Of_sType (imm : BitVec 12) (rs2 rs1 : BitVec 5) (f3 : BitVec 3) (op : BitVec 7) :
    funct3Of (sType imm rs2 rs1 f3 op) = f3 := by
  apply BitVec.eq_of_getLsbD_eq
  intro i hi
  rw [funct3Of, BitVec.getLsbD_extractLsb', getLsbD_sType imm rs2 rs1 f3 op _ (by omega)]
  interval_cases i <;> rfl

theorem rs1Of_sType (imm : BitVec 12) (rs2 rs1 : BitVec 5) (f3 : BitVec 3) (op : BitVec 7) :
    rs1Of (sType imm rs2 rs1 f3 op) = rs1.toFin := by
  have h : (sType imm rs2 rs1 f3 op).extractLsb' 15 5 = rs1 := by
    apply BitVec.eq_of_getLsbD_eq
    intro i hi
    rw [BitVec.getLsbD_extractLsb', getLsbD_sType imm rs2 rs1 f3 op _ (by omega)]
    interval_cases i <;> rfl
  exact congrArg BitVec.toFin h

theorem rs2Of_sType (imm : BitVec 12) (rs2 rs1 : BitVec 5) (f3 : BitVec 3) (op : BitVec 7) :
    rs2Of (sType imm rs2 rs1 f3 op) = rs2.toFin := by
  have h : (sType imm rs2 rs1 f3 op).extractLsb' 20 5 = rs2 := by
    apply BitVec.eq_of_getLsbD_eq
    intro i hi
    rw [BitVec.getLsbD_extractLsb', getLsbD_sType imm rs2 rs1 f3 op _ (by omega)]
    interval_cases i <;> rfl
  exact congrArg BitVec.toFin h

theorem getLsbD_sImmOf (w : BitVec 32) (i : Nat) (h : i < 12) :
    (sImmOf w).getLsbD i =
      if i < 5 then w.getLsbD (i + 7) else w.getLsbD (i + 20) := by
  show BitVec.getLsbD (w := 7 + 5) (w.extractLsb' 25 7 ++ w.extractLsb' 7 5) i = _
  simp only [BitVec.getLsbD_append, BitVec.getLsbD_extractLsb']
  interval_cases i <;> rfl

theorem sImmOf_sType (imm : BitVec 12) (rs2 rs1 : BitVec 5) (f3 : BitVec 3) (op : BitVec 7) :
    sImmOf (sType imm rs2 rs1 f3 op) = imm := by
  apply BitVec.eq_of_getLsbD_eq
  intro i hi
  rw [getLsbD_sImmOf _ _ hi]
  have h := fun k hk => getLsbD_sType imm rs2 rs1 f3 op k hk
  interval_cases i <;> first | exact (h _ (by norm_num))

/-! ### `bType` -/

theorem getLsbD_bType (imm : BitVec 13) (rs2 rs1 : BitVec 5) (f3 : BitVec 3) (op : BitVec 7)
    (i : Nat) (h : i < 32) :
    (bType imm rs2 rs1 f3 op).getLsbD i =
      if i < 7 then op.getLsbD i else
      if i < 8 then imm.getLsbD (i + 4) else
      if i < 12 then imm.getLsbD (i - 7) else
      if i < 15 then f3.getLsbD (i - 12) else
      if i < 20 then rs1.getLsbD (i - 15) else
      if i < 25 then rs2.getLsbD (i - 20) else
      if i < 31 then imm.getLsbD (i - 20) else
      imm.getLsbD (i - 19) := by
  show BitVec.getLsbD (w := 1 + 6 + 5 + 5 + 3 + 4 + 1 + 7) (imm.extractLsb' 12 1 ++ imm.extractLsb' 5 6 ++ rs2 ++ rs1 ++ f3 ++ imm.extractLsb' 1 4 ++ imm.extractLsb' 11 1 ++ op) i = _
  simp only [BitVec.getLsbD_append, BitVec.getLsbD_extractLsb']
  interval_cases i <;> rfl

theorem opcodeOf_bType (imm : BitVec 13) (rs2 rs1 : BitVec 5) (f3 : BitVec 3) (op : BitVec 7) :
    opcodeOf (bType imm rs2 rs1 f3 op) = op := by
  apply BitVec.eq_of_getLsbD_eq
  intro i hi
  rw [opcodeOf, BitVec.getLsbD_extractLsb', getLsbD_bType imm rs2 rs1 f3 op _ (by omega)]
  interval_cases i <;> rfl

theorem funct3Of_bType (imm : BitVec 13) (rs2 rs1 : BitVec 5) (f3 : BitVec 3) (op : BitVec 7) :
    funct3Of (bType imm rs2 rs1 f3 op) = f3 := by
  apply BitVec.eq_of_getLsbD_eq
  intro i hi
  rw [funct3Of, BitVec.getLsbD_extractLsb', getLsbD_bType imm rs2 rs1 f3 op _ (by omega)]
  interval_cases i <;> rfl

theorem rs1Of_bType (imm : BitVec 13) (rs2 rs1 : BitVec 5) (f3 : BitVec 3) (op : BitVec 7) :
    rs1Of (bType imm rs2 rs1 f3 op) = rs1.toFin := by
  have h : (bType imm rs2 rs1 f3 op).extractLsb' 15 5 = rs1 := by
    apply BitVec.eq_of_getLsbD_eq
    intro i hi
    rw [BitVec.getLsbD_extractLsb', getLsbD_bType imm rs2 rs1 f3 op _ (by omega)]
    interval_cases i <;> rfl
  exact congrArg BitVec.toFin h

theorem rs2Of_bType (imm : BitVec 13) (rs2 rs1 : BitVec 5) (f3 : BitVec 3) (op : BitVec 7) :
    rs2Of (bType imm rs2 rs1 f3 op) = rs2.toFin := by
  have h : (bType imm rs2 rs1 f3 op).extractLsb' 20 5 = rs2 := by
    apply BitVec.eq_of_getLsbD_eq
    intro i hi
    rw [BitVec.getLsbD_extractLsb', getLsbD_bType imm rs2 rs1 f3 op _ (by omega)]
    interval_cases i <;> rfl
  exact congrArg BitVec.toFin h

theorem getLsbD_bImmOf (w : BitVec 32) (i : Nat) (h : i < 13) :
    (bImmOf w).getLsbD i =
      if i < 1 then false else if i < 5 then w.getLsbD (i + 7) else if i < 11 then w.getLsbD (i + 20) else
      if i < 12 then w.getLsbD 7 else w.getLsbD 31 := by
  show BitVec.getLsbD (w := 1 + 1 + 6 + 4 + 1) (w.extractLsb' 31 1 ++ w.extractLsb' 7 1 ++ w.extractLsb' 25 6 ++ w.extractLsb' 8 4 ++ 0b0#1) i = _
  simp only [BitVec.getLsbD_append, BitVec.getLsbD_extractLsb']
  interval_cases i <;> rfl

theorem bImmOf_bType (imm : BitVec 13) (rs2 rs1 : BitVec 5) (f3 : BitVec 3) (op : BitVec 7) (h0 : imm.getLsbD 0 = false) :
    bImmOf (bType imm rs2 rs1 f3 op) = imm := by
  apply BitVec.eq_of_getLsbD_eq
  intro i hi
  rw [getLsbD_bImmOf _ _ hi]
  have h := fun k hk => getLsbD_bType imm rs2 rs1 f3 op k hk
  interval_cases i <;> first | exact h0.symm | exact (h _ (by norm_num))

/-! ### `jType` -/

theorem getLsbD_jType (imm : BitVec 21) (rd : BitVec 5) (op : BitVec 7)
    (i : Nat) (h : i < 32) :
    (jType imm rd op).getLsbD i =
      if i < 7 then op.getLsbD i else
      if i < 12 then rd.getLsbD (i - 7) else
      if i < 20 then imm.getLsbD i else
      if i < 21 then imm.getLsbD (i - 9) else
      if i < 31 then imm.getLsbD (i - 20) else
      imm.getLsbD (i - 11) := by
  show BitVec.getLsbD (w := 1 + 10 + 1 + 8 + 5 + 7) (imm.extractLsb' 20 1 ++ imm.extractLsb' 1 10 ++ imm.extractLsb' 11 1 ++ imm.extractLsb' 12 8 ++ rd ++ op) i = _
  simp only [BitVec.getLsbD_append, BitVec.getLsbD_extractLsb']
  interval_cases i <;> rfl

theorem opcodeOf_jType (imm : BitVec 21) (rd : BitVec 5) (op : BitVec 7) :
    opcodeOf (jType imm rd op) = op := by
  apply BitVec.eq_of_getLsbD_eq
  intro i hi
  rw [opcodeOf, BitVec.getLsbD_extractLsb', getLsbD_jType imm rd op _ (by omega)]
  interval_cases i <;> rfl

theorem rdOf_jType (imm : BitVec 21) (rd : BitVec 5) (op : BitVec 7) :
    rdOf (jType imm rd op) = rd.toFin := by
  have h : (jType imm rd op).extractLsb' 7 5 = rd := by
    apply BitVec.eq_of_getLsbD_eq
    intro i hi
    rw [BitVec.getLsbD_extractLsb', getLsbD_jType imm rd op _ (by omega)]
    interval_cases i <;> rfl
  exact congrArg BitVec.toFin h

theorem getLsbD_jImmOf (w : BitVec 32) (i : Nat) (h : i < 21) :
    (jImmOf w).getLsbD i =
      if i < 1 then false else if i < 11 then w.getLsbD (i + 20) else if i < 12 then w.getLsbD 20 else
      if i < 20 then w.getLsbD i else w.getLsbD 31 := by
  show BitVec.getLsbD (w := 1 + 8 + 1 + 10 + 1) (w.extractLsb' 31 1 ++ w.extractLsb' 12 8 ++ w.extractLsb' 20 1 ++ w.extractLsb' 21 10 ++ 0b0#1) i = _
  simp only [BitVec.getLsbD_append, BitVec.getLsbD_extractLsb']
  interval_cases i <;> rfl

theorem jImmOf_jType (imm : BitVec 21) (rd : BitVec 5) (op : BitVec 7) (h0 : imm.getLsbD 0 = false) :
    jImmOf (jType imm rd op) = imm := by
  apply BitVec.eq_of_getLsbD_eq
  intro i hi
  rw [getLsbD_jImmOf _ _ hi]
  have h := fun k hk => getLsbD_jType imm rd op k hk
  interval_cases i <;> first | exact h0.symm | exact (h _ (by norm_num))

/-! ### Every word is the encoding of its fields -/

theorem regBits_rdOf (w : BitVec 32) : regBits (rdOf w) = w.extractLsb' 7 5 := rfl
theorem regBits_rs1Of (w : BitVec 32) : regBits (rs1Of w) = w.extractLsb' 15 5 := rfl
theorem regBits_rs2Of (w : BitVec 32) : regBits (rs2Of w) = w.extractLsb' 20 5 := rfl

theorem uType_fields (w : BitVec 32) :
    uType (uImmOf w) (regBits (rdOf w)) (opcodeOf w) = w := by
  apply BitVec.eq_of_getLsbD_eq
  intro i hi
  rw [getLsbD_uType _ _ _ _ hi]
  simp only [regBits_rdOf, opcodeOf, uImmOf, BitVec.getLsbD_extractLsb']
  interval_cases i <;> rfl 

theorem iType_fields (w : BitVec 32) :
    iType (iImmOf w) (regBits (rs1Of w)) (funct3Of w) (regBits (rdOf w)) (opcodeOf w) = w := by
  apply BitVec.eq_of_getLsbD_eq
  intro i hi
  rw [getLsbD_iType _ _ _ _ _ _ hi]
  simp only [regBits_rdOf, regBits_rs1Of, opcodeOf, funct3Of, iImmOf, BitVec.getLsbD_extractLsb']
  interval_cases i <;> rfl 

theorem rType_fields (w : BitVec 32) :
    rType (funct7Of w) (regBits (rs2Of w)) (regBits (rs1Of w)) (funct3Of w) (regBits (rdOf w)) (opcodeOf w) = w := by
  apply BitVec.eq_of_getLsbD_eq
  intro i hi
  rw [getLsbD_rType _ _ _ _ _ _ _ hi]
  simp only [regBits_rdOf, regBits_rs1Of, regBits_rs2Of, opcodeOf, funct3Of, funct7Of, BitVec.getLsbD_extractLsb']
  interval_cases i <;> rfl 

theorem sType_fields (w : BitVec 32) :
    sType (sImmOf w) (regBits (rs2Of w)) (regBits (rs1Of w)) (funct3Of w) (opcodeOf w) = w := by
  apply BitVec.eq_of_getLsbD_eq
  intro i hi
  rw [getLsbD_sType _ _ _ _ _ _ hi]
  simp only [regBits_rs1Of, regBits_rs2Of, opcodeOf, funct3Of, BitVec.getLsbD_extractLsb']
  interval_cases i <;> first | rfl | exact getLsbD_sImmOf w _ (by norm_num)

theorem bType_fields (w : BitVec 32) :
    bType (bImmOf w) (regBits (rs2Of w)) (regBits (rs1Of w)) (funct3Of w) (opcodeOf w) = w := by
  apply BitVec.eq_of_getLsbD_eq
  intro i hi
  rw [getLsbD_bType _ _ _ _ _ _ hi]
  simp only [regBits_rs1Of, regBits_rs2Of, opcodeOf, funct3Of, BitVec.getLsbD_extractLsb']
  interval_cases i <;> first | rfl | exact getLsbD_bImmOf w _ (by norm_num)

theorem jType_fields (w : BitVec 32) :
    jType (jImmOf w) (regBits (rdOf w)) (opcodeOf w) = w := by
  apply BitVec.eq_of_getLsbD_eq
  intro i hi
  rw [getLsbD_jType _ _ _ _ hi]
  simp only [regBits_rdOf, opcodeOf, BitVec.getLsbD_extractLsb']
  interval_cases i <;> first | rfl | exact getLsbD_jImmOf w _ (by norm_num)

/-! ### The other fields -/

theorem funct6Of_iType (f6 shamt : BitVec 6) (rs1 : BitVec 5) (f3 : BitVec 3) (rd : BitVec 5) (op : BitVec 7) :
    funct6Of (iType (f6 ++ shamt) rs1 f3 rd op) = f6 := by
  apply BitVec.eq_of_getLsbD_eq
  intro i hi
  have h : (f6 ++ shamt : BitVec 12).getLsbD (i + 6) = f6.getLsbD i := by
    show BitVec.getLsbD (w := 6 + 6) (f6 ++ shamt) (i + 6) = _
    rw [BitVec.getLsbD_append]; simp
  rw [← h]
  rw [funct6Of, BitVec.getLsbD_extractLsb', getLsbD_iType (f6 ++ shamt) rs1 f3 rd op _ (by omega)]
  interval_cases i <;> rfl

theorem shamtOf_iType (f6 shamt : BitVec 6) (rs1 : BitVec 5) (f3 : BitVec 3) (rd : BitVec 5) (op : BitVec 7) :
    shamtOf (iType (f6 ++ shamt) rs1 f3 rd op) = shamt := by
  apply BitVec.eq_of_getLsbD_eq
  intro i hi
  have h : (f6 ++ shamt : BitVec 12).getLsbD i = shamt.getLsbD i := by
    show BitVec.getLsbD (w := 6 + 6) (f6 ++ shamt) i = _
    rw [BitVec.getLsbD_append]; simp [hi]
  rw [← h]
  rw [shamtOf, BitVec.getLsbD_extractLsb', getLsbD_iType (f6 ++ shamt) rs1 f3 rd op _ (by omega)]
  interval_cases i <;> rfl

/-- The three sets of `fence` read back from its immediate. -/
theorem fenceSets_iType (fm pred succ : BitVec 4) (rs1 : BitVec 5) (f3 : BitVec 3) (rd : BitVec 5) (op : BitVec 7) :
    (iType (fm ++ pred ++ succ) rs1 f3 rd op).extractLsb' 28 4 = fm ∧
    (iType (fm ++ pred ++ succ) rs1 f3 rd op).extractLsb' 24 4 = pred ∧
    (iType (fm ++ pred ++ succ) rs1 f3 rd op).extractLsb' 20 4 = succ := by
  have h : ∀ i, i < 12 → (fm ++ pred ++ succ : BitVec 12).getLsbD i =
      if i < 4 then succ.getLsbD i else if i < 8 then pred.getLsbD (i - 4) else fm.getLsbD (i - 8) := by
    intro i hi
    show BitVec.getLsbD (w := 4 + 4 + 4) (fm ++ pred ++ succ) i = _
    simp only [BitVec.getLsbD_append]
    interval_cases i <;> rfl
  refine ⟨?_, ?_, ?_⟩ <;>
  · apply BitVec.eq_of_getLsbD_eq
    intro i hi
    rw [BitVec.getLsbD_extractLsb', getLsbD_iType (fm ++ pred ++ succ) rs1 f3 rd op _ (by omega)]
    interval_cases i <;> exact h _ (by norm_num)

@[simp] theorem regBits_toFin (r : RegIdx) : (regBits r).toFin = r := rfl

/-- Register bits are zero exactly for `x0`. -/
theorem regBits_toFin_zero : (0#5 : BitVec 5).toFin = (0 : RegIdx) := rfl

end Sys2Proof
end

