-- ==== Sys2Proof/Laws/Step.lean ====
section
/-! SUPPORT. What a jump and a step can do, said once (spec/60_exceptions.md R155). -/

namespace Sys2Proof.Machine

/-- What the end of a jump can do (R42, R84, R128). -/
theorem jumpTo_cases {s t' t : State} {w : Word} (h : jumpTo s t' w = .next t) :
    (s.targetMisaligned w = true ∧ raise .instructionAddressMisaligned w s = .next t) ∨
    (s.targetMisaligned w = false ∧ t = t'.goto w) := by
  unfold jumpTo at h
  split at h
  · exact .inl ⟨‹_›, h⟩
  · exact .inr ⟨eq_false_of_ne_true ‹_›, by simpa using h.symm⟩

/-- What a branch can do (R128 to R131). -/
theorem branchIf_cases {b : Bool} {off : BitVec 13} {s t : State} (h : branchIf b off s = .next t) :
    (b = true ∧ jumpTo s s (s.pcPlus off) = .next t) ∨ (b = false ∧ t = s.advance 4) := by
  unfold branchIf at h
  split at h
  · exact .inl ⟨‹_›, h⟩
  · exact .inr ⟨eq_false_of_ne_true ‹_›, by simpa using h.symm⟩

/-- A next state of a mapped outcome comes from a next state. -/
theorem mapNext_eq_next {f : State → State} {r : Result} {t : State} :
    mapNext f r = .next t ↔ ∃ t', r = .next t' ∧ t = f t' := by
  cases r <;> simp [mapNext, eq_comm]

/-- What a step can do, in the order of R155: an interrupt, a fetch exception, a landing pad fault, an illegal encoding, or the
decoded instruction; each uses up one answer of the host. -/
theorem step_cases {s t : State} (h : step s = .next t) :
    (∃ a, s.takenInterrupt = some a ∧ t = (s.takeTrap a.target true a.cause 0#64).nextAnswer) ∨
    (∃ e, s.takenInterrupt = none ∧ s.fetch = .error e ∧ t = (s.exceptFree (fetchExceptionOf e)).nextAnswer) ∨
    (∃ f t', s.takenInterrupt = none ∧ s.fetch = .ok f ∧ s.landingPadMissing f = true ∧
      raiseIllegalFetched f s = .next t' ∧ t = t'.nextAnswer) ∨
    (∃ f d t', s.takenInterrupt = none ∧ s.fetch = .ok f ∧ s.landingPadMissing f = false ∧
      decodeFetched s.cfg f = .error d ∧ raiseIllegalFetched f s = .next t' ∧ t = t'.nextAnswer) ∨
    (∃ i t', Executes s i ∧ exec i s = .next t' ∧ t = t'.nextAnswer) := by
  obtain ⟨t', h', rfl⟩ := mapNext_eq_next.1 h
  unfold stepAnswered at h'
  split at h'
  · rename_i a ha
    exact .inl ⟨a, ha, by rw [Host.Outcome.next.inj h']⟩
  · rename_i ha
    split at h'
    · rename_i e he
      exact .inr (.inl ⟨e, ha, he, by rw [← Host.Outcome.next.inj h']⟩)
    · rename_i f hf
      split at h'
      · exact .inr (.inr (.inl ⟨f, t', ha, hf, ‹_›, h', rfl⟩))
      · rename_i hm
        have hm : s.landingPadMissing f = false := by simpa using hm
        unfold execFetched at h'
        split at h'
        · rename_i i hi
          exact .inr (.inr (.inr (.inr ⟨i, t', ⟨ha, f, hf, hm, hi⟩, h', rfl⟩)))
        · rename_i d hd
          exact .inr (.inr (.inr (.inl ⟨f, d, t', ha, hf, hm, hd, h', rfl⟩)))

end Sys2Proof.Machine
end

