-- ==== Sys2Proof/Laws/Exec.lean ====
section
/-! SUPPORT. What an instruction can do, said once for all of them: a trap, a register result with a new `pc` and `ELP`, a store,
a fetch fence, a trap return, or a CSR write (spec/60_exceptions.md R155 steps 4 and 5). -/

namespace Sys2Proof.Machine

/-- Bit 0 of a sum. -/
theorem getLsbD_add_zero (a b : Word) : (a + b).getLsbD 0 = (a.getLsbD 0 ^^ b.getLsbD 0) := by
  rw [BitVec.getLsbD_add (by omega)]; simp [BitVec.carry, Nat.mod_one]

/-- Bit 0 survives wrapping. -/
theorem wrap_getLsbD_zero (x : Xlen) (w : Word) : (x.wrap w).getLsbD 0 = w.getLsbD 0 := by
  have := x.bits_ge
  rw [Xlen.wrap_getLsbD]
  simp only [show 0 < x.bits by omega, decide_true, Bool.true_and]

/-- Bit 0 survives sign extension. -/
theorem sext_getLsbD_zero {n : Nat} (x : Xlen) (v : BitVec n) (h : 0 < n) : (x.sext v).getLsbD 0 = v.getLsbD 0 := by
  rw [Xlen.sext, wrap_getLsbD_zero, BitVec.getLsbD_signExtend]
  simp [h]

/-- A branch target keeps the alignment of `pc` when its offset is a multiple of 2. -/
theorem pcPlus_getLsbD_zero {n : Nat} (s : State) (off : BitVec n) (hn : 0 < n) (h : off.getLsbD 0 = false)
    (hp : s.pc.getLsbD 0 = false) : (s.pcPlus off).getLsbD 0 = false := by
  rw [State.pcPlus, wrap_getLsbD_zero, getLsbD_add_zero, State.sext, sext_getLsbD_zero _ _ hn, h, hp]; rfl

/-- A cleared bit 0 is 0. -/
theorem clearBit0_getLsbD_zero (w : Word) : (clearBit0 w).getLsbD 0 = false := by
  rw [clearBit0, BitVec.getLsbD_and]; simp

/-- What the form "register result, `ELP`, next `pc`" says of the new `ELP` and the new `pc`. -/
structure Plain (i : Instr) (s : State) (e : Elp) (p : Word) : Prop where
  elp : e = s.elp ∨ e = .noLpExpected ∨ (e = .lpExpected ∧ expectsLandingPad i = true ∧ s.xfcfie = true)
  pc : p = s.pc + 4#64 ∨
    (s.targetMisaligned p = false ∧ (i.wf = true → s.pc.getLsbD 0 = false → p.getLsbD 0 = false))

/-- The forms that the next state of an instruction can have. -/
inductive ExecForm (i : Instr) (s : State) : State → Prop where
  | trap (c : BitVec 6) (tv : Word) (n : Nat) :
    ExecForm i s ((s.takeTrap (s.exceptionTarget c) false c tv).withDraws n)
  | plain (rd : RegIdx) (v : Word) (e : Elp) (p : Word) (h : Plain i s e p) :
    ExecForm i s (((s.writeReg rd v).setElp e).goto p)
  | store (a : Word) (v : BitVec 32) : ExecForm i s ((s.store32 a v).advance 4)
  | fenceI : ExecForm i s (s.syncFetch.advance 4)
  | mret (h : i = .mret) (hp : s.priv = .m) : ExecForm i s s.returnFromM
  | sret (h : i = .sret) (hs : s.cfg.hasS = true) (hv : s.virt = false) (hp : s.priv ≠ .u) : ExecForm i s s.returnFromS
  | vsret (h : i = .sret) (hs : s.cfg.hasS = true) (hv : s.virt = true) (hp : s.priv ≠ .u) : ExecForm i s s.returnFromVS
  | csrWrite (rd : RegIdx) (n : BitVec 12) (r : Csr) (v : Word) (h : s.csrAccess n true = .reaches r) :
    ExecForm i s (((s.writeCsr r v).writeReg rd (s.readCsr r)).advance 4)

section

variable {i : Instr} {s t : State}

theorem execForm_raise {e : Exception} {tv : Word} (h : raise e tv s = .next t) : ExecForm i s t := by
  rw [raise_eq_draws] at h; cases h; exact .trap ..

theorem execForm_raiseFree {e : Exception} (h : raiseFree e s = .next t) : ExecForm i s t := by
  rw [raiseFree_eq] at h; cases h; exact .trap ..

theorem execForm_raiseIllegal {j : Instr} (h : raiseIllegal j s = .next t) : ExecForm i s t := execForm_raise h

theorem execForm_unsettled (h : raiseIllegalUnsettled s = .next t) : ExecForm i s t := by
  obtain ⟨tv, n, he⟩ := raiseIllegalUnsettled_eq s
  rw [he] at h; cases h; exact .trap ..

/-- No register written: the same form with `x0`. -/
theorem execForm_noWrite {e : Elp} {p : Word} (h : Plain i s e p) : ExecForm i s ((s.setElp e).goto p) :=
  .plain 0 0#64 e p h

theorem execForm_advance (i : Instr) (s : State) : ExecForm i s (s.advance 4) :=
  execForm_noWrite ⟨.inl rfl, .inl rfl⟩

theorem execForm_writeAdvance (i : Instr) (s : State) (rd : RegIdx) (v : Word) :
    ExecForm i s ((s.writeReg rd v).advance 4) :=
  .plain rd v s.elp _ ⟨.inl rfl, .inl rfl⟩

/-- `ELP` after a register-indirect jump. -/
theorem elpAfterJump_cases {k : JumpKind} {rd rs1 : RegIdx} (hi : expectsLandingPad i = isLpExpected k rd rs1) :
    elpAfterJump s k rd rs1 = s.elp ∨ elpAfterJump s k rd rs1 = .noLpExpected ∨
      (elpAfterJump s k rd rs1 = .lpExpected ∧ expectsLandingPad i = true ∧ s.xfcfie = true) := by
  unfold elpAfterJump
  split
  · rename_i h
    simp only [Bool.and_eq_true] at h
    exact .inr (.inr ⟨rfl, hi.trans h.2, h.1⟩)
  · exact .inl rfl

theorem execForm_jumpTo {rd : RegIdx} {v : Word} {e : Elp} {w : Word}
    (he : e = s.elp ∨ e = .noLpExpected ∨ (e = .lpExpected ∧ expectsLandingPad i = true ∧ s.xfcfie = true))
    (hw : i.wf = true → s.pc.getLsbD 0 = false → w.getLsbD 0 = false)
    (h : jumpTo s ((s.writeReg rd v).setElp e) w = .next t) : ExecForm i s t := by
  rcases jumpTo_cases h with ⟨_, h⟩ | ⟨hm, rfl⟩
  · exact execForm_raise h
  · exact .plain rd v e w ⟨he, .inr ⟨hm, hw⟩⟩

theorem execForm_branchIf {b : Bool} {off : BitVec 13} (hw : i.wf = true → off.getLsbD 0 = false)
    (h : branchIf b off s = .next t) : ExecForm i s t := by
  rcases branchIf_cases h with ⟨_, h⟩ | ⟨_, rfl⟩
  · exact execForm_jumpTo (rd := 0) (v := 0#64) (e := s.elp) (.inl rfl)
      (fun a b => pcPlus_getLsbD_zero s off (by omega) (hw a) b) h
  · exact execForm_advance i s

theorem execForm_csr {j : Instr} {rd : RegIdx} {n : BitVec 12} {write : Bool} {f : Word → Word}
    (h : csrInstruction j rd n write f s = .next t) : ExecForm i s t := by
  rcases csrInstruction_cases h with ⟨_, h⟩ | ⟨_, h⟩ | ⟨r, ha, rfl⟩
  · exact execForm_raiseIllegal h
  · exact execForm_raiseFree h
  · cases write
    · exact execForm_writeAdvance ..
    · exact .csrWrite rd n r _ ha

end

/-- What an instruction can do. -/
theorem exec_form {i : Instr} {s t : State} (h : exec i s = .next t) : ExecForm i s t := by
  cases i with
  | lpad lpl =>
    simp only [exec, execLpad] at h
    split at h
    · split at h
      · exact execForm_raiseIllegal h
      · split at h
        · cases h; exact execForm_noWrite ⟨.inr (.inl rfl), .inl rfl⟩
        · exact execForm_raiseIllegal h
    · cases h; exact execForm_advance ..
  | auipc | lui | addi | add => cases h; exact execForm_writeAdvance ..
  | jal rd off =>
    exact execForm_jumpTo (e := s.elp) (.inl rfl)
      (fun a b => pcPlus_getLsbD_zero s off (by omega) (by simpa [Instr.wf] using a) b) h
  | jalr rd rs1 imm =>
    exact execForm_jumpTo (elpAfterJump_cases (k := .jalr) (rd := rd) (rs1 := rs1) rfl) (fun _ _ => clearBit0_getLsbD_zero _) h
  | beq _ _ off | bne _ _ off | bltu _ _ off | bgeu _ _ off =>
    exact execForm_branchIf (fun a => by simpa [Instr.wf] using a) h
  | lw rd rs1 imm =>
    simp only [exec, execLw] at h
    split at h
    · exact execForm_raise h
    · split at h
      · exact execForm_raiseFree h
      · cases h; exact execForm_writeAdvance ..
  | sw rs2 rs1 imm =>
    simp only [exec, execSw] at h
    split at h
    · exact execForm_raise h
    · split at h
      · exact execForm_raiseFree h
      · cases h; exact .store ..
  | slli rd rs1 shamt =>
    simp only [exec, execSlli] at h
    split at h
    · exact execForm_raiseIllegal h
    · cases h; exact execForm_writeAdvance ..
  | fence => cases h; exact execForm_advance ..
  | fenceI => cases h; exact .fenceI
  | ecall => exact execForm_raise h
  | ebreak => exact execForm_raiseFree h
  | sret =>
    simp only [exec, execSret] at h
    split at h
    · exact execForm_raiseIllegal h
    · rename_i hs
      split at h
      · rename_i hv
        split at h
        · exact execForm_raiseFree h
        · split at h
          · exact execForm_raiseFree h
          · cases h; exact .vsret rfl (by simpa using hs) hv ‹_›
      · rename_i hv
        split at h
        · exact execForm_raiseIllegal h
        · split at h
          · exact execForm_raiseIllegal h
          · cases h; exact .sret rfl (by simpa using hs) (by simpa using hv) ‹_›
  | mret =>
    simp only [exec, execMret] at h
    split at h
    · cases h; exact .mret rfl ‹_›
    · exact execForm_raiseIllegal h
  | wfi =>
    simp only [exec, execWfi] at h
    split at h
    · exact execForm_raiseIllegal h
    · cases h; exact execForm_advance ..
  | csrrw rd rs1 csr => simp only [exec, execCsrrw] at h; exact execForm_csr h
  | csrrs rd rs1 csr => simp only [exec, execCsrrs] at h; exact execForm_csr h
  | csrrc rd rs1 csr => simp only [exec, execCsrrc] at h; exact execForm_csr h
  | csrrwi rd uimm csr => simp only [exec, execCsrrwi] at h; exact execForm_csr h
  | csrrsi rd uimm csr => simp only [exec, execCsrrsi] at h; exact execForm_csr h
  | csrrci rd uimm csr => simp only [exec, execCsrrci] at h; exact execForm_csr h
  | cJr rs1 =>
    simp only [exec, execCJr] at h
    split at h
    · rename_i hc
      cases h
      exact execForm_noWrite (i := .cJr rs1)
        ⟨elpAfterJump_cases (k := .cJr) (rd := 0) (rs1 := rs1) rfl,
          .inr ⟨by simp [State.targetMisaligned, hc], fun _ _ => clearBit0_getLsbD_zero _⟩⟩
    · exact execForm_unsettled h
  | cJalr rs1 =>
    simp only [exec, execCJalr] at h
    split at h
    · rename_i hc
      cases h
      exact .plain 1 (s.pc + 2#64) _ _
        ⟨elpAfterJump_cases (k := .cJalr) (rd := 1) (rs1 := rs1) rfl,
          .inr ⟨by simp [State.targetMisaligned, hc], fun _ _ => clearBit0_getLsbD_zero _⟩⟩
    · exact execForm_unsettled h

/-- What a step can do: take a trap into a mode that can take it, or execute an instruction; then the host's answer is used up. -/
theorem step_form {s t : State} (h : step s = .next t) :
    ∃ u, t = u.nextAnswer ∧
      ((∃ x b c tv n, s.admitsTarget x = true ∧ u = (s.takeTrap x b c tv).withDraws n) ∨
       ∃ i, Executes s i ∧ ExecForm i s u) := by
  have ad := exceptionTarget_admitted s
  rcases step_cases h with ⟨a, ha, rfl⟩ | ⟨e, _, _, rfl⟩ | ⟨f, u, _, _, _, hr, rfl⟩ | ⟨f, d, u, _, _, _, _, hr, rfl⟩ |
    ⟨i, u, hx, he, rfl⟩
  · exact ⟨_, rfl, .inl ⟨a.target, true, a.cause, 0#64, s.draws, (takenInterrupt_cases ha).2.2.2.2.1,
      by cases a.target <;> rfl⟩⟩
  · exact ⟨_, rfl, .inl ⟨_, _, _, _, _, ad _, exceptFree_eq s _⟩⟩
  · obtain ⟨tv, n, he⟩ := raiseIllegalFetched_eq f s
    rw [he] at hr; cases hr
    exact ⟨_, rfl, .inl ⟨_, _, _, _, _, ad _, rfl⟩⟩
  · obtain ⟨tv, n, he⟩ := raiseIllegalFetched_eq f s
    rw [he] at hr; cases hr
    exact ⟨_, rfl, .inl ⟨_, _, _, _, _, ad _, rfl⟩⟩
  · exact ⟨_, rfl, .inr ⟨i, hx, exec_form he⟩⟩

end Sys2Proof.Machine
end

