-- ==== Sys2Proof/Laws/Memory.lean ====
section
/-! SUPPORT. The laws of memory: read after write, every operation keeps the canonical form, and equal reads of canonical
memories mean equal memories. -/

namespace Sys2Proof.Machine

theorem Memory.wfFrom_mono {m : Memory} : ∀ {lo hi : Nat}, lo ≤ hi → m.wfFrom hi = true → m.wfFrom lo = true := by
  cases m with
  | nil => intros; rfl
  | cons c m => intro lo hi h hm; simp only [Memory.wfFrom, Bool.and_eq_true, decide_eq_true_eq] at hm ⊢; exact ⟨⟨by omega, hm.1.2⟩, hm.2⟩

/-- An address below all listed ones reads as unlisted. -/
theorem Memory.read_of_lt : ∀ {m : Memory} {lo a : Nat}, m.wfFrom lo = true → a < lo → m.read a = Memory.unlisted
  | [], _, _, _, _ => rfl
  | (k, b) :: m, lo, a, h, ha => by
    simp only [Memory.wfFrom, Bool.and_eq_true, decide_eq_true_eq] at h
    have hk : a ≠ k := by omega
    simp only [Memory.read, hk, if_false]
    exact Memory.read_of_lt h.2 (by omega)

/-- What `cons` reads: nothing before it lists the address. -/
theorem Memory.read_cons_same {m : Memory} {a : Nat} {b : Byte} (h : m.read a = Memory.unlisted) :
    (Memory.cons a b m).read a = b := by
  unfold Memory.cons
  split
  · simp_all
  · simp [Memory.read]

theorem Memory.read_cons_ne {m : Memory} {a x : Nat} {b : Byte} (h : x ≠ a) : (Memory.cons a b m).read x = m.read x := by
  unfold Memory.cons
  split
  · rfl
  · simp [Memory.read, h]

theorem Memory.cons_wfFrom {m : Memory} {a : Nat} {b : Byte} {lo : Nat} (h : m.wfFrom (a + 1) = true) (ha : lo ≤ a) :
    (Memory.cons a b m).wfFrom lo = true := by
  unfold Memory.cons
  split
  · exact Memory.wfFrom_mono (by omega) h
  · simp_all [Memory.wfFrom]

/-- A write leaves every other address alone, in any memory. -/
theorem Memory.read_write_of_ne : ∀ (m : Memory) {a x : Nat} (b : Byte), x ≠ a → (m.write a b).read x = m.read x
  | [], a, x, b, h => by simp [Memory.write, Memory.read_cons_ne h]
  | (k, c) :: m, a, x, b, h => by
    unfold Memory.write
    split
    · exact Memory.read_cons_ne h
    · split
      · subst_vars; simp [Memory.read_cons_ne h, Memory.read, h]
      · simp only [Memory.read, Memory.read_write_of_ne m b h]

/-- A read after a write to the same address gives the value written. -/
theorem Memory.read_write_same_from : ∀ {m : Memory} {lo : Nat} (a : Nat) (b : Byte), m.wfFrom lo = true →
    (m.write a b).read a = b
  | [], _, _, _, _ => Memory.read_cons_same rfl
  | (k, c) :: m, lo, a, b, h => by
    have h' := h
    simp only [Memory.wfFrom, Bool.and_eq_true, decide_eq_true_eq] at h'
    unfold Memory.write
    split
    · apply Memory.read_cons_same
      have hk : a ≠ k := by omega
      simp only [Memory.read, hk, if_false]
      exact Memory.read_of_lt h'.2 (by omega)
    · split
      · subst_vars; exact Memory.read_cons_same (Memory.read_of_lt h'.2 (by omega))
      · rename_i h1 h2; simp only [Memory.read, h2, if_false]; exact Memory.read_write_same_from a b h'.2

theorem Memory.read_write_same {m : Memory} (a : Nat) (b : Byte) (h : m.wf = true) : (m.write a b).read a = b :=
  Memory.read_write_same_from a b h

theorem Memory.write_wfFrom : ∀ {m : Memory} {lo a : Nat} (b : Byte), m.wfFrom lo = true → lo ≤ a →
    (m.write a b).wfFrom lo = true
  | [], _, _, _, _, ha => Memory.cons_wfFrom rfl ha
  | (k, c) :: m, lo, a, b, h, ha => by
    have h' := h
    simp only [Memory.wfFrom, Bool.and_eq_true, decide_eq_true_eq] at h'
    unfold Memory.write
    split
    · apply Memory.cons_wfFrom _ ha
      simp only [Memory.wfFrom, Bool.and_eq_true, decide_eq_true_eq]
      exact ⟨⟨by omega, h'.1.2⟩, h'.2⟩
    · split
      · subst_vars; exact Memory.cons_wfFrom h'.2 ha
      · simp only [Memory.wfFrom, Bool.and_eq_true, decide_eq_true_eq]
        exact ⟨h'.1, Memory.write_wfFrom b h'.2 (by omega)⟩

/-- A write keeps the canonical form. -/
theorem Memory.write_wf {m : Memory} (a : Nat) (b : Byte) (h : m.wf = true) : (m.write a b).wf = true :=
  Memory.write_wfFrom b h (Nat.zero_le a)

theorem Memory.writeAll_wf : ∀ (cs : List Host.Cell) {m : Memory}, m.wf = true → (m.writeAll cs).wf = true
  | [], _, h => h
  | c :: cs, _, h => Memory.writeAll_wf cs (Memory.write_wf c.1 c.2 h)

/-! ### What a fetch sees -/

/-- A fetch that sees every store access sees memory. -/
theorem fetchedByte_nil (a : Nat) : ∀ (b : Byte) (us : List (List Host.Cell)), fetchedByte a b us [] = b
  | _, [] => rfl
  | b, u :: us => by
    unfold fetchedByte
    split
    · exact fetchedByte_nil a b us
    · rfl

/-- With no store access outstanding, a fetch sees memory. -/
theorem fetchedByte_none (a : Nat) (b : Byte) (hidden : List Bool) : fetchedByte a b [] hidden = b := rfl

/-- A store access that does not reach the address hides nothing there. -/
theorem fetchedByte_skip {a : Nat} {u : List Host.Cell} (h : cellAt u a = none) (b : Byte) (us : List (List Host.Cell))
    (hidden : List Bool) : fetchedByte a b (u :: us) hidden = fetchedByte a b us hidden.tail := by
  rw [fetchedByte, h]

/-- A store access that reaches the address and is seen: the newest byte. -/
theorem fetchedByte_seen {a : Nat} {u : List Host.Cell} {old : Byte} (h : cellAt u a = some old) (b : Byte)
    (us : List (List Host.Cell)) (hidden : List Bool) : fetchedByte a b (u :: us) (false :: hidden) = b := by
  rw [fetchedByte, h]; rfl

/-- A store access that reaches the address and is hidden: what a fetch before it sees. -/
theorem fetchedByte_hidden {a : Nat} {u : List Host.Cell} {old : Byte} (h : cellAt u a = some old) (b : Byte)
    (us : List (List Host.Cell)) (hidden : List Bool) :
    fetchedByte a b (u :: us) (true :: hidden) = fetchedByte a old us hidden := by
  rw [fetchedByte, h]; rfl

/-! ### Writing several bytes -/

/-- Addresses that are not written read as before. -/
theorem Memory.read_writeAll_of_notMem : ∀ (cs : List Host.Cell) (m : Memory) {x : Nat}, (∀ c ∈ cs, x ≠ c.1) →
    (m.writeAll cs).read x = m.read x
  | [], _, _, _ => rfl
  | c :: cs, m, x, h => by
    rw [Memory.writeAll, Memory.read_writeAll_of_notMem cs _ (fun d hd => h d (List.mem_cons_of_mem _ hd)),
      Memory.read_write_of_ne m c.2 (h c List.mem_cons_self)]

/-- The first of several writes to distinct addresses is read back. -/
theorem Memory.read_writeAll_head {m : Memory} (c : Host.Cell) (cs : List Host.Cell) (h : m.wf = true)
    (hc : ∀ d ∈ cs, c.1 ≠ d.1) : (m.writeAll (c :: cs)).read c.1 = c.2 := by
  rw [Memory.writeAll, Memory.read_writeAll_of_notMem cs _ hc, Memory.read_write_same _ _ h]

/-- Writes to distinct addresses are all read back. -/
theorem Memory.read_writeAll_of_mem : ∀ (cs : List Host.Cell) {m : Memory}, m.wf = true → (cs.map Prod.fst).Nodup →
    ∀ c ∈ cs, (m.writeAll cs).read c.1 = c.2
  | d :: cs, m, h, hn, c, hc => by
    rw [List.map_cons, List.nodup_cons] at hn
    rcases List.mem_cons.1 hc with rfl | hc
    · apply Memory.read_writeAll_head _ _ h
      intro e he heq
      exact hn.1 (List.mem_map.2 ⟨e, he, heq.symm⟩)
    · exact Memory.read_writeAll_of_mem cs (Memory.write_wf _ _ h) hn.2 c hc

theorem Memory.ext_from : ∀ {m n : Memory} {lo hi : Nat}, m.wfFrom lo = true → n.wfFrom hi = true →
    (∀ a, m.read a = n.read a) → m = n
  | [], [], _, _, _, _, _ => rfl
  | [], (k, b) :: n, _, hi, _, hn, h => by
    have := h k
    simp [Memory.wfFrom, Memory.read] at hn this
    exact absurd this.symm hn.1.2
  | (k, b) :: m, [], lo, _, hm, _, h => by
    have := h k
    simp [Memory.wfFrom, Memory.read] at hm this
    exact absurd this hm.1.2
  | (k, b) :: m, (l, c) :: n, lo, hi, hm, hn, h => by
    simp only [Memory.wfFrom, Bool.and_eq_true, decide_eq_true_eq, bne_iff_ne, ne_eq] at hm hn
    have hkl : k = l := by
      rcases Nat.lt_trichotomy k l with hlt | heq | hgt
      · have := h k
        simp only [Memory.read, if_true] at this
        rw [if_neg (by omega), Memory.read_of_lt hn.2 (by omega)] at this
        exact absurd this hm.1.2
      · exact heq
      · have := h l
        simp only [Memory.read, if_true] at this
        rw [if_neg (by omega), Memory.read_of_lt hm.2 (by omega)] at this
        exact absurd this.symm hn.1.2
    subst hkl
    have hb : b = c := by have := h k; simpa [Memory.read] using this
    subst hb
    congr 1
    apply Memory.ext_from hm.2 hn.2
    intro a
    by_cases ha : a = k
    · subst ha; rw [Memory.read_of_lt hm.2 (by omega), Memory.read_of_lt hn.2 (by omega)]
    · have := h a; simpa [Memory.read, ha] using this

/-- Canonical memories that read the same are the same data. -/
theorem Memory.ext {m n : Memory} (hm : m.wf = true) (hn : n.wf = true) (h : ∀ a, m.read a = n.read a) : m = n :=
  Memory.ext_from hm hn h

/-! ### Addresses -/

theorem byteAddress_lt (x : Xlen) (a : Word) (i : Nat) : byteAddress x a i < 2 ^ x.bits := x.wrap_toNat_lt _

/-- The four bytes of an access are at four addresses. -/
theorem byteAddress_inj (x : Xlen) (a : Word) {i j : Nat} (hi : i < 4) (hj : j < 4)
    (h : byteAddress x a i = byteAddress x a j) : i = j := by
  simp only [byteAddress, Xlen.wrap_toNat, BitVec.toNat_add, BitVec.toNat_ofNat] at h
  cases x <;> simp only [Xlen.bits] at h <;> omega

theorem storedCells_nodup (x : Xlen) (a : Word) (v : BitVec 32) : ((storedCells x a v).map Prod.fst).Nodup := by
  have h : ∀ i j, i < 4 → j < 4 → i ≠ j → byteAddress x a i ≠ byteAddress x a j :=
    fun i j hi hj hij e => hij (byteAddress_inj x a hi hj e)
  simp [storedCells, h 0 1, h 0 2, h 0 3, h 1 2, h 1 3, h 2 3]

/-- Every listed address of a written memory was listed or is the written one. -/
theorem Memory.mem_write : ∀ {m : Memory} {a : Nat} {b : Byte} {c : Host.Cell}, c ∈ m.write a b → c ∈ m ∨ c.1 = a
  | [], a, b, c, h => by
    unfold Memory.write Memory.cons at h
    split at h <;> simp_all
  | (k, d) :: m, a, b, c, h => by
    unfold Memory.write at h
    split at h
    · unfold Memory.cons at h; split at h
      · exact .inl h
      · rcases List.mem_cons.1 h with rfl | h
        · exact .inr rfl
        · exact .inl h
    · split at h
      · unfold Memory.cons at h; split at h
        · exact .inl (List.mem_cons_of_mem _ h)
        · rcases List.mem_cons.1 h with rfl | h
          · exact .inr rfl
          · exact .inl (List.mem_cons_of_mem _ h)
      · rcases List.mem_cons.1 h with rfl | h
        · exact .inl List.mem_cons_self
        · rcases Memory.mem_write h with h | h
          · exact .inl (List.mem_cons_of_mem _ h)
          · exact .inr h

theorem Memory.mem_writeAll : ∀ {cs : List Host.Cell} {m : Memory} {c : Host.Cell}, c ∈ m.writeAll cs →
    c ∈ m ∨ ∃ d ∈ cs, c.1 = d.1
  | [], _, _, h => .inl h
  | d :: cs, m, c, h => by
    rcases Memory.mem_writeAll (cs := cs) h with h | ⟨e, he, heq⟩
    · rcases Memory.mem_write h with h | h
      · exact .inl h
      · exact .inr ⟨d, List.mem_cons_self, h⟩
    · exact .inr ⟨e, List.mem_cons_of_mem _ he, heq⟩

end Sys2Proof.Machine
end

