-- ==== Sys2Proof/Laws/PerInstr.lean ====
section
/-! SUPPORT. Statements about every instruction as syntax, one lemma per constructor of `Instr`. -/

namespace Sys2Proof.Laws

/-- The two bit groups that R60 reads are the lowest five bits of the opcode. -/
theorem lengthOf_low (w : BitVec 32) (op : BitVec 7) (h : opcodeOf w = op) (h2 : op.extractLsb' 0 2 = 0b11#2)
    (h3 : op.extractLsb' 2 3 ≠ 0b111#3) : lengthOf (w.extractLsb' 0 16) = .word := by
  have e2 : (w.extractLsb' 0 16).extractLsb' 0 2 = op.extractLsb' 0 2 := by
    subst h
    apply BitVec.eq_of_getLsbD_eq
    intro i hi
    simp only [opcodeOf, BitVec.getLsbD_extractLsb']
    interval_cases i <;> rfl
  have e3 : (w.extractLsb' 0 16).extractLsb' 2 3 = op.extractLsb' 2 3 := by
    subst h
    apply BitVec.eq_of_getLsbD_eq
    intro i hi
    simp only [opcodeOf, BitVec.getLsbD_extractLsb']
    interval_cases i <;> rfl
  simp [lengthOf, e2, e3, h2, h3]

/-- The two lowest bits of a 16-bit instruction are 10, so it is read as 16 bits long (R60, R62). -/
theorem lengthOf_crType (f4 : BitVec 4) (rs1 : BitVec 5) : lengthOf (crType f4 rs1) = .half := by
  have e2 : (crType f4 rs1).extractLsb' 0 2 = 0b10#2 := by
    apply BitVec.eq_of_getLsbD_eq
    intro i hi
    show BitVec.getLsbD (BitVec.extractLsb' (n := 4 + 5 + 5 + 2) 0 2 (f4 ++ rs1 ++ 0b00000#5 ++ 0b10#2)) i = _
    rw [BitVec.getLsbD_extractLsb', BitVec.getLsbD_append]
    interval_cases i <;> rfl
  simp [lengthOf, e2]

/-! ### The length that the stored form announces is the instruction's (R60) -/

namespace LengthRead

/-- The first parcel of the stored form announces the length by which the instruction advances `pc` (R60, R8). -/
def Statement (i : Instr) : Prop :=
  match encode i with
  | .half h => lengthOf h = .half ∧ i.length = 2
  | .word w => lengthOf (w.extractLsb' 0 16) = .word ∧ i.length = 4

theorem lpad (lpl : BitVec 20) : Statement (.lpad lpl) :=
  ⟨lengthOf_low _ _ (opcodeOf_uType ..) (by decide) (by decide), rfl⟩
theorem auipc (rd : RegIdx) (imm20 : BitVec 20) : Statement (.auipc rd imm20) :=
  ⟨lengthOf_low _ _ (opcodeOf_uType ..) (by decide) (by decide), rfl⟩
theorem lui (rd : RegIdx) (imm20 : BitVec 20) : Statement (.lui rd imm20) :=
  ⟨lengthOf_low _ _ (opcodeOf_uType ..) (by decide) (by decide), rfl⟩
theorem jal (rd : RegIdx) (off : BitVec 21) : Statement (.jal rd off) :=
  ⟨lengthOf_low _ _ (opcodeOf_jType ..) (by decide) (by decide), rfl⟩
theorem jalr (rd rs1 : RegIdx) (imm : BitVec 12) : Statement (.jalr rd rs1 imm) :=
  ⟨lengthOf_low _ _ (opcodeOf_iType ..) (by decide) (by decide), rfl⟩
theorem beq (rs1 rs2 : RegIdx) (off : BitVec 13) : Statement (.beq rs1 rs2 off) :=
  ⟨lengthOf_low _ _ (opcodeOf_bType ..) (by decide) (by decide), rfl⟩
theorem bne (rs1 rs2 : RegIdx) (off : BitVec 13) : Statement (.bne rs1 rs2 off) :=
  ⟨lengthOf_low _ _ (opcodeOf_bType ..) (by decide) (by decide), rfl⟩
theorem bltu (rs1 rs2 : RegIdx) (off : BitVec 13) : Statement (.bltu rs1 rs2 off) :=
  ⟨lengthOf_low _ _ (opcodeOf_bType ..) (by decide) (by decide), rfl⟩
theorem bgeu (rs1 rs2 : RegIdx) (off : BitVec 13) : Statement (.bgeu rs1 rs2 off) :=
  ⟨lengthOf_low _ _ (opcodeOf_bType ..) (by decide) (by decide), rfl⟩
theorem lw (rd rs1 : RegIdx) (imm : BitVec 12) : Statement (.lw rd rs1 imm) :=
  ⟨lengthOf_low _ _ (opcodeOf_iType ..) (by decide) (by decide), rfl⟩
theorem sw (rs2 rs1 : RegIdx) (imm : BitVec 12) : Statement (.sw rs2 rs1 imm) :=
  ⟨lengthOf_low _ _ (opcodeOf_sType ..) (by decide) (by decide), rfl⟩
theorem addi (rd rs1 : RegIdx) (imm : BitVec 12) : Statement (.addi rd rs1 imm) :=
  ⟨lengthOf_low _ _ (opcodeOf_iType ..) (by decide) (by decide), rfl⟩
theorem slli (rd rs1 : RegIdx) (shamt : BitVec 6) : Statement (.slli rd rs1 shamt) :=
  ⟨lengthOf_low _ _ (opcodeOf_iType ..) (by decide) (by decide), rfl⟩
theorem add (rd rs1 rs2 : RegIdx) : Statement (.add rd rs1 rs2) :=
  ⟨lengthOf_low _ _ (opcodeOf_rType ..) (by decide) (by decide), rfl⟩
theorem fence (fm pred succ : BitVec 4) (rs1 rd : RegIdx) : Statement (.fence fm pred succ rs1 rd) :=
  ⟨lengthOf_low _ _ (opcodeOf_iType ..) (by decide) (by decide), rfl⟩
theorem fenceI (imm : BitVec 12) (rs1 rd : RegIdx) : Statement (.fenceI imm rs1 rd) :=
  ⟨lengthOf_low _ _ (opcodeOf_iType ..) (by decide) (by decide), rfl⟩
theorem ecall : Statement (.ecall) := ⟨by decide, rfl⟩
theorem ebreak : Statement (.ebreak) := ⟨by decide, rfl⟩
theorem sret : Statement (.sret) := ⟨by decide, rfl⟩
theorem mret : Statement (.mret) := ⟨by decide, rfl⟩
theorem wfi : Statement (.wfi) := ⟨by decide, rfl⟩
theorem csrrw (rd rs1 : RegIdx) (csr : BitVec 12) : Statement (.csrrw rd rs1 csr) :=
  ⟨lengthOf_low _ _ (opcodeOf_iType ..) (by decide) (by decide), rfl⟩
theorem csrrs (rd rs1 : RegIdx) (csr : BitVec 12) : Statement (.csrrs rd rs1 csr) :=
  ⟨lengthOf_low _ _ (opcodeOf_iType ..) (by decide) (by decide), rfl⟩
theorem csrrc (rd rs1 : RegIdx) (csr : BitVec 12) : Statement (.csrrc rd rs1 csr) :=
  ⟨lengthOf_low _ _ (opcodeOf_iType ..) (by decide) (by decide), rfl⟩
theorem csrrwi (rd : RegIdx) (uimm : BitVec 5) (csr : BitVec 12) : Statement (.csrrwi rd uimm csr) :=
  ⟨lengthOf_low _ _ (opcodeOf_iType ..) (by decide) (by decide), rfl⟩
theorem csrrsi (rd : RegIdx) (uimm : BitVec 5) (csr : BitVec 12) : Statement (.csrrsi rd uimm csr) :=
  ⟨lengthOf_low _ _ (opcodeOf_iType ..) (by decide) (by decide), rfl⟩
theorem csrrci (rd : RegIdx) (uimm : BitVec 5) (csr : BitVec 12) : Statement (.csrrci rd uimm csr) :=
  ⟨lengthOf_low _ _ (opcodeOf_iType ..) (by decide) (by decide), rfl⟩
theorem cJr (rs1 : RegIdx) : Statement (.cJr rs1) := ⟨lengthOf_crType _ _, rfl⟩
theorem cJalr (rs1 : RegIdx) : Statement (.cJalr rs1) := ⟨lengthOf_crType _ _, rfl⟩

end LengthRead

end Sys2Proof.Laws
end

