-- ==== Sys2Proof/Tests/Slice0.lean ====
section
/-! SUPPORT. Tests: expected results are those of spec/95_test_vectors.md (the vector is named in each comment) or worked out by
hand from the rule named; and for each obligation with hypotheses a state and operands that meet them. -/

namespace Sys2Proof.Tests

open Sys2Proof Sys2Proof.Machine

/-! ### Helpers -/

/-- The next state, or the same one when there is none. -/
def after (r : Result) (s : State) : State :=
  match r with
  | .next t => t
  | _ => s

/-- Is there a next state. -/
def isNext (r : Result) : Bool :=
  match r with
  | .next _ => true
  | _ => false

/-- One step that fetches and runs the 32-bit word `w`. -/
def run (s : State) (w : Nat) : State := after (step (s.withFetchWord 32 w)) s

/-- One step that fetches and runs the 16-bit word `w`. -/
def run16 (s : State) (w : Nat) : State := after (step (s.withFetchWord 16 w)) s

/-- The same state with a register set. -/
def setX (s : State) (i : RegIdx) (v : Word) : State := { s with regs := s.regs.set i v }

/-- M-mode with CFI active, at 0x1000, trap handler at 0x8000. -/
def active : State := { State.reset with mfcfie := true, mtrap := { TrapCsrs.reset with tvec := 0x8000#64 } }

/-- The same at another `pc`. -/
def activeAt (pc : Word) (e : Elp) : State := { active with pc := pc, elp := e }

/-- The parameters with `XLEN` = 64. -/
def cfg64 : Config := { Config.reference with xlen := .x64 }

/-- The parameters without the C extension. -/
def cfgNoC : Config := { Config.reference with hasC := false }

/-- M-mode without the C extension. -/
def noC : State := { State.reset with cfg := cfgNoC }

/-- A mode below M, traps to M at 0x8000. -/
def inMode (p : Priv) (v : Bool) : State := { active with priv := p, virt := v }

/-! ### Decoding: words written out from the spec's encodings (95_test_vectors.md D, J, H series; 30_encoding.md R62) -/

theorem test_decode_lpad :
    decodeTableWord 32 0x00000017 = some (.lpad 0#20) ∧ decodeTableWord 32 0xFFFFF017 = some (.lpad 0xFFFFF#20) := by decide
/-- Bit by bit: `LPL` 1010 1010 1011 0011 0011, `rd` 00000, opcode 0010111. -/
theorem test_decode_lpad_bits :
    decodeTableWord 32 0b10101010101100110011000000010111 = some (.lpad 0xAAB33#20) := by decide
theorem test_decode_auipc :
    decodeTableWord 32 0x00000097 = some (.auipc 1 0#20) ∧
    decodeTableWord 32 0xAAB33F97 = some (.auipc 31 0xAAB33#20) := by decide
theorem test_decode_lui :
    decodeTableWord 32 0x00000037 = some (.lui 0 0#20) ∧ decodeTableWord 32 0xAAB333B7 = some (.lui 7 0xAAB33#20) := by decide
/-- Bit by bit: imm[20] 1, imm[10:1] 1111111110, imm[11] 1, imm[19:12] 11111111, `rd` 00000, opcode 1101111: `jal x0, -4` (H25). -/
theorem test_decode_jal :
    decodeTableWord 32 0x100000EF = some (.jal 1 0x100#21) ∧
    decodeTableWord 32 0b11111111110111111111000001101111 = some (.jal 0 (-4)) := by decide
/-- Bit by bit: imm 000000010000, `rs1` 00111, funct3 000, `rd` 00111, opcode 1100111: `jalr x7, 16(x7)` (J6). -/
theorem test_decode_jalr :
    decodeTableWord 32 0x000500E7 = some (.jalr 1 10 0#12) ∧
    decodeTableWord 32 0b00000001000000111000001111100111 = some (.jalr 7 7 16#12) := by decide
theorem test_decode_beq : decodeTableWord 32 0x00628463 = some (.beq 5 6 8#13) := by decide
theorem test_decode_bne : decodeTableWord 32 0x00629463 = some (.bne 5 6 8#13) := by decide
/-- Bit by bit: imm[12] 1, imm[10:5] 111111, `rs2` 00110, `rs1` 00101, funct3 110, imm[4:1] 1100, imm[11] 1, opcode 1100011:
`bltu x5, x6, -8` (H23). -/
theorem test_decode_bltu :
    decodeTableWord 32 0x0062E463 = some (.bltu 5 6 8#13) ∧
    decodeTableWord 32 0b11111110011000101110110011100011 = some (.bltu 5 6 (-8)) := by decide
theorem test_decode_bgeu :
    decodeTableWord 32 0x0062F463 = some (.bgeu 5 6 8#13) ∧ decodeTableWord 32 0x02657C63 = some (.bgeu 10 6 0x38#13) := by decide
/-- Bit by bit: imm 111111111100, `rs1` 00110, funct3 010, `rd` 00101, opcode 0000011: `lw x5, -4(x6)` (H14). -/
theorem test_decode_lw :
    decodeTableWord 32 0x0003A383 = some (.lw 7 7 0#12) ∧
    decodeTableWord 32 0b11111111110000110010001010000011 = some (.lw 5 6 (-4)) := by decide
/-- Bit by bit: imm[11:5] 1111111, `rs2` 00101, `rs1` 00110, funct3 010, imm[4:0] 11100, opcode 0100011: `sw x5, -4(x6)` (H17). -/
theorem test_decode_sw :
    decodeTableWord 32 0x00712023 = some (.sw 7 2 0#12) ∧
    decodeTableWord 32 0b11111110010100110010111000100011 = some (.sw 5 6 (-4)) := by decide
theorem test_decode_addi :
    decodeTableWord 32 0x02A00613 = some (.addi 12 0 42#12) ∧ decodeTableWord 32 0xFFF38393 = some (.addi 7 7 (-1)) := by decide
theorem test_decode_slli :
    decodeTableWord 32 0x00251393 = some (.slli 7 10 2#6) ∧ decodeTableWord 32 0x02031293 = some (.slli 5 6 32#6) := by decide
/-- Bit by bit: funct7 0000000, `rs2` 11100, `rs1` 00111, funct3 000, `rd` 00111, opcode 0110011: `add x7, x7, x28` (R124). -/
theorem test_decode_add :
    decodeTableWord 32 0x007302B3 = some (.add 5 6 7) ∧
    decodeTableWord 32 0b00000001110000111000001110110011 = some (.add 7 7 28) := by decide
/-- Bit by bit: fm 0000, predecessor 1111, successor 1111, `rs1` 00000, funct3 000, `rd` 00000, opcode 0001111 (R132). -/
theorem test_decode_fence :
    decodeTableWord 32 0b00001111111100000000000000001111 = some (.fence 0#4 15#4 15#4 0 0) ∧
    decodeTableWord 32 0x8330808F = some (.fence 8#4 3#4 3#4 1 1) := by decide
theorem test_decode_fenceI : decodeTableWord 32 0x0000100F = some (.fenceI 0#12 0 0) := by decide
theorem test_decode_ecall : decodeTableWord 32 0x00000073 = some .ecall := by decide
theorem test_decode_ebreak :
    decodeTableWord 32 0x00100073 = some .ebreak ∧ decodeTableWord 16 0x9002 = some .ebreak := by decide
/-- Bit by bit: 0001000 00010 00000 000 00000 1110011 (R67). -/
theorem test_decode_sret : decodeTableWord 32 0b00010000001000000000000001110011 = some .sret := by decide
theorem test_decode_mret : decodeTableWord 32 0x30200073 = some .mret := by decide
theorem test_decode_wfi : decodeTableWord 32 0x10500073 = some .wfi := by decide
theorem test_decode_csrrw : decodeTableWord 32 0x74729073 = some (.csrrw 0 5 0x747#12) := by decide
/-- Bit by bit: csr 001100000000, `rs1` 00000, funct3 010, `rd` 00101, opcode 1110011: `csrrs x5, mstatus, x0` (R139). -/
theorem test_decode_csrrs : decodeTableWord 32 0b00110000000000000010001011110011 = some (.csrrs 5 0 0x300#12) := by decide
theorem test_decode_csrrc : decodeTableWord 32 0x3002B073 = some (.csrrc 0 5 0x300#12) := by decide
theorem test_decode_csrrwi : decodeTableWord 32 0x300052F3 = some (.csrrwi 5 0#5 0x300#12) := by decide
theorem test_decode_csrrsi : decodeTableWord 32 0x30046073 = some (.csrrsi 0 8#5 0x300#12) := by decide
theorem test_decode_csrrci : decodeTableWord 32 0x30047073 = some (.csrrci 0 8#5 0x300#12) := by decide
/-- Bit by bit: funct4 1000, `rs1` 00001, `rs2` 00000, op 10: `c.jr x1` (D9). -/
theorem test_decode_cJr :
    decodeTableWord 16 0b1000000010000010 = some (.cJr 1) ∧ decodeTableWord 16 0x8382 = some (.cJr 7) := by decide
theorem test_decode_cJalr :
    decodeTableWord 16 0x9502 = some (.cJalr 10) ∧ decodeTableWord 16 0x9082 = some (.cJalr 1) := by decide
/-- D12, Q2, Q6, R60, R68: reserved, illegal and longer encodings are refused by name. -/
theorem test_decode_refused :
    decodeHalf 0x8002#16 = .error .noSuchHalf ∧ decodeHalf 0x0001#16 = .error .noSuchHalf ∧
    decodeHalf 0x8086#16 = .error .noSuchHalf ∧ decodeHalf 0x9086#16 = .error .noSuchHalf ∧
    decodeBytes [0#8, 0#8, 0#8, 0#8] = .error .noSuchHalf ∧ decodeWord 0x00001067#32 = .error .noSuchWord ∧
    decodeBytes [0x1F#8, 0#8, 0#8, 0#8] = .error .tooLong ∧ decodeBytes [0x17#8, 0#8] = .error .truncated ∧
    decodeFetched cfgNoC (.code (.half 0x8082#16)) = .error .noCompressed := by decide
/-- The encoder writes the spec's words (D, H series). -/
theorem test_encode :
    encode (.lpad 0xAAB33#20) = .word 0xAAB33017#32 ∧ encode (.bltu 5 6 (-8)) = .word 0xFE62ECE3#32 ∧
    encode (.sw 5 6 (-4)) = .word 0xFE532E23#32 ∧ encode (.jal 0 (-4)) = .word 0xFFDFF06F#32 ∧
    encode (.slli 5 6 32#6) = .word 0x02031293#32 ∧ encode (.cJalr 10) = .half 0x9502#16 := by decide

/-! ### Well-formedness: an ill-formed term for each check -/

theorem test_wf_auipc_x0 : (Instr.auipc 0 1#20).wf = false := by decide
theorem test_wf_jal_odd : (Instr.jal 1 1#21).wf = false := by decide
theorem test_wf_beq_odd : (Instr.beq 5 6 9#13).wf = false := by decide
theorem test_wf_bne_odd : (Instr.bne 5 6 9#13).wf = false := by decide
theorem test_wf_bltu_odd : (Instr.bltu 5 6 9#13).wf = false := by decide
theorem test_wf_bgeu_odd : (Instr.bgeu 5 6 9#13).wf = false := by decide
theorem test_wf_cJr_x0 : (Instr.cJr 0).wf = false := by decide
theorem test_wf_cJalr_x0 : (Instr.cJalr 0).wf = false := by decide
/-- The reference parameters are admitted, and `HAS_H` without `HAS_S` is not (R6). -/
theorem test_wf_config :
    Config.reference.wf = true ∧ cfg64.wf = true ∧ ({ Config.reference with hasS := false } : Config).wf = false := by decide

/-! ### One step (95_test_vectors.md) -/

/-- L2: bits 11:0 of `x7` are ignored. -/
theorem test_lpad_matches :
    (run (setX (activeAt 0x2000#64 .lpExpected) 7 0xAAB33FFF#64) 0xAAB33017).elp = .noLpExpected ∧
    (run (setX (activeAt 0x2000#64 .lpExpected) 7 0xAAB33FFF#64) 0xAAB33017).pc = 0x2004#64 := by decide
/-- L7: the label is compared when `ELP` is 0 too; the trap records cause 2, the `pc` of the `lpad` and `MPELP` = 0. -/
theorem test_lpad_mismatch :
    (run (setX (activeAt 0x2000#64 .noLpExpected) 7 0#64) 0x00001017).mtrap =
      { tvec := 0x8000#64, epc := 0x2000#64, cause := 2#64, tval := 0x00001017#64 } ∧
    (run (setX (activeAt 0x2000#64 .noLpExpected) 7 0#64) 0x00001017).mstatus.mpelp = .noLpExpected := by decide
/-- H4. -/
theorem test_auipc_wraps : (run State.reset 0xFFFFF317).readReg 6 = 0#64 := by decide
/-- H1 with `XLEN` = 64 and 32. -/
theorem test_lui_sign :
    (run { State.reset with cfg := cfg64 } 0xAAB333B7).readReg 7 = 0xFFFFFFFFAAB33000#64 ∧
    (run State.reset 0xAAB333B7).readReg 7 = 0xAAB33000#64 := by decide
/-- H24. -/
theorem test_jal_links :
    (run active 0x100000EF).readReg 1 = 0x1004#64 ∧ (run active 0x100000EF).pc = 0x1100#64 ∧
    (run active 0x100000EF).elp = .noLpExpected := by decide
/-- H26. -/
theorem test_jal_misaligned :
    (run noC 0x002000EF).mtrap.cause = 0#64 ∧ (run noC 0x002000EF).mtrap.tval = 0x1002#64 ∧
    (run noC 0x002000EF).readReg 1 = resetRegister := by decide
/-- U6: the target is read before the link is written. -/
theorem test_jalr_same_register :
    (run (setX (activeAt 0x1004#64 .noLpExpected) 1 0x3000#64) 0x000080E7).pc = 0x3000#64 ∧
    (run (setX (activeAt 0x1004#64 .noLpExpected) 1 0x3000#64) 0x000080E7).readReg 1 = 0x1008#64 ∧
    (run (setX (activeAt 0x1004#64 .noLpExpected) 1 0x3000#64) 0x000080E7).elp = .lpExpected := by decide
/-- U4: a software guarded branch expects no landing pad. -/
theorem test_jalr_guarded :
    (run (setX (activeAt 0x1004#64 .noLpExpected) 7 0x3300#64) 0x000383E7).elp = .noLpExpected ∧
    (run (setX (activeAt 0x1004#64 .noLpExpected) 7 0x3300#64) 0x000383E7).pc = 0x3300#64 := by decide
/-- H18. -/
theorem test_beq :
    (run (setX State.reset 6 1#64) 0x00628463).pc = 0x1004#64 ∧ (run State.reset 0x00628463).pc = 0x1008#64 := by decide
/-- H19. -/
theorem test_bne :
    (run (setX State.reset 6 1#64) 0x00629463).pc = 0x1008#64 ∧ (run State.reset 0x00629463).pc = 0x1004#64 := by decide
/-- H20: the comparison is unsigned. -/
theorem test_bltu_unsigned : (run (setX (setX State.reset 5 1#64) 6 0xFFFFFFFF#64) 0x0062E463).pc = 0x1008#64 := by decide
/-- H23: a backward target. -/
theorem test_bltu_backward : (run (setX (setX State.reset 5 0#64) 6 1#64) 0xFE62ECE3).pc = 0x0FF8#64 := by decide
/-- The example of R131. -/
theorem test_bgeu :
    (run (setX (setX { State.reset with pc := 0x1004#64 } 10 5#64) 6 3#64) 0x02657C63).pc = 0x103C#64 ∧
    (run (setX (setX { State.reset with pc := 0x1004#64 } 10 2#64) 6 3#64) 0x02657C63).pc = 0x1008#64 := by decide
/-- H13 with `XLEN` = 64. -/
theorem test_lw_sign :
    (run (setX { State.reset with
      cfg := cfg64, mem := [(0x3004, 0x78#8), (0x3005, 0x56#8), (0x3006, 0x34#8), (0x3007, 0x92#8)] } 6 0x3000#64)
      0x00432283).readReg 5 = 0xFFFFFFFF92345678#64 := by decide
/-- H15. -/
theorem test_lw_misaligned :
    (run (setX active 6 0x3001#64) 0x00432283).mtrap =
      { tvec := 0x8000#64, epc := 0x1000#64, cause := 4#64, tval := 0x3005#64 } ∧
    (run (setX active 6 0x3001#64) 0x00432283).readReg 5 = resetRegister := by decide
/-- H16 with `XLEN` = 64. -/
theorem test_sw_bytes :
    (run (setX (setX { State.reset with cfg := cfg64 } 5 0x9988776611223344#64) 6 0x3000#64) 0x00532423).mem.read32 .x64
      0x3008#64 = 0x11223344#32 ∧
    (run (setX (setX { State.reset with cfg := cfg64 } 5 0x9988776611223344#64) 6 0x3000#64) 0x00532423).mem.read 0x3008 =
      0x44#8 := by decide
/-- H17. -/
theorem test_sw_negative_offset :
    (run (setX (setX State.reset 5 0x11223344#64) 6 0x3004#64) 0xFE532E23).mem.read32 .x32 0x3000#64 = 0x11223344#32 := by
  decide
/-- H6: the borrow reaches the label bits. -/
theorem test_addi_borrow : (run (setX State.reset 7 0xAAB33000#64) 0xFFF38393).readReg 7 = 0xAAB32FFF#64 := by decide
/-- H5. -/
theorem test_addi_wraps : (run (setX State.reset 5 0xFFFFFFFF#64) 0x00128293).readReg 5 = 0#64 := by decide
/-- H10 with `XLEN` = 64 and 32. -/
theorem test_slli :
    (run (setX { State.reset with cfg := cfg64 } 6 3#64) 0x01F31293).readReg 5 = 0x180000000#64 ∧
    (run (setX State.reset 6 3#64) 0x01F31293).readReg 5 = 0x80000000#64 := by decide
/-- H12. -/
theorem test_slli_illegal :
    (run (setX active 6 1#64) 0x02031293).mtrap.cause = 2#64 ∧
    (run (setX { active with cfg := cfg64 } 6 1#64) 0x02031293).readReg 5 = 0x100000000#64 := by decide
/-- H9 with `XLEN` = 32 and 64. -/
theorem test_add_wraps :
    (run (setX (setX State.reset 6 0x80000000#64) 7 0x80000000#64) 0x007302B3).readReg 5 = 0#64 ∧
    (run (setX (setX { State.reset with cfg := cfg64 } 6 0x80000000#64) 7 0x80000000#64) 0x007302B3).readReg 5 =
      0x100000000#64 := by decide
/-- H42. -/
theorem test_fence : (run State.reset 0x0FF0000F).pc = 0x1004#64 := by decide
/-- R50, R133: after `fence.i` no fetch is stale. -/
theorem test_fenceI :
    (run { State.reset with staleStores := [[(0x2000, 1#8)]] } 0x0000100F).fetchParcel [true] 0x2000#64 = 0#16 ∧
    (run State.reset 0x0000100F).pc = 0x1004#64 := by decide
/-- H38 in U- and VS-mode. -/
theorem test_ecall :
    (run (inMode .u false) 0x00000073).mtrap = { tvec := 0x8000#64, epc := 0x1000#64, cause := 8#64, tval := 0#64 } ∧
    (run { inMode .s true with menvcfg := { cfie := true, sfcfie := true } } 0x00000073).mtrap.cause = 10#64 := by decide
/-- H39, H40. -/
theorem test_ebreak :
    (run active 0x00100073).mtrap.cause = 3#64 ∧ (run active 0x00100073).mtrap.epc = 0x1000#64 ∧
    (run16 active 0x9002).mtrap.cause = 3#64 := by decide
/-- T7. -/
theorem test_sret :
    (run { inMode .s false with
      mstatus := { State.reset.mstatus with spelp := .lpExpected }, strap := { TrapCsrs.reset with epc := 0x4001#64 } }
      0x10200073).elp = .lpExpected ∧
    (run { inMode .s false with
      mstatus := { State.reset.mstatus with spelp := .lpExpected }, strap := { TrapCsrs.reset with epc := 0x4001#64 } }
      0x10200073).priv = .u ∧
    (run { inMode .s false with strap := { TrapCsrs.reset with epc := 0x4001#64 } } 0x10200073).pc = 0x4000#64 := by decide
/-- T8, H44. -/
theorem test_sret_guest :
    (run { inMode .s true with
      mstatus := { State.reset.mstatus with spelp := .lpExpected },
      vsstatus := { State.reset.vsstatus with spelp := .noLpExpected, spp := true } } 0x10200073).mstatus.spelp = .lpExpected ∧
    (run (inMode .s true) 0x10200073).virt = true ∧ (run (inMode .u true) 0x10200073).mtrap.cause = 22#64 := by decide
/-- The example of R110. -/
theorem test_mret :
    (run { active with
      mstatus := { State.reset.mstatus with mpelp := .lpExpected, mpie := true },
      mtrap := { TrapCsrs.reset with epc := 0x2000#64 } } 0x30200073).elp = .lpExpected ∧
    (run { active with
      mstatus := { State.reset.mstatus with mpelp := .lpExpected, mpie := true },
      mtrap := { TrapCsrs.reset with epc := 0x2000#64 } } 0x30200073).mstatus =
      { State.reset.mstatus with mie := true, mpie := true, mpp := .u } ∧
    (run { active with mtrap := { TrapCsrs.reset with epc := 0x2000#64 } } 0x30200073).pc = 0x2000#64 := by decide
/-- H43. -/
theorem test_mret_in_s : (run (inMode .s false) 0x30200073).mtrap.cause = 2#64 := by decide
/-- H41. -/
theorem test_wfi : (run active 0x10500073).pc = 0x1004#64 := by decide
/-- H37. -/
theorem test_csrrw_mseccfg :
    (run (setX State.reset 5 0x10000#64) 0x74729073).mfcfie = true ∧
    (run (setX State.reset 5 0x10000#64) 0x74729073).pc = 0x1004#64 := by decide
/-- H36. -/
theorem test_csrrs_virtual : (run (inMode .s true) 0x200022F3).mtrap.cause = 22#64 := by decide
/-- H27: `MPP` = M is 0x1800. -/
theorem test_csrrs_reads : (run State.reset 0x300022F3).readReg 5 = 0x1800#64 := by decide
/-- H30 at the reference position 26. -/
theorem test_csrrc_mpelp :
    (run (setX { State.reset with mstatus := { State.reset.mstatus with mpelp := .lpExpected, mie := true } } 5 0x4000000#64)
      0x3002B073).mstatus = { State.reset.mstatus with mie := true } := by decide
/-- H33. -/
theorem test_csrrwi :
    (run { State.reset with mstatus := { State.reset.mstatus with mpelp := .lpExpected, mie := true } } 0x300052F3).readReg 5 =
      0x4001808#64 ∧
    (run { State.reset with mstatus := { State.reset.mstatus with mpelp := .lpExpected, mie := true } } 0x300052F3).mstatus =
      { State.reset.mstatus with mpp := .u } := by decide
/-- H32. -/
theorem test_csrrsi : (run State.reset 0x30046073).mstatus.mie = true := by decide
/-- H31. -/
theorem test_csrrci :
    (run { State.reset with mstatus := { State.reset.mstatus with mie := true, sie := true } } 0x30047073).mstatus =
      { State.reset.mstatus with sie := true } := by decide
/-- U9: `c.jr x7` is not guarded. -/
theorem test_cJr :
    (run16 (setX (activeAt 0x1002#64 .noLpExpected) 7 0x3300#64) 0x8382).elp = .lpExpected ∧
    (run16 (setX (activeAt 0x1002#64 .noLpExpected) 7 0x3300#64) 0x8382).pc = 0x3300#64 := by decide
/-- U7: the link is `pc + 2`. -/
theorem test_cJalr :
    (run16 (setX (activeAt 0x1002#64 .noLpExpected) 10 0x2000#64) 0x9502).readReg 1 = 0x1004#64 ∧
    (run16 (setX (activeAt 0x1002#64 .noLpExpected) 10 0x2000#64) 0x9502).elp = .lpExpected := by decide

/-! ### Traps before the instruction (Q and P series) -/

/-- Q5: an `ecall` at the target raises illegal-instruction, and `MPELP` is 1. -/
theorem test_landing_pad_missing :
    (run (activeAt 0x2000#64 .lpExpected) 0x00000073).mtrap.cause = 2#64 ∧
    (run (activeAt 0x2000#64 .lpExpected) 0x00000073).mstatus.mpelp = .lpExpected ∧
    (run (activeAt 0x2000#64 .lpExpected) 0x00000073).pc = 0x8000#64 := by decide

/-- A state whose fetch the host refuses. -/
def fetchRefused : State :=
  { activeAt 0x2000#64 .lpExpected with answers := [{ HostAnswer.quiet with fetch := some .accessFault }] }

/-- Q9. -/
theorem test_fetch_exception :
    (after (step fetchRefused) fetchRefused).mtrap.cause = 1#64 ∧
    (after (step fetchRefused) fetchRefused).mstatus.mpelp = .lpExpected := by decide

/-- A timer interrupt announced between a jump and its landing pad (P4 before its step 3, with `mie[7]` and `mip[7]` set). -/
def interrupted : State :=
  { activeAt 0x2000#64 .lpExpected with
    mstatus := { State.reset.mstatus with mie := true }, mie := 0x80#64, mip := 0x80#64,
    answers := [{ HostAnswer.quiet with interrupt := some { cause := 7, target := .m } }] }

/-- P4 step 3. -/
theorem test_interrupt :
    (after (step interrupted) interrupted).mtrap =
      { tvec := 0x8000#64, epc := 0x2000#64, cause := 0x80000007#64, tval := 0#64 } ∧
    (after (step interrupted) interrupted).mstatus =
      { State.reset.mstatus with mpelp := .lpExpected, mpie := true } ∧
    (after (step interrupted) interrupted).elp = .noLpExpected := by decide

/-- R157: an interrupt that is not pending in `mip` is not taken, and a bit that the host sets stays until it clears it. -/
theorem test_mip_held :
    ({ interrupted with mip := 0#64 } : State).takenInterrupt = none ∧
    (run { State.reset with answers := [{ HostAnswer.quiet with mipSet := 0x880#64 }] } 0x0FF0000F).mip = 0x880#64 ∧
    (run { State.reset with mip := 0x880#64, answers := [{ HostAnswer.quiet with mipClear := 0x80#64 }] } 0x0FF0000F).mip =
      0x800#64 := by decide

/-- A fetch that sees the second and fourth byte accesses of a misaligned store (R44, R45, R50), and one that sees a later aligned
store and not an earlier one. -/
theorem test_stale_fetch :
    (({ State.reset with mem := [] }.store32 0x2001#64 0x44332211#32).fetchParcel [true, false, true, false] 0x2002#64) =
      0x0022#16 ∧
    (((State.reset.store32 0x2000#64 0x11111111#32).store32 0x2002#64 0x22222222#32).fetchParcel
      [true, false, true, false, true] 0x2002#64) = 0x2200#16 ∧
    (((State.reset.store32 0x2000#64 0x11111111#32).store32 0x2000#64 0x22222222#32).fetchParcel [false, true] 0x2000#64) =
      0x2222#16 ∧
    (((State.reset.store32 0x2000#64 0x11111111#32).store32 0x2000#64 0x22222222#32).fetchParcel [true, true] 0x2000#64) =
      0#16 := by decide

/-- A host that takes environment calls from U in S, and names for those from S a mode that cannot take them (D24). -/
def routed (p : Priv) : State :=
  { inMode p false with
    cfg := { Config.reference with
      trapTarget := .table [{ cause := 8, priv := .u, virt := false, target := .hs },
        { cause := 9, priv := .s, virt := false, target := .vs }] } }

/-- R159, D24: the row for cause, `priv` and `V` decides; where its mode cannot take the trap, M does. -/
theorem test_trap_table :
    (routed .u).exceptionTarget 8 = .hs ∧ (routed .u).exceptionTarget 2 = .m ∧ (routed .s).exceptionTarget 9 = .m := by decide

/-- R19, D3: on a hart without U-mode `sret` never reaches it. -/
theorem test_sret_no_u :
    (run { inMode .s false with cfg := { Config.reference with hasU := false } } 0x10200073).priv = .s := by decide

/-- T5: a trap from VS into HS saves `ELP` in `mstatus.SPELP`. -/
theorem test_trap_vs_to_hs :
    ((run { inMode .s true with elp := .lpExpected, medeleg := 0x400#64 } 0x00000073).mstatus.spelp,
     (run { inMode .s true with elp := .lpExpected, medeleg := 0x400#64 } 0x00000073).hstatus.spv) =
      (.lpExpected, true) := by decide

/-! ### States and operands that meet the hypotheses of the obligations -/

theorem witness_DecodeOfEncode :
    (Instr.auipc 31 0xFFFFF#20).wf = true ∧ (Instr.jal 0 0x100000#21).wf = true ∧ (Instr.bgeu 0 31 0x1000#13).wf = true ∧
    (Instr.cJr 31).wf = true ∧ (Instr.cJalr 1).wf = true := by decide
theorem witness_EncodeOfDecodeWord :
    decodeWord 0xFFFFFFEF#32 = .ok (.jal 31 (-2)) ∧ decodeHalf 0x9F82#16 = .ok (.cJalr 31) ∧
    decodeHalf 0x9002#16 = .ok .ebreak := by decide
theorem witness_DecodeBytesOfEncode : (Instr.cJr 1).wf = true ∧ (Instr.lpad 0#20).wf = true := by decide
theorem witness_LpadWords :
    isLpadWord 0xFFFFF017#32 = true ∧ decodeWord 0x00000017#32 = .ok (.lpad 0#20) ∧
    (0x00000097#32).extractLsb' 0 7 = 0b0010111#7 ∧ isLpadWord 0x00000097#32 = false := by decide
/-- S3. -/
theorem witness_AccidentalLandingPad :
    (0x50171537#32).extractLsb' 16 12 = 0x017#12 ∧
    joinParcels ((0x50171537#32).extractLsb' 16 16) ((0x00000013#32).extractLsb' 0 16) = 0x00135017#32 := by decide
theorem witness_WrittenOutWords :
    (0x00001067#32).extractLsb' 0 7 = 0b1100111#7 ∧ (0x00001067#32).extractLsb' 12 3 ≠ 0b000#3 := by decide
theorem witness_ActiveTable :
    active.cfg.hasZicfisslp = true ∧ active.priv = .m ∧ (inMode .s false).priv = .s ∧ (inMode .s false).virt = false ∧
    (inMode .u false).priv = .u ∧ (inMode .u false).virt = false ∧ (inMode .s true).priv = .s ∧
    (inMode .s true).virt = true ∧ (inMode .u true).priv = .u ∧ (inMode .u true).virt = true := by decide
theorem witness_InactiveCfi :
    State.reset.xfcfie = false ∧ State.reset.targetMisaligned (clearBit0 (State.reset.regPlusImm 10 0#12)) = false ∧
    isNext (exec (.jalr 1 10 0#12) State.reset) = true ∧ State.reset.cfg.hasC = true ∧
    isNext (exec (.cJr 10) State.reset) = true ∧ isNext (exec (.cJalr 10) State.reset) = true ∧ State.reset.priv = .m ∧
    State.reset.cfg.hasS = true ∧ State.reset.virt = false ∧ (inMode .s true).xfcfie = false ∧
    (inMode .s true).virt = true ∧ (inMode .s true).priv ≠ .u ∧ (inMode .s true).hstatus.vtsr = false := by decide
theorem witness_JalrResult :
    active.targetMisaligned (clearBit0 (active.regPlusImm 10 2#12)) = false ∧ noC.cfg.hasC = false ∧
    (clearBit0 (noC.regPlusImm 10 2#12)).getLsbD 1 = true ∧
    noC.targetMisaligned (clearBit0 (noC.regPlusImm 10 1#12)) = false := by decide
theorem witness_CompressedJumpResults : active.cfg.hasC = true ∧ noC.cfg.hasC = false := by decide
theorem witness_LpadCompletes :
    active.xfcfie = true ∧ active.pc.extractLsb' 0 2 = 0b00#2 ∧
    (setX active 7 0xFFFFF000#64).xfcfie = true ∧ ((setX active 7 0xFFFFF000#64).readReg 7).extractLsb' 12 20 = 0xFFFFF#20 ∧
    State.reset.xfcfie = false ∧
    ({ active with cfg := { Config.reference with hasZicfisslp := false } } : State).cfg.hasZicfisslp = false := by decide
theorem witness_LpadFaults :
    (activeAt 0x2002#64 .noLpExpected).xfcfie = true ∧ (activeAt 0x2002#64 .noLpExpected).pc.extractLsb' 0 2 ≠ 0b00#2 ∧
    (setX active 7 0#64).xfcfie = true ∧ (1#20 : BitVec 20) ≠ 0#20 ∧
    (1#20 : BitVec 20) ≠ ((setX active 7 0#64).readReg 7).extractLsb' 12 20 := by decide
theorem witness_SlliResult :
    ¬(active.cfg.xlen = .x32 ∧ (31#6).getLsbD 5 = true) ∧ ¬(cfg64.xlen = .x32 ∧ (63#6).getLsbD 5 = true) ∧
    active.cfg.xlen = .x32 ∧ (32#6).getLsbD 5 = true := by decide
theorem witness_LwResult :
    (setX active 6 0xFFFFFFFC#64).dataMisaligned ((setX active 6 0xFFFFFFFC#64).regPlusImm 6 0#12) = false ∧
    (setX active 6 0xFFFFFFFC#64).answer.data = none := by decide
theorem witness_SwResult :
    (setX active 6 0#64).mem.wf = true ∧
    (setX active 6 0#64).dataMisaligned ((setX active 6 0#64).regPlusImm 6 0#12) = false ∧
    (setX active 6 0#64).answer.data = none := by decide

/-- A state whose data access the host refuses. -/
def dataRefused (e : DataException) : State := { active with answers := [{ HostAnswer.quiet with data := some e }] }

theorem witness_DataAccessExceptions :
    active.cfg.misalignedData = .trap ∧ (active.regPlusImm 6 1#12).extractLsb' 0 2 ≠ 0b00#2 ∧
    (dataRefused .accessFault).dataMisaligned ((dataRefused .accessFault).regPlusImm 6 0#12) = false ∧
    (dataRefused .accessFault).answer.data = some .accessFault ∧
    (dataRefused .pageFault).dataMisaligned ((dataRefused .pageFault).regPlusImm 6 0#12) = false ∧
    (dataRefused .pageFault).answer.data = some .pageFault := by decide
theorem witness_LoadAfterStore : active.mem.wf = true := by decide
theorem witness_BranchResults :
    active.targetMisaligned (active.pcPlus 2#13) = false ∧ noC.cfg.hasC = false ∧ (noC.pcPlus 2#13).getLsbD 1 = true ∧
    active.readReg 5 = active.readReg 6 ∧ active.readReg 5 ≠ active.readReg 0 ∧
    (active.readReg 0).toNat < (active.readReg 5).toNat ∧ (active.readReg 5).toNat ≥ (active.readReg 0).toNat := by decide
theorem witness_JalResult :
    active.targetMisaligned (active.pcPlus 2#21) = false ∧ noC.cfg.hasC = false ∧ (noC.pcPlus 2#21).getLsbD 1 = true := by
  decide
theorem witness_FenceResults_StaleFetch :
    active.mem.wf = true ∧ (0x2000#64).extractLsb' 0 2 = 0b00#2 ∧ (0xFFFFFFFF#64).extractLsb' 0 2 ≠ 0b00#2 ∧
    ∀ k, k < 4 → (0x2000 : Nat) ≠ byteAddress active.cfg.xlen 0xFFFFFFFF#64 k := by decide
theorem witness_EcallTraps :
    (inMode .u true).priv = .u ∧ (inMode .s false).priv = .s ∧ (inMode .s false).virt = false ∧
    (inMode .s true).virt = true ∧ active.priv = .m := by decide
theorem witness_WfiResult :
    active.cfg.wfiBound = .completes ∧ active.priv = .m ∧ (inMode .u false).cfg.hasS = true ∧
    (inMode .s false).mstatus.tw = false ∧ (inMode .s false).priv ≠ .u ∧
    ({ inMode .u false with cfg := { Config.reference with wfiBound := .noWait, hasS := false } } : State).mstatus.tw = false ∧
    ({ inMode .u false with cfg := { Config.reference with wfiBound := .noWait } } : State).cfg.wfiBound = .noWait ∧
    ({ inMode .s false with mstatus := { State.reset.mstatus with tw := true } } : State).mstatus.tw = true := by decide
theorem witness_TrapTargets :
    active.cfg.trapTarget = .delegation ∧ active.priv = .m ∧ (inMode .u true).priv ≠ .m ∧ (inMode .u true).cfg.hasS = true ∧
    ({ inMode .u true with medeleg := 4#64, hedeleg := 4#64 } : State).exceptionTarget 2 = .vs ∧
    ({ inMode .u true with medeleg := 1#64 } : State).exceptionTarget 0 = .hs ∧
    (routed .u).cfg.trapTarget =
      .table ([] ++ { cause := 8, priv := (routed .u).priv, virt := (routed .u).virt, target := .hs } ::
        [{ cause := 9, priv := .s, virt := false, target := .vs }]) ∧
    (routed .s).cfg.trapTarget =
      .table ([{ cause := 8, priv := .u, virt := false, target := .hs }] ++
        { cause := 9, priv := (routed .s).priv, virt := (routed .s).virt, target := .vs } :: []) := by decide
theorem witness_MretResult : active.priv = .m := by decide
theorem witness_SretResult :
    active.cfg.hasS = true ∧ active.virt = false ∧ active.priv = .m ∧ (inMode .s false).mstatus.tsr = false ∧
    (inMode .s true).virt = true ∧ (inMode .s true).priv ≠ .u ∧ (inMode .s true).hstatus.vtsr = false := by decide
theorem witness_TrapReturnFaults :
    (inMode .s false).priv ≠ .m ∧ (inMode .u false).virt = false ∧ (inMode .u false).priv = .u ∧
    ({ active with cfg := { Config.reference with hasS := false, hasH := false } } : State).cfg.hasS = false ∧
    ({ inMode .s false with mstatus := { State.reset.mstatus with tsr := true } } : State).mstatus.tsr = true ∧
    (inMode .u true).cfg.hasS = true ∧ (inMode .u true).virt = true ∧
    ({ inMode .s true with hstatus := { spv := false, vtsr := true } } : State).hstatus.vtsr = true := by decide
theorem witness_CsrInstructionResults :
    active.csrAccess 0x300#12 true = .reaches .mstatus ∧ active.csrAccess 0x300#12 false = .reaches .mstatus ∧
    (inMode .s true).csrAccess 0x100#12 true = .reaches .vsstatus := by decide
theorem witness_CsrAccessFaults :
    csrOfNumber 0x001#12 = none ∧ csrOfNumber 0x60A#12 = some .henvcfg ∧
    csrExists { Config.reference with hasH := false } .henvcfg = false ∧ cfg64.xlen = .x64 ∧
    (0xC00#12).extractLsb' 10 2 = 0b11#2 ∧ (0x300#12).extractLsb' 8 2 = 0b11#2 ∧ (inMode .u true).priv ≠ .m ∧
    (0x100#12).extractLsb' 8 2 = 0b01#2 ∧ (inMode .u true).priv = .u ∧ (0x600#12).extractLsb' 8 2 = 0b10#2 ∧
    (inMode .u false).virt = false ∧ (inMode .u false).priv = .u ∧ (inMode .s true).virt = true ∧
    csrExists (inMode .s true).cfg .henvcfg = true ∧ (inMode .s true).cfg.hasH = true := by decide
theorem witness_CsrNumbers :
    active.priv = .m ∧ active.cfg.xlen = .x32 ∧ active.cfg.hasS = true ∧ active.cfg.hasZicfisslp = true ∧
    (inMode .s false).priv ≠ .u ∧ (inMode .s false).cfg.hasH = true ∧ (inMode .s false).virt = false := by decide
theorem witness_SstatusView :
    active.cfg.wf = true ∧ active.cfg.hasZicfisslp = true ∧ active.cfg.hasS = true ∧ active.cfg.sstatusHasUfcfie = true ∧
    ({ Config.reference with sstatusHasUfcfie := false, hasU := false } : Config).wf = true := by decide

/-- The reference parameters with `MPELP` in `mstatush`. -/
def cfgHigh : Config := { Config.reference with pos := { Config.reference.pos with mstatusMpelp := 41 } }

theorem witness_ExtensionFieldsReadWrite :
    Config.reference.wf = true ∧ Config.reference.hasS = true ∧ Config.reference.hasU = true ∧
    Config.reference.hasH = true ∧ Config.reference.pos.mstatusMpelp < 32 ∧
    Config.reference.pos.mseccfgMfcfie < 32 ∧ Config.reference.pos.menvcfgCfie < 32 ∧
    Config.reference.pos.henvcfgSfcfie < 32 ∧ cfgHigh.wf = true ∧ cfgHigh.xlen = .x32 ∧
    32 ≤ cfgHigh.pos.mstatusMpelp ∧
    ({ Config.reference with hasS := false, hasU := false, hasH := false } : Config).wf = true ∧
    ({ Config.reference with hasU := false } : Config).wf = true ∧
    ({ State.reset with cfg := { Config.reference with hasU := false } } : State).mstatus.ufcfie = false := by decide
/-- The premises of the clause about the other half, with `MPELP` below 32 and above. -/
theorem witness_ExtensionFieldsReadWrite_halves :
    State.reset.FieldsOk ∧ State.reset.cfg.xlen = .x32 ∧ State.reset.cfg.pos.mstatusMpelp < 32 ∧
    (State.resetOf cfgHigh (.replicate 32 resetRegister)).FieldsOk ∧ 32 ≤ cfgHigh.pos.mstatusMpelp := by
  unfold State.FieldsOk; decide
theorem witness_HostFieldsReadWrite :
    active.cfg.wf = true ∧ active.cfg.hasS = true ∧ active.cfg.hasU = true ∧ active.cfg.hasH = true ∧
    active.cfg.xlen = .x32 ∧ cfg64.xlen = .x64 ∧ (0x1800#64).extractLsb' 11 2 = 0b11#2 ∧
    (0x0800#64).extractLsb' 11 2 = 0b01#2 ∧ (0x0000#64).extractLsb' 11 2 = 0b00#2 ∧ active.ModeOk ∧
    ({ Config.reference with hasS := false, hasU := false, hasH := false } : Config).wf = true := by
  unfold State.ModeOk; decide
theorem witness_HostRegistersReadWrite :
    Xlen.x32.wrap 0xFFFFFFFF#64 = 0xFFFFFFFF#64 ∧ Xlen.x64.wrap 0xFFFFFFFFFFFFFFFF#64 = 0xFFFFFFFFFFFFFFFF#64 ∧
    csrHome .mstatush ≠ csrHome .mcause := by decide

/-- `lpad 0` about to be fetched with a landing pad expected. -/
def landing : State := (activeAt 0x2000#64 .lpExpected).withFetchWord 32 0x00000017

theorem landing_executes : Executes landing (.lpad 0#20) := by
  refine ⟨by decide, .code (.word 0x00000017#32), ?_, by decide, by decide⟩
  rfl

theorem witness_StepRunsDecoded : Executes landing (.lpad 0#20) ∧ (Instr.lpad 0#20).wf = true :=
  ⟨landing_executes, by decide⟩
theorem witness_BytesAtPcExecute :
    (Instr.lpad 0#20).wf = true ∧ landing.answer = .quiet ∧
    (∀ k, (h : k < (encode (.lpad 0#20)).bytes.length) →
      landing.mem.read (byteAddress landing.cfg.xlen landing.pc k) = (encode (.lpad 0#20)).bytes[k]) ∧
    (landing.cfg.hasC = true ∨ (encode (.lpad 0#20)).length = 4) ∧
    (landing.xfcfie = false ∨ landing.elp = .noLpExpected ∨ ∃ l, Instr.lpad 0#20 = .lpad l) := by
  refine ⟨by decide, by decide, ?_, .inl (by decide), .inr (.inr ⟨_, rfl⟩)⟩
  intro k h
  match k, h with
  | 0, _ => rfl
  | 1, _ => rfl
  | 2, _ => rfl
  | 3, _ => rfl
  | k + 4, h => exact absurd (show k + 4 < 4 from h) (by omega)
theorem witness_InterruptFirst :
    interrupted.answer.interrupt = some { cause := 7, target := .m } ∧
    interrupted.takenInterrupt = some { cause := 7, target := .m } ∧ State.reset.answer.interrupt = none ∧
    ({ inMode .u true with
      mie := 4#64, mip := 4#64, mideleg := 4#64, hideleg := 4#64,
      answers := [{ HostAnswer.quiet with interrupt := some { cause := 2, target := .vs } }] } : State).takenInterrupt =
      some { cause := 2, target := .vs } ∧
    ({ routed .u with
      mie := 2#64, mip := 2#64,
      answers := [{ HostAnswer.quiet with interrupt := some { cause := 1, target := .hs } }] } : State).takenInterrupt =
      some { cause := 1, target := .hs } := by decide
theorem witness_FetchExceptionBeforeRequirement :
    fetchRefused.takenInterrupt = none ∧ fetchRefused.answer.fetch = some .accessFault := by decide

/-- `ecall` about to be fetched where a landing pad is expected. -/
def missing : State := (activeAt 0x2000#64 .lpExpected).withFetchWord 32 0x00000073

theorem witness_LandingPadRequirement :
    missing.takenInterrupt = none ∧ missing.fetch = .ok (.code (.word 0x00000073#32)) ∧ missing.xfcfie = true ∧
    missing.elp = .lpExpected ∧ Fetched.isLpad (.code (.word 0x00000073#32)) = false :=
  ⟨by decide, rfl, by decide, by decide, by decide⟩
theorem witness_IllegalEncodingTraps :
    State.reset.takenInterrupt = none ∧ State.reset.fetch = .ok (.code (.half 0x0000#16)) ∧
    decodeFetched State.reset.cfg (.code (.half 0x0000#16)) = .error .noSuchHalf ∧ noC.cfg.hasC = false ∧
    State.reset.answer.fetch = none ∧ (0x9002#16).extractLsb' 0 2 ≠ 0b11#2 ∧ (0x0017#16).extractLsb' 0 2 = 0b11#2 ∧
    (0x0017#16).extractLsb' 2 3 ≠ 0b111#3 ∧ (0x001F#16).extractLsb' 2 3 = 0b111#3 :=
  ⟨by decide, rfl, rfl, by decide, by decide, by decide, by decide, by decide, by decide⟩
theorem witness_PendingLandingPadLastsOneStep : landing.xfcfie = true ∧ landing.elp = .lpExpected := by decide

/-- A jump about to be fetched with CFI active. -/
def jumping : State := active.withFetchWord 32 0x000500E7
/-- An `mret` about to be fetched that restores a pending landing pad. -/
def returning : State :=
  { active with mstatus := { State.reset.mstatus with mpelp := .lpExpected } }.withFetchWord 32 0x30200073
/-- `addi` about to be fetched with `ELP` = 1 while CFI is inactive. -/
def lingering : State := { State.reset with elp := .lpExpected }.withFetchWord 32 0x02A00613

theorem witness_WhatSetsElp :
    (after (step jumping) jumping).elp = .lpExpected ∧ (after (step returning) returning).elp = .lpExpected ∧
    (after (step lingering) lingering).elp = .lpExpected ∧ isNext (step jumping) = true ∧
    isNext (step returning) = true ∧ isNext (step lingering) = true := by decide
theorem witness_UserModeConfinement :
    ((inMode .u false).withFetchWord 32 0x30029073).priv = .u ∧
    isNext (step ((inMode .u false).withFetchWord 32 0x30029073)) = true := by decide
theorem witness_GuestConfinement :
    ((inMode .s true).withFetchWord 32 0x10029073).priv = .s ∧ ((inMode .s true).withFetchWord 32 0x10029073).virt = true ∧
    isNext (step ((inMode .s true).withFetchWord 32 0x10029073)) = true := by decide
theorem witness_EnableGovernsNextInstruction :
    State.reset.priv = .m ∧ State.reset.cfg.hasZicfisslp = true ∧ State.reset.cfg.pos.mseccfgMfcfie < 32 := by decide

/-- A store to the last word of the address space about to be fetched, over a memory that lists its last byte. -/
def storing : State :=
  setX { State.reset with mem := [(0xFFFFFFFF, 1#8)], staleStores := [[(0xFFFFFFFF, 2#8)]] } 6 0#64
    |>.withFetchWord 32 0xFE532E23

theorem witness_StepKeepsMemory : storing.MemoryOk ∧ isNext (step storing) = true := by
  unfold State.MemoryOk; decide
theorem witness_StepKeepsPcAligned : noC.PcOk ∧ isNext (step noC) = true := by
  unfold State.PcOk; decide
theorem witness_StepKeepsMode :
    (inMode .s true).cfg.wf = true ∧ (inMode .s true).ModeOk ∧ isNext (step (inMode .s true)) = true := by
  unfold State.ModeOk; decide

/-- A hart without the extension. -/
def without : State := .resetOf { Config.reference with hasZicfisslp := false } (.replicate 32 resetRegister)

theorem witness_StepKeepsFields : without.FieldsOk ∧ isNext (step without) = true := by
  unfold State.FieldsOk; decide
theorem witness_StepKeepsWords : State.reset.WordsOk ∧ isNext (step State.reset) = true := by
  unfold State.WordsOk TrapCsrsFit Fits; decide
theorem witness_ResetState :
    Config.reference.hasZicfisslp = true ∧ Config.reference.hasS = true ∧ Config.reference.hasU = true ∧
    Config.reference.hasH = true ∧ (31 : RegIdx) ≠ 0 := by decide
theorem witness_ResetMeetsInvariants :
    Config.reference.wf = true ∧
    ∀ r : RegIdx, Config.reference.xlen.wrap (Vector.replicate 32 resetRegister)[r] =
      (Vector.replicate 32 resetRegister)[r] := by decide

end Sys2Proof.Tests
end

section
/-! PROOFS. The positions that `Config.wf` admits, and reading one bit of a status or configuration word
(spec/10_state.md R31 to R34). -/

namespace Sys2Proof.Machine

/-! ### Positions (R6, D5) -/

/-- The thirteen positions of `mstatus`: the host's, then the extension's. -/
def mstatusPositions (p : FieldPositions) : List Nat :=
  hostMstatusPositions ++ [p.mstatusUfcfie, p.mstatusSpelp, p.mstatusMpelp]

/-- What `FieldPositions.wf` says, in the terms in which a packed word is read. -/
structure PositionsApart (x : Xlen) (p : FieldPositions) : Prop where
  mseccfg_lt : p.mseccfgMfcfie < 64
  menvcfg_lt : p.menvcfgCfie < 64 ∧ p.menvcfgSfcfie < 64
  menvcfg_ne : p.menvcfgCfie ≠ p.menvcfgSfcfie
  henvcfg_lt : p.henvcfgCfie < 64 ∧ p.henvcfgSfcfie < 64
  henvcfg_ne : p.henvcfgCfie ≠ p.henvcfgSfcfie
  mpelp_lt : p.mstatusMpelp < 64
  spelp_lt : p.mstatusSpelp < x.bits
  ufcfie_lt : p.mstatusUfcfie < x.bits
  mstatus_nodup : (mstatusPositions p).Nodup
  vsstatus_spelp : p.vsstatusSpelp = p.mstatusSpelp
  vsstatus_ufcfie : p.vsstatusUfcfie = p.mstatusUfcfie

theorem positionsApart_of_wf {c : Config} (h : c.wf = true) : PositionsApart c.xlen c.pos := by
  have hp : c.pos.wf c.xlen = true := by
    simp only [Config.wf, Bool.and_eq_true, and_assoc] at h
    obtain ⟨-, hp, -⟩ := h
    exact hp
  simp only [FieldPositions.wf, Bool.and_eq_true, decide_eq_true_eq, bne_iff_ne, beq_iff_eq, Bool.not_eq_true',
    List.contains_eq_mem, decide_eq_false_iff_not, and_assoc] at hp
  obtain ⟨hmf, hmc, hms, hmne, hhc, hhs, hhne, hmp, hsp, huf, hmpsp, hmpuf, hspuf, hostMp, hostSp, hostUf, hvsp, hvuf⟩ := hp
  refine ⟨hmf, ⟨hmc, hms⟩, hmne, ⟨hhc, hhs⟩, hhne, hmp, hsp, huf, ?_, hvsp, hvuf⟩
  rw [mstatusPositions, List.nodup_append]
  refine ⟨by decide, by simp [hmpsp.symm, hmpuf.symm, hspuf.symm], ?_⟩
  intro a ha b hb hab
  subst hab
  simp only [List.mem_cons, List.not_mem_nil, or_false] at hb
  rcases hb with rfl | rfl | rfl
  · exact hostUf ha
  · exact hostSp ha
  · exact hostMp ha

/-! ### One bit of a packed word -/

/-- Where no two fields share a position, a listed field is the bit at its position. -/
theorem packBits_getLsbD_of_mem {l : List (Nat × Bool)} (hl : (l.map Prod.fst).Nodup) {p : Nat} {b : Bool} (hp : p < 64)
    (h : (p, b) ∈ l) : (packBits l).getLsbD p = b := by
  rw [packBits_getLsbD l hp, Bool.eq_iff_iff, List.any_eq_true]
  constructor
  · rintro ⟨⟨q, d⟩, hf, hqd⟩
    obtain ⟨rfl, hd⟩ : q = p ∧ d = true := by simpa using hqd
    have hbd : b = d := congrArg Prod.snd (List.inj_on_of_nodup_map hl h hf rfl)
    rw [hbd, hd]
  · intro hb
    exact ⟨(p, b), h, by simp [hb]⟩

/-- A position that no field has reads 0. -/
theorem packBits_getLsbD_of_notMem {l : List (Nat × Bool)} {p : Nat} (h : p ∉ l.map Prod.fst) :
    (packBits l).getLsbD p = false := by
  by_cases hp : p < 64
  · rw [packBits_getLsbD l hp, List.any_eq_false]
    intro f hf hfp
    have hfst : f.1 = p := by simp_all
    exact h (hfst ▸ List.mem_map_of_mem hf)
  · exact BitVec.getLsbD_of_ge _ _ (by omega)

/-- Wrapping keeps the bits below `XLEN`. -/
theorem wrap_getLsbD_of_lt {x : Xlen} {p : Nat} (h : p < x.bits) (w : Word) : (x.wrap w).getLsbD p = w.getLsbD p := by
  simp [Xlen.wrap_getLsbD, h]

/-- A position below 32 lies in the register for either `XLEN`. -/
theorem lt_bits_of_lt {p : Nat} (h : p < 32) (x : Xlen) : p < x.bits := Nat.lt_of_lt_of_le h x.bits_ge

/-! ### The fields of each word -/

/-- The fields of `mstatus` with their positions. -/
def Mstatus.fields (c : Config) (m : Mstatus) : List (Nat × Bool) :=
  [(1, m.sie), (3, m.mie), (5, m.spie), (7, m.mpie), (8, m.spp),
   (11, (privBits m.mpp).getLsbD 0), (12, (privBits m.mpp).getLsbD 1), (21, m.tw), (22, m.tsr), (39, m.mpv),
   (c.pos.mstatusUfcfie, m.ufcfie), (c.pos.mstatusSpelp, m.spelp.toBool), (c.pos.mstatusMpelp, m.mpelp.toBool)]

theorem mstatus_word_eq (c : Config) (m : Mstatus) : m.word c = packBits (m.fields c) := rfl

/-- The fields of the restricted view `sstatus` with their positions (R32). -/
def Mstatus.sstatusFields (c : Config) (m : Mstatus) : List (Nat × Bool) :=
  [(1, m.sie), (5, m.spie), (8, m.spp), (c.pos.mstatusUfcfie, c.sstatusHasUfcfie && m.ufcfie),
   (c.pos.mstatusSpelp, m.spelp.toBool)]

theorem readCsr_sstatus_eq (s : State) :
    s.readCsr .sstatus = s.cfg.xlen.wrap (packBits (s.mstatus.sstatusFields s.cfg)) := rfl

/-- The fields of `vsstatus` with their positions. -/
def Vsstatus.fields (c : Config) (m : Vsstatus) : List (Nat × Bool) :=
  [(1, m.sie), (5, m.spie), (8, m.spp), (c.pos.vsstatusUfcfie, m.ufcfie), (c.pos.vsstatusSpelp, m.spelp.toBool)]

theorem readCsr_vsstatus_eq (s : State) :
    s.readCsr .vsstatus = s.cfg.xlen.wrap (packBits (s.vsstatus.fields s.cfg)) := rfl

/-- The positions of `sstatus`, and of `vsstatus` too (R32). -/
def sstatusPositions (p : FieldPositions) : List Nat := [1, 5, 8] ++ [p.mstatusUfcfie, p.mstatusSpelp]

theorem sstatusPositions_mpelp_sublist (p : FieldPositions) :
    (sstatusPositions p ++ [p.mstatusMpelp]).Sublist (mstatusPositions p) := by
  rw [sstatusPositions, List.append_assoc]
  exact List.Sublist.append (by decide) (List.Sublist.refl _)

/-- The positions of `sstatus` are distinct, and `MPELP` stands at none of them. -/
theorem sstatusPositions_nodup {c : Config} (hc : c.wf = true) :
    (sstatusPositions c.pos).Nodup ∧ c.pos.mstatusMpelp ∉ sstatusPositions c.pos := by
  have hn := (positionsApart_of_wf hc).mstatus_nodup.sublist (sstatusPositions_mpelp_sublist c.pos)
  obtain ⟨hs, _, hd⟩ := List.nodup_append.1 hn
  exact ⟨hs, fun hm => hd _ hm _ (List.mem_singleton.2 rfl) rfl⟩

/-- A position of `mstatus` lies in its 64-bit register. -/
theorem mstatusPosition_lt {c : Config} (hc : c.wf = true) {p : Nat} (h : p ∈ mstatusPositions c.pos) : p < 64 := by
  have ap := positionsApart_of_wf hc
  have hb := c.xlen.bits_le
  rcases List.mem_append.1 h with hh | hh
  · have hall : ∀ q ∈ hostMstatusPositions, q < 64 := by decide
    exact hall p hh
  · have := ap.spelp_lt
    have := ap.ufcfie_lt
    have := ap.mpelp_lt
    simp only [List.mem_cons, List.not_mem_nil, or_false] at hh
    omega

/-- A position of `sstatus` lies below `XLEN`. -/
theorem sstatusPosition_lt {c : Config} (hc : c.wf = true) {p : Nat} (h : p ∈ sstatusPositions c.pos) :
    p < c.xlen.bits := by
  have ap := positionsApart_of_wf hc
  have := ap.spelp_lt
  have := ap.ufcfie_lt
  have := c.xlen.bits_ge
  simp only [sstatusPositions, List.mem_append, List.mem_cons, List.not_mem_nil, or_false] at h
  omega

section Words

variable {s : State} {p : Nat} {b : Bool} (hc : s.cfg.wf = true)

include hc

theorem mstatus_word_getLsbD (h : (p, b) ∈ s.mstatus.fields s.cfg) : (s.mstatus.word s.cfg).getLsbD p = b := by
  have hp := mstatusPosition_lt hc (List.mem_map_of_mem (f := Prod.fst) h)
  rw [mstatus_word_eq]
  exact packBits_getLsbD_of_mem (l := s.mstatus.fields s.cfg) (positionsApart_of_wf hc).mstatus_nodup hp h

/-- A word with the positions of `sstatus` fits in `XLEN` bits, so that a read returns each of its fields. -/
theorem wrap_packBits_getLsbD {l : List (Nat × Bool)} (hl : l.map Prod.fst = sstatusPositions s.cfg.pos) (h : (p, b) ∈ l) :
    (s.cfg.xlen.wrap (packBits l)).getLsbD p = b := by
  have hp := sstatusPosition_lt hc (hl ▸ List.mem_map_of_mem (f := Prod.fst) h)
  have hb := s.cfg.xlen.bits_le
  rw [wrap_getLsbD_of_lt hp]
  exact packBits_getLsbD_of_mem (hl ▸ (sstatusPositions_nodup hc).1) (by omega) h

theorem readCsr_sstatus_getLsbD (h : (p, b) ∈ s.mstatus.sstatusFields s.cfg) : (s.readCsr .sstatus).getLsbD p = b := by
  rw [readCsr_sstatus_eq]
  exact wrap_packBits_getLsbD hc rfl h

theorem readCsr_vsstatus_getLsbD (h : (p, b) ∈ s.vsstatus.fields s.cfg) : (s.readCsr .vsstatus).getLsbD p = b := by
  have ap := positionsApart_of_wf hc
  rw [readCsr_vsstatus_eq]
  exact wrap_packBits_getLsbD hc (by simp [Vsstatus.fields, sstatusPositions, ap.vsstatus_spelp, ap.vsstatus_ufcfie]) h

/-- `sstatus` never shows `MPELP` (R32). -/
theorem readCsr_sstatus_mpelp : (s.readCsr .sstatus).getLsbD s.cfg.pos.mstatusMpelp = false := by
  have hz : (packBits (s.mstatus.sstatusFields s.cfg)).getLsbD s.cfg.pos.mstatusMpelp = false :=
    packBits_getLsbD_of_notMem (sstatusPositions_nodup hc).2
  rw [readCsr_sstatus_eq, Xlen.wrap_getLsbD, hz, Bool.and_false]

end Words

/-- A read of `hstatus` returns each of its fields. -/
theorem readCsr_hstatus_getLsbD (s : State) :
    (s.readCsr .hstatus).getLsbD 7 = s.hstatus.spv ∧ (s.readCsr .hstatus).getLsbD 22 = s.hstatus.vtsr := by
  have bit : ∀ {p b}, p < 32 → (p, b) ∈ [(7, s.hstatus.spv), (22, s.hstatus.vtsr)] →
      (s.readCsr .hstatus).getLsbD p = b := fun hp h =>
    (wrap_getLsbD_of_lt (lt_bits_of_lt hp _) _).trans (packBits_getLsbD_of_mem (by simp) (by omega) h)
  exact ⟨bit (by decide) (by simp), bit (by decide) (by simp)⟩

end Sys2Proof.Machine
end

section
/-! PROOFS. The fields of the registers that are 64 bits wide for either `XLEN`: one description of a field held behind a CSR
and its `h` half, from which its reads, its writes and what keeps it follow (spec/10_state.md R31 to R34). -/

namespace Sys2Proof.Machine

/-! ### A field behind a CSR and its `h` half -/

/-- `get` is held at position `p` of the 64-bit register `w` that `low` and `high` show; a write stores the merged bit where the
field exists, and 0 where it does not (R31, R33). -/
structure StoredField (s : State) (low high : Csr) (p : Nat) (get : State → Bool) (present : Bool) (w : Word) : Prop where
  pos : p < 64
  stored : w.getLsbD p = get s
  readLow : s.readCsr low = s.cfg.xlen.wrap w
  readHigh : s.readCsr high = upperHalf w
  writeLow : ∀ v, get (s.writeCsr low v) = (present && (mergeLow s.cfg.xlen w v).getLsbD p)
  writeHigh : ∀ v, get (s.writeCsr high v) = (present && (mergeHigh w v).getLsbD p)

namespace StoredField

variable {s : State} {low high : Csr} {p : Nat} {get : State → Bool} {present : Bool} {w : Word}

/-- A read of the unsuffixed CSR returns a field below position `XLEN`. -/
theorem read_low (h : StoredField s low high p get present w) (hp : p < s.cfg.xlen.bits) :
    (s.readCsr low).getLsbD p = get s := by
  rw [h.readLow, wrap_getLsbD_of_lt hp, h.stored]

/-- A read of the `h` register returns a field at position 32 or more. -/
theorem read_high (h : StoredField s low high p get present w) (hp : 32 ≤ p) :
    (s.readCsr high).getLsbD (p - 32) = get s := by
  have hlt := h.pos
  rw [h.readHigh, upperHalf_getLsbD _ (by omega), Nat.sub_add_cancel hp, h.stored]

/-- A write of the unsuffixed CSR stores a field below position `XLEN`. -/
theorem write_low (h : StoredField s low high p get present w) (he : present = true) (hp : p < s.cfg.xlen.bits) (v : Word) :
    get (s.writeCsr low v) = v.getLsbD p := by
  rw [h.writeLow, mergeLow_getLsbD _ _ _ h.pos, he, if_pos hp, Bool.true_and]

/-- A write of the `h` register stores a field at position 32 or more. -/
theorem write_high (h : StoredField s low high p get present w) (he : present = true) (hp : 32 ≤ p) (v : Word) :
    get (s.writeCsr high v) = v.getLsbD (p - 32) := by
  rw [h.writeHigh, mergeHigh_getLsbD _ _ h.pos, he, if_neg (by omega), Bool.true_and]

/-- A field that exists is a plain read/write bit of its register. -/
theorem plainField (h : StoredField s low high p get present w) (he : present = true) (v : Word) :
    PlainField s low high p get v := by
  refine ⟨fun hp => ?_, fun _ hp => ⟨h.read_high hp, h.write_high he hp v⟩⟩
  have hlt : p < s.cfg.xlen.bits := by
    have hb := s.cfg.xlen.bits_ge
    rcases hp with hx | hp
    · rw [hx]; exact h.pos
    · omega
  exact ⟨h.read_low hlt, h.write_low he hlt v⟩

/-- What a write stores where it merges in the old bit, if a field that does not exist was 0 before. -/
theorem present_and_stored (h : StoredField s low high p get present w) (h0 : present = false → get s = false) :
    (present && w.getLsbD p) = get s := by
  cases present with
  | true => exact h.stored
  | false => exact (h0 rfl).symm

/-- With `XLEN` = 32 a write of the other half keeps a field, if one that does not exist was 0 before. -/
theorem keptByOtherHalf (h : StoredField s low high p get present w) (h0 : present = false → get s = false) (v : Word) :
    KeptByOtherHalf s low high p get v := by
  refine fun hx => ⟨fun hp => ?_, fun hp => ?_⟩
  · rw [h.writeHigh, mergeHigh_getLsbD _ _ h.pos, if_pos hp, h.present_and_stored h0]
  · have hge : ¬ p < s.cfg.xlen.bits := by rw [hx]; exact Nat.not_lt.2 hp
    rw [h.writeLow, mergeLow_getLsbD _ _ _ h.pos, if_neg hge, h.present_and_stored h0]

/-- A field that exists is kept by a write of the other half, whatever the fields that do not exist hold. -/
theorem kept_of_present (h : StoredField s low high p get present w) (he : present = true) (v : Word) :
    KeptByOtherHalf s low high p get v :=
  h.keptByOtherHalf (by simp [he]) v

/-- A field that does not exist is 0 after a write of either half. -/
theorem write_absent (h : StoredField s low high p get present w) (he : present = false) {r : Csr}
    (hr : r = low ∨ r = high) (v : Word) : get (s.writeCsr r v) = false := by
  rcases hr with rfl | rfl
  · rw [h.writeLow, he, Bool.false_and]
  · rw [h.writeHigh, he, Bool.false_and]

end StoredField

/-! ### `ELP` bits -/

@[simp] theorem Elp.toBool_ofBool (b : Bool) : (Elp.ofBool b).toBool = b := by cases b <;> rfl

theorem Elp.toBool_eq_false_iff (e : Elp) : e.toBool = false ↔ e = .noLpExpected := by
  cases e <;> simp [Elp.toBool]

/-- A field of a register that is one packed word. -/
theorem storedField_packed {s : State} {low high : Csr} {p : Nat} {get : State → Bool} {present : Bool}
    {l : List (Nat × Bool)} (hl : (l.map Prod.fst).Nodup) (hp : p < 64) (hmem : (p, get s) ∈ l)
    (readLow : s.readCsr low = s.cfg.xlen.wrap (packBits l)) (readHigh : s.readCsr high = upperHalf (packBits l))
    (writeLow : ∀ v, get (s.writeCsr low v) = (present && (mergeLow s.cfg.xlen (packBits l) v).getLsbD p))
    (writeHigh : ∀ v, get (s.writeCsr high v) = (present && (mergeHigh (packBits l) v).getLsbD p)) :
    StoredField s low high p get present (packBits l) :=
  ⟨hp, packBits_getLsbD_of_mem hl hp hmem, readLow, readHigh, writeLow, writeHigh⟩

/-! ### The fields of `mstatus` -/

/-- Whatever is written, `mstatus` takes the fields of the merged word and some implemented or free `MPP`. -/
theorem putMstatus_fields (s : State) (w : Word) : ∃ q, (s.putMstatus w).mstatus = .fieldsFrom s.cfg w q := by
  obtain ⟨q, n, h⟩ := putMstatus_eq s w
  exact ⟨q, by rw [h]⟩

/-- A field of `mstatus`, given the bit that a write of the whole register stores in it. -/
theorem storedField_mstatus {s : State} (hc : s.cfg.wf = true) {p : Nat} {get : Mstatus → Bool} {present : Bool}
    (hmem : (p, get s.mstatus) ∈ s.mstatus.fields s.cfg)
    (hput : ∀ w q, get (.fieldsFrom s.cfg w q) = (present && w.getLsbD p)) :
    StoredField s .mstatus .mstatush p (fun t => get t.mstatus) present (s.mstatus.word s.cfg) where
  pos := mstatusPosition_lt hc (List.mem_map_of_mem (f := Prod.fst) hmem)
  stored := mstatus_word_getLsbD hc hmem
  readLow := rfl
  readHigh := rfl
  writeLow v := by
    obtain ⟨q, h⟩ := putMstatus_fields s (mergeLow s.cfg.xlen (s.mstatus.word s.cfg) v)
    rw [State.writeCsr, h, hput]
  writeHigh v := by
    obtain ⟨q, h⟩ := putMstatus_fields s (mergeHigh (s.mstatus.word s.cfg) v)
    rw [State.writeCsr, h, hput]

section Fields

variable {s : State} (hc : s.cfg.wf = true)

include hc

theorem storedField_mpelp :
    StoredField s .mstatus .mstatush s.cfg.pos.mstatusMpelp (fun t => t.mstatus.mpelp.toBool) s.cfg.hasMfcfie
      (s.mstatus.word s.cfg) :=
  storedField_mstatus (get := fun m => m.mpelp.toBool) hc (by simp [Mstatus.fields]) (by simp [Mstatus.fieldsFrom])

theorem storedField_spelp :
    StoredField s .mstatus .mstatush s.cfg.pos.mstatusSpelp (fun t => t.mstatus.spelp.toBool) s.cfg.hasSField
      (s.mstatus.word s.cfg) :=
  storedField_mstatus (get := fun m => m.spelp.toBool) hc (by simp [Mstatus.fields]) (by simp [Mstatus.fieldsFrom])

theorem storedField_ufcfie :
    StoredField s .mstatus .mstatush s.cfg.pos.mstatusUfcfie (fun t => t.mstatus.ufcfie) s.cfg.hasUField
      (s.mstatus.word s.cfg) :=
  storedField_mstatus (get := fun m => m.ufcfie) hc (by simp [Mstatus.fields]) (by simp [Mstatus.fieldsFrom])

theorem storedField_sie :
    StoredField s .mstatus .mstatush 1 (fun t => t.mstatus.sie) s.cfg.hasS (s.mstatus.word s.cfg) :=
  storedField_mstatus (get := fun m => m.sie) hc (by simp [Mstatus.fields]) (by simp [Mstatus.fieldsFrom])

theorem storedField_mie :
    StoredField s .mstatus .mstatush 3 (fun t => t.mstatus.mie) true (s.mstatus.word s.cfg) :=
  storedField_mstatus (get := fun m => m.mie) hc (by simp [Mstatus.fields]) (by simp [Mstatus.fieldsFrom])

theorem storedField_spie :
    StoredField s .mstatus .mstatush 5 (fun t => t.mstatus.spie) s.cfg.hasS (s.mstatus.word s.cfg) :=
  storedField_mstatus (get := fun m => m.spie) hc (by simp [Mstatus.fields]) (by simp [Mstatus.fieldsFrom])

theorem storedField_mpie :
    StoredField s .mstatus .mstatush 7 (fun t => t.mstatus.mpie) true (s.mstatus.word s.cfg) :=
  storedField_mstatus (get := fun m => m.mpie) hc (by simp [Mstatus.fields]) (by simp [Mstatus.fieldsFrom])

theorem storedField_spp :
    StoredField s .mstatus .mstatush 8 (fun t => t.mstatus.spp) s.cfg.hasS (s.mstatus.word s.cfg) :=
  storedField_mstatus (get := fun m => m.spp) hc (by simp [Mstatus.fields]) (by simp [Mstatus.fieldsFrom])

theorem storedField_tw :
    StoredField s .mstatus .mstatush 21 (fun t => t.mstatus.tw) (s.cfg.hasS || s.cfg.hasU) (s.mstatus.word s.cfg) :=
  storedField_mstatus (get := fun m => m.tw) hc (by simp [Mstatus.fields]) (by simp [Mstatus.fieldsFrom])

theorem storedField_tsr :
    StoredField s .mstatus .mstatush 22 (fun t => t.mstatus.tsr) s.cfg.hasS (s.mstatus.word s.cfg) :=
  storedField_mstatus (get := fun m => m.tsr) hc (by simp [Mstatus.fields]) (by simp [Mstatus.fieldsFrom])

theorem storedField_mpv :
    StoredField s .mstatus .mstatush 39 (fun t => t.mstatus.mpv) s.cfg.hasH (s.mstatus.word s.cfg) :=
  storedField_mstatus (get := fun m => m.mpv) hc (by simp [Mstatus.fields]) (by simp [Mstatus.fieldsFrom])

/-! ### The fields of `mseccfg`, `menvcfg` and `henvcfg` -/

theorem storedField_mfcfie :
    StoredField s .mseccfg .mseccfgh s.cfg.pos.mseccfgMfcfie (fun t => t.mfcfie) s.cfg.hasMfcfie s.mseccfgWord :=
  storedField_packed (by simp) (positionsApart_of_wf hc).mseccfg_lt (by simp) rfl rfl (fun _ => rfl) (fun _ => rfl)

theorem storedField_menvCfie :
    StoredField s .menvcfg .menvcfgh s.cfg.pos.menvcfgCfie (fun t => t.menvcfg.cfie) s.cfg.hasMenvCfie s.menvcfgWord :=
  storedField_packed (by simpa using (positionsApart_of_wf hc).menvcfg_ne) (positionsApart_of_wf hc).menvcfg_lt.1
    (by simp) rfl rfl (fun _ => rfl) (fun _ => rfl)

theorem storedField_menvSfcfie :
    StoredField s .menvcfg .menvcfgh s.cfg.pos.menvcfgSfcfie (fun t => t.menvcfg.sfcfie) s.cfg.hasSField s.menvcfgWord :=
  storedField_packed (by simpa using (positionsApart_of_wf hc).menvcfg_ne) (positionsApart_of_wf hc).menvcfg_lt.2
    (by simp) rfl rfl (fun _ => rfl) (fun _ => rfl)

theorem storedField_henvCfie :
    StoredField s .henvcfg .henvcfgh s.cfg.pos.henvcfgCfie (fun t => t.henvcfg.cfie) s.cfg.hasHField s.henvcfgWord :=
  storedField_packed (by simpa using (positionsApart_of_wf hc).henvcfg_ne) (positionsApart_of_wf hc).henvcfg_lt.1
    (by simp) rfl rfl (fun _ => rfl) (fun _ => rfl)

theorem storedField_henvSfcfie :
    StoredField s .henvcfg .henvcfgh s.cfg.pos.henvcfgSfcfie (fun t => t.henvcfg.sfcfie) s.cfg.hasHField s.henvcfgWord :=
  storedField_packed (by simpa using (positionsApart_of_wf hc).henvcfg_ne) (positionsApart_of_wf hc).henvcfg_lt.2
    (by simp) rfl rfl (fun _ => rfl) (fun _ => rfl)

end Fields

end Sys2Proof.Machine
end

section
/-! PROOFS. The obligations about the fields of the status and configuration registers: `SstatusView`,
`ExtensionFieldsReadWrite`, `HostFieldsReadWrite`. -/

namespace Sys2Proof.Machine

/-! ### Which fields exist on a hart with the extension -/

section Present

variable {c : Config} (hz : c.hasZicfisslp = true)

include hz

theorem hasMfcfie_eq : c.hasMfcfie = true := hz
theorem hasMenvCfie_eq : c.hasMenvCfie = (c.hasS || c.hasU) := by simp [Config.hasMenvCfie, hz]
theorem hasSField_eq : c.hasSField = c.hasS := by simp [Config.hasSField, hz]
theorem hasUField_eq : c.hasUField = c.hasU := by simp [Config.hasUField, hz]
theorem hasHField_eq : c.hasHField = c.hasH := by simp [Config.hasHField, hz]
theorem hasVuField_eq : c.hasVuField = (c.hasH && c.hasU) := by simp [Config.hasVuField, hz]

end Present

/-! ### `sstatus` -/

section SstatusWrite

variable (s : State) (v : Word)

theorem writeCsr_sstatus_spelp :
    (s.writeCsr .sstatus v).mstatus.spelp = .ofBool (s.cfg.hasSField && v.getLsbD s.cfg.pos.mstatusSpelp) := rfl

theorem writeCsr_sstatus_ufcfie :
    (s.writeCsr .sstatus v).mstatus.ufcfie =
      if s.cfg.sstatusHasUfcfie then s.cfg.hasUField && v.getLsbD s.cfg.pos.mstatusUfcfie else s.mstatus.ufcfie := rfl

theorem writeCsr_sstatus_mpelp : (s.writeCsr .sstatus v).mstatus.mpelp = s.mstatus.mpelp := rfl

end SstatusWrite

/-- Settles O38, from the fields of the view and the distinct positions that `Config.wf` gives. -/
theorem sstatusView : Obligations.SstatusView := by
  intro s v hc hz hS
  have ap := positionsApart_of_wf hc
  refine ⟨ap.vsstatus_spelp, ap.vsstatus_ufcfie, readCsr_sstatus_getLsbD hc (by simp [Mstatus.sstatusFields]), ?_,
    fun hv => ⟨readCsr_sstatus_getLsbD hc (by simp [Mstatus.sstatusFields, hv]), ?_⟩,
    fun hv => ⟨readCsr_sstatus_getLsbD hc (by simp [Mstatus.sstatusFields, hv]), ?_⟩,
    readCsr_sstatus_mpelp hc, writeCsr_sstatus_mpelp s v⟩
  · rw [writeCsr_sstatus_spelp, hasSField_eq hz, hS, Bool.true_and]
  · rw [writeCsr_sstatus_ufcfie, if_pos hv, hasUField_eq hz]
  · rw [writeCsr_sstatus_ufcfie, hv, if_neg Bool.false_ne_true]

/-! ### The fields of the extension -/

/-- A write of `vsstatus` stores each of the extension's two fields that exists. -/
theorem writeCsr_vsstatus (s : State) (v : Word) :
    (s.writeCsr .vsstatus v).vsstatus.ufcfie = (s.cfg.hasVuField && v.getLsbD s.cfg.pos.vsstatusUfcfie) ∧
      (s.writeCsr .vsstatus v).vsstatus.spelp = .ofBool (s.cfg.hasHField && v.getLsbD s.cfg.pos.vsstatusSpelp) := ⟨rfl, rfl⟩

/-- The fields of `vsstatus` are plain bits of its one CSR. -/
theorem plainBit_vsstatus {s : State} (hc : s.cfg.wf = true) (v : Word) :
    (s.cfg.hasHField = true →
      PlainBit s .vsstatus s.cfg.pos.vsstatusSpelp (fun t => t.vsstatus.spelp.toBool) v) ∧
    (s.cfg.hasVuField = true →
      PlainBit s .vsstatus s.cfg.pos.vsstatusUfcfie (fun t => t.vsstatus.ufcfie) v) := by
  obtain ⟨hu, hs⟩ := writeCsr_vsstatus s v
  refine ⟨fun hh => ⟨readCsr_vsstatus_getLsbD hc (by simp [Vsstatus.fields]), ?_⟩,
    fun hh => ⟨readCsr_vsstatus_getLsbD hc (by simp [Vsstatus.fields]), ?_⟩⟩
  · simp [hs, hh]
  · simp [hu, hh]

/-- `FieldsOk` makes every field that does not exist 0, so that a write of either half keeps the fields of the other. -/
theorem extensionFields_keptByOtherHalf {s : State} (hc : s.cfg.wf = true) (hf : s.FieldsOk) (v : Word) :
    KeptByOtherHalf s .mseccfg .mseccfgh s.cfg.pos.mseccfgMfcfie (fun t => t.mfcfie) v ∧
    KeptByOtherHalf s .mstatus .mstatush s.cfg.pos.mstatusMpelp (fun t => t.mstatus.mpelp.toBool) v ∧
    KeptByOtherHalf s .mstatus .mstatush s.cfg.pos.mstatusSpelp (fun t => t.mstatus.spelp.toBool) v ∧
    KeptByOtherHalf s .mstatus .mstatush s.cfg.pos.mstatusUfcfie (fun t => t.mstatus.ufcfie) v ∧
    KeptByOtherHalf s .menvcfg .menvcfgh s.cfg.pos.menvcfgCfie (fun t => t.menvcfg.cfie) v ∧
    KeptByOtherHalf s .menvcfg .menvcfgh s.cfg.pos.menvcfgSfcfie (fun t => t.menvcfg.sfcfie) v ∧
    KeptByOtherHalf s .henvcfg .henvcfgh s.cfg.pos.henvcfgCfie (fun t => t.henvcfg.cfie) v ∧
    KeptByOtherHalf s .henvcfg .henvcfgh s.cfg.pos.henvcfgSfcfie (fun t => t.henvcfg.sfcfie) v := by
  obtain ⟨-, hm, hmenv, hS, hU, hH, -⟩ := hf
  exact ⟨(storedField_mfcfie hc).keptByOtherHalf (fun h => (hm h).1) v,
    (storedField_mpelp hc).keptByOtherHalf (fun h => (Elp.toBool_eq_false_iff _).2 (hm h).2) v,
    (storedField_spelp hc).keptByOtherHalf (fun h => (Elp.toBool_eq_false_iff _).2 (hS h).2) v,
    (storedField_ufcfie hc).keptByOtherHalf hU v,
    (storedField_menvCfie hc).keptByOtherHalf hmenv v,
    (storedField_menvSfcfie hc).keptByOtherHalf (fun h => (hS h).1) v,
    (storedField_henvCfie hc).keptByOtherHalf (fun h => (hH h).1) v,
    (storedField_henvSfcfie hc).keptByOtherHalf (fun h => (hH h).2.1) v⟩

/-- Without S-mode no write reaches `SPELP` and `menvcfg.SFCFIE`. -/
theorem sFields_absent {s : State} (hc : s.cfg.wf = true) (hS : s.cfg.hasSField = false) (r : Csr) (v : Word) :
    (r = .mstatus ∨ r = .mstatush ∨ r = .sstatus → (s.writeCsr r v).mstatus.spelp = .noLpExpected) ∧
    (r = .menvcfg ∨ r = .menvcfgh → (s.writeCsr r v).menvcfg.sfcfie = false) := by
  refine ⟨fun hr => ?_, fun hr => (storedField_menvSfcfie hc).write_absent hS hr v⟩
  rcases or_assoc.2 hr with hr | rfl
  · exact (Elp.toBool_eq_false_iff _).1 ((storedField_spelp hc).write_absent hS hr v)
  · rw [writeCsr_sstatus_spelp, hS]; rfl

/-- Without U-mode no write reaches `mstatus.UFCFIE` and `vsstatus.UFCFIE`. -/
theorem uFields_absent {s : State} (hc : s.cfg.wf = true) (hU : s.cfg.hasUField = false) (hVu : s.cfg.hasVuField = false)
    (r : Csr) (v : Word) :
    (r = .mstatus ∨ r = .mstatush → (s.writeCsr r v).mstatus.ufcfie = false) ∧
    (r = .sstatus → s.mstatus.ufcfie = false → (s.writeCsr r v).mstatus.ufcfie = false) ∧
    (r = .vsstatus → (s.writeCsr r v).vsstatus.ufcfie = false) := by
  refine ⟨fun hr => (storedField_ufcfie hc).write_absent hU hr v, ?_, ?_⟩
  · rintro rfl h0
    rw [writeCsr_sstatus_ufcfie, hU, h0, Bool.false_and, ite_self]
  · rintro rfl
    rw [(writeCsr_vsstatus s v).1, hVu, Bool.false_and]

/-- `menvcfg` and `henvcfg` are what their two fields are. -/
theorem envcfg_eq {e : Envcfg} {cfie sfcfie : Bool} (h : e.cfie = cfie) (h' : e.sfcfie = sfcfie) :
    e = { cfie := cfie, sfcfie := sfcfie } := by
  cases e
  cases h
  cases h'
  rfl

/-- Without the hypervisor extension no write reaches the fields of `henvcfg` and `vsstatus`. -/
theorem hFields_absent {s : State} (hc : s.cfg.wf = true) (hH : s.cfg.hasHField = false) (hVu : s.cfg.hasVuField = false)
    (r : Csr) (v : Word) :
    (r = .henvcfg ∨ r = .henvcfgh → (s.writeCsr r v).henvcfg = { cfie := false, sfcfie := false }) ∧
    (r = .vsstatus → (s.writeCsr r v).vsstatus.ufcfie = false ∧ (s.writeCsr r v).vsstatus.spelp = .noLpExpected) := by
  constructor
  · exact fun hr => envcfg_eq ((storedField_henvCfie hc).write_absent hH hr v)
      ((storedField_henvSfcfie hc).write_absent hH hr v)
  · rintro rfl
    obtain ⟨hu, hs⟩ := writeCsr_vsstatus s v
    rw [hu, hs, hVu, hH]
    exact ⟨rfl, rfl⟩

/-- Settles O39: each field is a `StoredField`, present exactly when its mode is. -/
theorem extensionFieldsReadWrite : Obligations.ExtensionFieldsReadWrite := by
  intro s v hc hz
  have hM := hasMfcfie_eq hz
  have hMenv := hasMenvCfie_eq hz
  have hSf := hasSField_eq hz
  have hUf := hasUField_eq hz
  have hHf := hasHField_eq hz
  have hVu := hasVuField_eq hz
  obtain ⟨vsSpelp, vsUfcfie⟩ := plainBit_vsstatus hc v
  refine ⟨(storedField_mfcfie hc).plainField hM v, (storedField_mpelp hc).plainField hM v, ?menv, ?s, ?u, ?h, ?noS, ?noSU,
    ?noU, ?noH, fun hf => extensionFields_keptByOtherHalf hc hf v⟩
  case menv => exact fun h => (storedField_menvCfie hc).plainField (by simpa [hMenv] using h) v
  case s =>
    exact fun h => ⟨(storedField_menvSfcfie hc).plainField (hSf.trans h) v, (storedField_spelp hc).plainField (hSf.trans h) v⟩
  case u => exact fun h => (storedField_ufcfie hc).plainField (hUf.trans h) v
  case h =>
    exact fun h => ⟨(storedField_henvCfie hc).plainField (hHf.trans h) v,
      (storedField_henvSfcfie hc).plainField (hHf.trans h) v, vsSpelp (hHf.trans h), fun hu => vsUfcfie (by simp [hVu, h, hu])⟩
  case noS => exact fun h r => sFields_absent hc (hSf.trans h) r v
  case noSU => exact fun h hu r hr => (storedField_menvCfie hc).write_absent (by simp [hMenv, h, hu]) hr v
  case noU => exact fun h r => uFields_absent hc (hUf.trans h) (by simp [hVu, h]) r v
  case noH => exact fun h r => hFields_absent hc (hHf.trans h) (by simp [hVu, h]) r v

/-! ### `MPP` -/

/-- Bits 12:11 of `mstatus` are the code of the mode that `MPP` holds. -/
theorem mstatus_word_mpp {s : State} (hc : s.cfg.wf = true) :
    (s.mstatus.word s.cfg).extractLsb' 11 2 = privBits s.mstatus.mpp := by
  apply BitVec.eq_of_getLsbD_eq
  intro i hi
  have h0 := mstatus_word_getLsbD (p := 11) (b := (privBits s.mstatus.mpp).getLsbD 0) hc (by simp [Mstatus.fields])
  have h1 := mstatus_word_getLsbD (p := 12) (b := (privBits s.mstatus.mpp).getLsbD 1) hc (by simp [Mstatus.fields])
  match i, hi with
  | 0, _ => simpa [BitVec.getLsbD_extractLsb'] using h0
  | 1, _ => simpa [BitVec.getLsbD_extractLsb'] using h1

/-- Bits 12:11 lie in the low half of every 64-bit register. -/
theorem wrap_extractLsb'_mpp (x : Xlen) (w : Word) : (x.wrap w).extractLsb' 11 2 = w.extractLsb' 11 2 := by
  apply BitVec.eq_of_getLsbD_eq
  intro i hi
  have hb := x.bits_ge
  simp only [BitVec.getLsbD_extractLsb', wrap_getLsbD_of_lt (show 11 + i < x.bits by omega)]

theorem mergeLow_extractLsb'_mpp (x : Xlen) (old v : Word) :
    (mergeLow x old v).extractLsb' 11 2 = v.extractLsb' 11 2 := by
  apply BitVec.eq_of_getLsbD_eq
  intro i hi
  have hb := x.bits_ge
  simp only [BitVec.getLsbD_extractLsb', mergeLow_getLsbD x old v (show 11 + i < 64 by omega),
    if_pos (show 11 + i < x.bits by omega)]

theorem mergeHigh_extractLsb'_mpp (old v : Word) : (mergeHigh old v).extractLsb' 11 2 = old.extractLsb' 11 2 := by
  apply BitVec.eq_of_getLsbD_eq
  intro i hi
  simp only [BitVec.getLsbD_extractLsb', mergeHigh_getLsbD old v (show 11 + i < 64 by omega),
    if_pos (show 11 + i < 32 by omega)]

/-- The code of an implemented mode names that mode. -/
theorem privOfBits_privBits {c : Config} {q : Priv} (h : implementedPriv c q = true) :
    privOfBits c (privBits q) = some q := by
  cases q <;> simp_all [privOfBits, privBits, implementedPriv]

/-- A word whose `MPP` names an implemented mode is taken without a free value. -/
theorem putMstatus_mpp {s : State} {w : Word} {q : Priv} (hq : implementedPriv s.cfg q = true)
    (hw : w.extractLsb' 11 2 = privBits q) :
    (s.putMstatus w).mstatus.mpp = q ∧ (s.putMstatus w).draws = s.draws := by
  have h : s.putMstatus w = { s with mstatus := .fieldsFrom s.cfg w q } := by
    simp only [State.putMstatus, hw, privOfBits_privBits hq]
  rw [h]
  exact ⟨rfl, rfl⟩

theorem writeCsr_mstatus_mpp {s : State} {v : Word} {q : Priv} (hq : implementedPriv s.cfg q = true)
    (hv : v.extractLsb' 11 2 = privBits q) :
    (s.writeCsr .mstatus v).mstatus.mpp = q ∧ (s.writeCsr .mstatus v).draws = s.draws :=
  putMstatus_mpp hq ((mergeLow_extractLsb'_mpp ..).trans hv)

/-- A write of `mstatush` keeps an implemented `MPP`. -/
theorem writeCsr_mstatush_mpp {s : State} (hc : s.cfg.wf = true) (hq : implementedPriv s.cfg s.mstatus.mpp = true) (v : Word) :
    (s.writeCsr .mstatush v).mstatus.mpp = s.mstatus.mpp ∧ (s.writeCsr .mstatush v).draws = s.draws :=
  putMstatus_mpp hq ((mergeHigh_extractLsb'_mpp ..).trans (mstatus_word_mpp hc))

/-! ### The host's fields -/

/-- What `mstatus` and `mstatush` read of the host's fields. -/
theorem hostFields_read_mstatus {s : State} (hc : s.cfg.wf = true) :
    (s.readCsr .mstatus).getLsbD 1 = s.mstatus.sie ∧ (s.readCsr .mstatus).getLsbD 3 = s.mstatus.mie ∧
    (s.readCsr .mstatus).getLsbD 5 = s.mstatus.spie ∧ (s.readCsr .mstatus).getLsbD 7 = s.mstatus.mpie ∧
    (s.readCsr .mstatus).getLsbD 8 = s.mstatus.spp ∧
    (s.readCsr .mstatus).extractLsb' 11 2 = privBits s.mstatus.mpp ∧
    (s.readCsr .mstatus).getLsbD 21 = s.mstatus.tw ∧ (s.readCsr .mstatus).getLsbD 22 = s.mstatus.tsr ∧
    (s.cfg.xlen = .x64 → (s.readCsr .mstatus).getLsbD 39 = s.mstatus.mpv) ∧
    (s.cfg.xlen = .x32 → (s.readCsr .mstatush).getLsbD 7 = s.mstatus.mpv) :=
  have low {p : Nat} (h : p < 32) := lt_bits_of_lt h s.cfg.xlen
  ⟨(storedField_sie hc).read_low (low (by decide)), (storedField_mie hc).read_low (low (by decide)),
    (storedField_spie hc).read_low (low (by decide)), (storedField_mpie hc).read_low (low (by decide)),
    (storedField_spp hc).read_low (low (by decide)), (wrap_extractLsb'_mpp ..).trans (mstatus_word_mpp hc),
    (storedField_tw hc).read_low (low (by decide)), (storedField_tsr hc).read_low (low (by decide)),
    fun hx => (storedField_mpv hc).read_low (by rw [hx]; decide), fun _ => (storedField_mpv hc).read_high (by decide)⟩

/-- `MPV` stands at bit 39, which a write of `mstatus` reaches with `XLEN` = 64 only. -/
theorem writeCsr_mstatus_mpv {s : State} (hc : s.cfg.wf = true) (hH : s.cfg.hasH = true) (v : Word) :
    (s.writeCsr .mstatus v).mstatus.mpv = if s.cfg.xlen = .x64 then v.getLsbD 39 else s.mstatus.mpv := by
  cases hx : s.cfg.xlen with
  | x64 => exact (storedField_mpv hc).write_low hH (by rw [hx]; decide) v
  | x32 => exact ((storedField_mpv hc).kept_of_present hH v hx).2 (by decide)

/-- A write of `mstatus` stores each of the host's fields whose mode exists. -/
theorem hostFields_write_mstatus {s : State} (hc : s.cfg.wf = true) (v : Word) :
    (s.writeCsr .mstatus v).mstatus.mie = v.getLsbD 3 ∧ (s.writeCsr .mstatus v).mstatus.mpie = v.getLsbD 7 ∧
    (s.cfg.hasS = true → (s.writeCsr .mstatus v).mstatus.sie = v.getLsbD 1 ∧
      (s.writeCsr .mstatus v).mstatus.spie = v.getLsbD 5 ∧ (s.writeCsr .mstatus v).mstatus.spp = v.getLsbD 8 ∧
      (s.writeCsr .mstatus v).mstatus.tsr = v.getLsbD 22) ∧
    (s.cfg.hasS = true ∨ s.cfg.hasU = true → (s.writeCsr .mstatus v).mstatus.tw = v.getLsbD 21) :=
  have low {p : Nat} (h : p < 32) := lt_bits_of_lt h s.cfg.xlen
  ⟨(storedField_mie hc).write_low rfl (low (by decide)) v, (storedField_mpie hc).write_low rfl (low (by decide)) v,
    fun hS => ⟨(storedField_sie hc).write_low hS (low (by decide)) v, (storedField_spie hc).write_low hS (low (by decide)) v,
      (storedField_spp hc).write_low hS (low (by decide)) v, (storedField_tsr hc).write_low hS (low (by decide)) v⟩,
    fun hSU => (storedField_tw hc).write_low (by simpa using hSU) (low (by decide)) v⟩

/-- With `XLEN` = 32 a write of `mstatush` keeps each of the host's fields in the low half whose mode exists. -/
theorem hostFields_kept_mstatush {s : State} (hc : s.cfg.wf = true) (hx : s.cfg.xlen = .x32) (v : Word) :
    (s.writeCsr .mstatush v).mstatus.mie = s.mstatus.mie ∧ (s.writeCsr .mstatush v).mstatus.mpie = s.mstatus.mpie ∧
    (s.cfg.hasS = true → (s.writeCsr .mstatush v).mstatus.sie = s.mstatus.sie ∧
      (s.writeCsr .mstatush v).mstatus.spie = s.mstatus.spie ∧ (s.writeCsr .mstatush v).mstatus.spp = s.mstatus.spp ∧
      (s.writeCsr .mstatush v).mstatus.tsr = s.mstatus.tsr) ∧
    (s.cfg.hasS = true ∨ s.cfg.hasU = true → (s.writeCsr .mstatush v).mstatus.tw = s.mstatus.tw) :=
  ⟨((storedField_mie hc).kept_of_present rfl v hx).1 (by decide),
    ((storedField_mpie hc).kept_of_present rfl v hx).1 (by decide),
    fun hS => ⟨((storedField_sie hc).kept_of_present hS v hx).1 (by decide),
      ((storedField_spie hc).kept_of_present hS v hx).1 (by decide),
      ((storedField_spp hc).kept_of_present hS v hx).1 (by decide),
      ((storedField_tsr hc).kept_of_present hS v hx).1 (by decide)⟩,
    fun hSU => ((storedField_tw hc).kept_of_present (by simpa using hSU) v hx).1 (by decide)⟩

/-- A host field whose mode does not exist is 0 after a write of either half (log entry 29). -/
theorem hostFields_absent {s : State} (hc : s.cfg.wf = true) {r : Csr} (hr : r = .mstatus ∨ r = .mstatush) (v : Word) :
    (s.cfg.hasS = false →
      (s.writeCsr r v).mstatus.sie = false ∧ (s.writeCsr r v).mstatus.spie = false ∧
      (s.writeCsr r v).mstatus.spp = false ∧ (s.writeCsr r v).mstatus.tsr = false) ∧
    (s.cfg.hasS = false → s.cfg.hasU = false → (s.writeCsr r v).mstatus.tw = false) ∧
    (s.cfg.hasH = false → (s.writeCsr r v).mstatus.mpv = false) :=
  ⟨fun hS => ⟨(storedField_sie hc).write_absent hS hr v, (storedField_spie hc).write_absent hS hr v,
      (storedField_spp hc).write_absent hS hr v, (storedField_tsr hc).write_absent hS hr v⟩,
    fun hS hU => (storedField_tw hc).write_absent (by simp [hS, hU]) hr v,
    fun hH => (storedField_mpv hc).write_absent hH hr v⟩

/-- Settles O40, from the host's fields as `StoredField`s of `mstatus` and as listed fields of the other status words. -/
theorem hostFieldsReadWrite : Obligations.HostFieldsReadWrite := by
  intro s v hc
  refine ⟨?read, ?mstatus, ?mpv, ?mstatush, ?absent, ?sstatus, ?vsstatus, rfl, rfl⟩
  case read =>
    obtain ⟨sie, mie, spie, mpie, spp, mpp, tw, tsr, mpv, mpvh⟩ := hostFields_read_mstatus hc
    obtain ⟨spv, vtsr⟩ := readCsr_hstatus_getLsbD s
    have view {p b} (h : (p, b) ∈ s.mstatus.sstatusFields s.cfg) := readCsr_sstatus_getLsbD hc h
    have vs {p b} (h : (p, b) ∈ s.vsstatus.fields s.cfg) := readCsr_vsstatus_getLsbD hc h
    refine ⟨sie, mie, spie, mpie, spp, mpp.trans ?_, tw, tsr, mpv, mpvh,
      view (by simp [Mstatus.sstatusFields]), view (by simp [Mstatus.sstatusFields]), view (by simp [Mstatus.sstatusFields]),
      vs (by simp [Vsstatus.fields]), vs (by simp [Vsstatus.fields]), vs (by simp [Vsstatus.fields]), spv, vtsr⟩
    cases s.mstatus.mpp <;> rfl
  case mstatus =>
    rintro t rfl
    obtain ⟨mie, mpie, sFields, tw⟩ := hostFields_write_mstatus hc v
    exact ⟨mie, mpie, sFields, tw, fun hH => writeCsr_mstatus_mpv hc hH v, fun h => writeCsr_mstatus_mpp (q := .m) rfl h,
      fun h hS => writeCsr_mstatus_mpp (q := .s) hS h, fun h hU => writeCsr_mstatus_mpp (q := .u) hU h⟩
  case mpv => exact fun hH => (storedField_mpv hc).write_high hH (by decide) v
  case mstatush =>
    rintro hx t rfl
    obtain ⟨mie, mpie, sFields, tw⟩ := hostFields_kept_mstatush hc hx v
    exact ⟨mie, mpie, sFields, tw, fun ⟨_, _, hmpp, _⟩ => writeCsr_mstatush_mpp hc hmpp v⟩
  case absent =>
    rintro r t hr rfl
    exact hostFields_absent hc hr v
  case sstatus =>
    rintro t rfl
    exact ⟨rfl, rfl, rfl, rfl, rfl, rfl, rfl, rfl, rfl⟩
  case vsstatus =>
    rintro t rfl
    exact ⟨rfl, rfl, rfl⟩

end Sys2Proof.Machine
end

section
/-! PROOFS. Where forward-edge CFI is active, what stays when it is not, the return of `sret`, and reset: `ActiveTable`,
`InactiveCfi`, `SretResult`, `ResetState` (spec/10_state.md R28 to R30, R35 to R37; spec/42_trap_return.md R111, R112). -/

namespace Sys2Proof.Machine

/-! ### `xFCFIE()` by mode (R28) -/

section Active

variable {s : State} (hz : s.cfg.hasZicfisslp = true)

include hz

theorem xfcfie_m (hp : s.priv = .m) : s.xfcfie = s.mfcfie := by
  simp [State.xfcfie, hz, hp]

theorem xfcfie_s (hp : s.priv = .s) (hv : s.virt = false) : s.xfcfie = (s.menvcfg.cfie && s.menvcfg.sfcfie) := by
  simp [State.xfcfie, hz, hp, hv]

theorem xfcfie_u (hp : s.priv = .u) (hv : s.virt = false) : s.xfcfie = (s.menvcfg.cfie && s.mstatus.ufcfie) := by
  simp [State.xfcfie, hz, hp, hv]

theorem xfcfie_vs (hp : s.priv = .s) (hv : s.virt = true) :
    s.xfcfie = (s.menvcfg.cfie && (s.henvcfg.cfie && s.henvcfg.sfcfie)) := by
  simp [State.xfcfie, hz, hp, hv, Bool.and_assoc]

theorem xfcfie_vu (hp : s.priv = .u) (hv : s.virt = true) :
    s.xfcfie = (s.menvcfg.cfie && (s.henvcfg.cfie && s.vsstatus.ufcfie)) := by
  simp [State.xfcfie, hz, hp, hv, Bool.and_assoc]

end Active

/-- Settles O7, one row of the table for each mode. -/
theorem activeTable : Obligations.ActiveTable := by
  intro s hz
  refine ⟨fun hp => ?m, fun hp hv => ?s, fun hp hv => ?u, fun hp hv => ?vs, fun hp hv => ?vu⟩
  case m => rw [xfcfie_m hz hp]
  case s => rw [xfcfie_s hz hp hv, Bool.and_eq_true]
  case u => rw [xfcfie_u hz hp hv, Bool.and_eq_true]
  case vs => rw [xfcfie_vs hz hp hv, Bool.and_eq_true, Bool.and_eq_true]
  case vu => rw [xfcfie_vu hz hp hv, Bool.and_eq_true, Bool.and_eq_true]

/-! ### Trap returns that may execute (R110 to R112) -/

theorem exec_mret_of_m {s : State} (hp : s.priv = .m) : exec .mret s = .next s.returnFromM := if_pos hp

/-- `sret` with `V` = 0 in M-mode, or in S-mode with `TSR` = 0. -/
theorem exec_sret_of_not_virt {s : State} (hS : s.cfg.hasS = true) (hv : s.virt = false)
    (hp : s.priv = .m ∨ (s.priv = .s ∧ s.mstatus.tsr = false)) : exec .sret s = .next s.returnFromS := by
  rcases hp with hp | ⟨hp, ht⟩
  · simp [exec, execSret, hS, hv, hp]
  · simp [exec, execSret, hS, hv, hp, ht]

/-- `sret` in VS-mode with `VTSR` = 0. -/
theorem exec_sret_of_virt {s : State} (hS : s.cfg.hasS = true) (hv : s.virt = true) (hp : s.priv ≠ .u)
    (ht : s.hstatus.vtsr = false) : exec .sret s = .next s.returnFromVS := by
  simp [exec, execSret, hS, hv, hp, ht]

/-! ### While CFI is not active (R30) -/

/-- Trap delivery saves `ELP` in the destination mode's `xPELP`, whether or not CFI is active (R153). -/
theorem savedElp_takeTrap (s : State) (x : TrapTarget) (i : Bool) (c : BitVec 6) (tv : Word) :
    savedElp (s.takeTrap x i c tv) x = s.elp := by cases x <;> rfl

section Inactive

variable {s : State} (h : s.xfcfie = false)

include h

theorem elpAfterJump_of_inactive (k : JumpKind) (rd rs1 : RegIdx) : elpAfterJump s k rd rs1 = s.elp := by
  simp [elpAfterJump, h]

theorem landingPadMissing_of_inactive (f : Fetched) : s.landingPadMissing f = false := by
  simp [State.landingPadMissing, h]

theorem exec_lpad_of_inactive (lpl : BitVec 20) : exec (.lpad lpl) s = .next (s.advance 4) := by
  simp [exec, execLpad, h]

/-- A `jalr` that does not trap for its target leaves `ELP` alone. -/
theorem exec_jalr_elp_of_inactive {rd rs1 : RegIdx} {imm : BitVec 12} {t : State}
    (hm : s.targetMisaligned (clearBit0 (s.regPlusImm rs1 imm)) = false) (ht : exec (.jalr rd rs1 imm) s = .next t) :
    t.elp = s.elp := by
  rcases jumpTo_cases ht with ⟨hm', -⟩ | ⟨-, rfl⟩
  · exact absurd hm' (by simp [hm])
  · exact elpAfterJump_of_inactive h .jalr rd rs1

theorem exec_cJr_elp_of_inactive {rs1 : RegIdx} {t : State} (hC : s.cfg.hasC = true)
    (ht : exec (.cJr rs1) s = .next t) : t.elp = s.elp := by
  simp only [exec, execCJr, hC, if_true, Host.Outcome.next.injEq] at ht
  subst ht
  exact elpAfterJump_of_inactive h .cJr 0 rs1

theorem exec_cJalr_elp_of_inactive {rs1 : RegIdx} {t : State} (hC : s.cfg.hasC = true)
    (ht : exec (.cJalr rs1) s = .next t) : t.elp = s.elp := by
  simp only [exec, execCJalr, hC, if_true, Host.Outcome.next.injEq] at ht
  subst ht
  exact elpAfterJump_of_inactive h .cJalr 1 rs1

end Inactive

/-- Settles O8: inactive CFI switches off the jumps' update, the requirement and `lpad`; trap delivery and the returns do not
ask whether it is active. -/
theorem inactiveCfi : Obligations.InactiveCfi := by
  intro s h
  refine ⟨fun rd rs1 imm t => exec_jalr_elp_of_inactive h, fun rs1 t => exec_cJr_elp_of_inactive h,
    fun rs1 t => exec_cJalr_elp_of_inactive h, landingPadMissing_of_inactive h, exec_lpad_of_inactive h,
    fun x i c tv => ⟨savedElp_takeTrap s x i c tv, takeTrap_elp s x i c tv⟩, ?mret, ?sret, ?vsret⟩
  case mret => exact fun hp => ⟨_, exec_mret_of_m hp, returnFromM_elp s, by rw [returnFromM_mstatus]⟩
  case sret => exact fun hS hv hp => ⟨_, exec_sret_of_not_virt hS hv hp, returnFromS_elp s, by rw [returnFromS_mstatus]⟩
  case vsret =>
    exact fun hS hv hp ht => ⟨_, exec_sret_of_virt hS hv hp ht, returnFromVS_elp s, by rw [returnFromVS_vsstatus]⟩

/-! ### What `sret` returns to (R111, R112) -/

/-- An `xepc` as read, and so the `pc` after a return. -/
theorem epcView_eq (c : Config) (epc : Word) :
    epcView c epc = if c.hasC = true then epc &&& ~~~(1#64) else epc &&& ~~~(3#64) := rfl

/-- The mode that an `xPP` bit names, on a hart without U-mode too (log entry 35). -/
theorem privOfSpp_eq (c : Config) (b : Bool) : privOfSpp c b = if b = true ∨ c.hasU = false then .s else .u := by
  simp [privOfSpp]

theorem returnFromS_virt_iff (s : State) : s.returnFromS.virt = true ↔ s.cfg.hasH = true ∧ s.hstatus.spv = true := by
  rw [returnFromS_virt, Bool.and_eq_true]

theorem sameEnables_returnFromS (s : State) : SameEnables s s.returnFromS :=
  ⟨rfl, rfl, rfl, rfl, rfl, rfl, rfl, rfl, rfl, rfl⟩

theorem sameEnables_returnFromVS (s : State) : SameEnables s s.returnFromVS :=
  ⟨rfl, rfl, rfl, rfl, rfl, rfl, rfl, rfl, rfl, rfl⟩

theorem sameMemory_returnFromS (s : State) : SameMemory s s.returnFromS := ⟨fun _ => rfl, rfl, rfl, rfl⟩

theorem sameMemory_returnFromVS (s : State) : SameMemory s s.returnFromVS := ⟨fun _ => rfl, rfl, rfl, rfl⟩

theorem trapCsrsOf_returnFromS (s : State) (x : TrapTarget) : trapCsrsOf s.returnFromS x = trapCsrsOf s x := by
  cases x <;> rfl

theorem trapCsrsOf_returnFromVS (s : State) (x : TrapTarget) : trapCsrsOf s.returnFromVS x = trapCsrsOf s x := by
  cases x <;> rfl

/-- Settles O33: where `sret` may execute it is `returnFromS` or `returnFromVS`, field by field. -/
theorem sretResult : Obligations.SretResult := by
  refine fun s hS => ⟨fun hv hp => ?sret, fun hv hp ht => ?vsret⟩
  case sret =>
    exact ⟨_, exec_sret_of_not_virt hS hv hp, returnFromS_elp s, (returnFromS_priv s).trans (privOfSpp_eq ..),
      returnFromS_virt_iff s, returnFromS_mstatus s, returnFromS_hstatus s, returnFromS_vsstatus s,
      (returnFromS_pc s).trans (epcView_eq ..), trapCsrsOf_returnFromS s, sameEnables_returnFromS s,
      readReg_congr (returnFromS_regs s), sameMemory_returnFromS s⟩
  case vsret =>
    exact ⟨_, exec_sret_of_virt hS hv hp ht, returnFromVS_elp s, (returnFromVS_priv s).trans (privOfSpp_eq ..),
      (returnFromVS_virt s).trans hv, returnFromVS_vsstatus s, returnFromVS_mstatus s, returnFromVS_hstatus s,
      (returnFromVS_pc s).trans (epcView_eq ..), trapCsrsOf_returnFromVS s, sameEnables_returnFromVS s,
      readReg_congr (returnFromVS_regs s), sameMemory_returnFromVS s⟩

/-! ### Reset (R35 to R37) -/

/-- `x1` to `x31` hold after reset what they happen to hold (R37). -/
theorem readReg_resetOf (c : Config) (x : Vector Word 32) {r : RegIdx} (h : r ≠ 0) : (State.resetOf c x).readReg r = x[r] := by
  have hne : 0 ≠ (r : Nat) := fun e => h (Fin.ext e.symm)
  simp only [State.readReg, if_neg h]
  exact Vector.getElem_set_ne (by omega) r.isLt hne

/-- The fields of the extension after reset: the parameter where the field exists, 0 where it does not (R33, R36). -/
theorem resetOf_fields (c : Config) (x : Vector Word 32) :
    (State.resetOf c x).mfcfie = (c.hasMfcfie && c.reset.mfcfie) ∧
    (State.resetOf c x).mstatus.mpelp = .ofBool (c.hasMfcfie && c.reset.mpelp) ∧
    (State.resetOf c x).menvcfg.cfie = (c.hasMenvCfie && c.reset.menvCfie) ∧
    (State.resetOf c x).menvcfg.sfcfie = (c.hasSField && c.reset.menvSfcfie) ∧
    (State.resetOf c x).mstatus.spelp = .ofBool (c.hasSField && c.reset.spelp) ∧
    (State.resetOf c x).mstatus.ufcfie = (c.hasUField && c.reset.ufcfie) ∧
    (State.resetOf c x).henvcfg =
      { cfie := c.hasHField && c.reset.henvCfie, sfcfie := c.hasHField && c.reset.henvSfcfie } ∧
    (State.resetOf c x).vsstatus.spelp = .ofBool (c.hasHField && c.reset.vsSpelp) ∧
    (State.resetOf c x).vsstatus.ufcfie = (c.hasVuField && c.reset.vsUfcfie) :=
  ⟨rfl, rfl, rfl, rfl, rfl, rfl, rfl, rfl, rfl⟩

/-- Settles O59, for any parameters and any contents of the registers. -/
theorem resetState : Obligations.ResetState := by
  rintro c x s rfl
  refine ⟨rfl, rfl, rfl, rfl, readReg_zero _, fun r hr => readReg_resetOf c x hr, fun hz => ?_⟩
  obtain ⟨mfcfie, mpelp, menvCfie, menvSfcfie, spelp, ufcfie, henvcfg, vsSpelp, vsUfcfie⟩ := resetOf_fields c x
  rw [mfcfie, mpelp, menvCfie, menvSfcfie, spelp, ufcfie, henvcfg, vsSpelp, vsUfcfie, hasMfcfie_eq hz, hasMenvCfie_eq hz,
    hasSField_eq hz, hasUField_eq hz, hasHField_eq hz, hasVuField_eq hz]
  refine ⟨rfl, rfl, fun hSU => ?menvCfie, fun hS => ?s, fun hU => ?u, fun hH => ⟨?henvcfg, ?vsSpelp, fun hU => ?vsUfcfie⟩⟩
  case menvCfie => rcases hSU with hS | hU <;> simp [*]
  case s => simp [hS]
  case u => simp [hU]
  case henvcfg => simp [hH]
  case vsSpelp => simp [hH]
  case vsUfcfie => simp [hH, hU]

end Sys2Proof.Machine
end

section
/-! PROOFS. What memory and a fetch hold after a store, and the obligations that say it: `StaleFetch`, `SwResult`
(spec/20_memory.md R41, R44, R45, R50; spec/43_host_subset.md R127). -/

namespace Sys2Proof.Machine

/-! ### The cells of a 4-byte access -/

/-- Byte `k` of what a store writes. -/
theorem storedCells_getElem? (x : Xlen) (a : Word) (v : BitVec 32) {k : Nat} (hk : k < 4) :
    (storedCells x a v)[k]? = some (byteAddress x a k, v.extractLsb' (8 * k) 8) := by
  interval_cases k <;> rfl

/-- Byte `k` of what a store overwrites. -/
theorem cells4_getElem? (m : Memory) (x : Xlen) (a : Word) {k : Nat} (hk : k < 4) :
    (m.cells4 x a)[k]? = some (byteAddress x a k, m.read (byteAddress x a k)) := by
  interval_cases k <;> rfl

/-- What a store overwrites lies where it writes, at four addresses. -/
theorem cells4_nodup (m : Memory) (x : Xlen) (a : Word) : ((m.cells4 x a).map Prod.fst).Nodup :=
  storedCells_nodup x a 0#32

section Frame

variable {x : Xlen} {a : Word} {y : Nat} (hy : ∀ k, k < 4 → y ≠ byteAddress x a k)

include hy

theorem notMem_storedCells (v : BitVec 32) : ∀ c ∈ storedCells x a v, y ≠ c.1 := by
  simp [storedCells, hy]

theorem notMem_cells4 (m : Memory) : ∀ c ∈ m.cells4 x a, y ≠ c.1 := by
  simp [Memory.cells4, hy]

end Frame

/-! ### Memory after a store (R41) -/

section Store

variable (s : State) (a : Word) (v : BitVec 32)

theorem store32_read_byte (h : s.mem.wf = true) {k : Nat} (hk : k < 4) :
    (s.store32 a v).mem.read (byteAddress s.cfg.xlen a k) = v.extractLsb' (8 * k) 8 :=
  Memory.read_writeAll_of_mem _ h (storedCells_nodup ..) _ (List.mem_of_getElem? (storedCells_getElem? _ a v hk))

theorem store32_read_frame {y : Nat} (hy : ∀ k, k < 4 → y ≠ byteAddress s.cfg.xlen a k) :
    (s.store32 a v).mem.read y = s.mem.read y :=
  Memory.read_writeAll_of_notMem _ _ (notMem_storedCells hy v)

end Store

/-! ### The byte a list of cells holds -/

theorem cellAt_eq_none : ∀ {cs : List Host.Cell} {y : Nat}, (∀ c ∈ cs, y ≠ c.1) → cellAt cs y = none
  | [], _, _ => rfl
  | (_, _) :: cs, _, h => by
    obtain ⟨hne, hcs⟩ := List.forall_mem_cons.1 h
    exact (if_neg hne).trans (cellAt_eq_none hcs)

theorem cellAt_singleton (c : Host.Cell) : cellAt [c] c.1 = some c.2 := if_pos rfl

theorem cellAt_singleton_ne {c : Host.Cell} {y : Nat} (h : y ≠ c.1) : cellAt [c] y = none := if_neg h

/-- Cells with distinct addresses each hold their byte. -/
theorem cellAt_of_mem : ∀ {cs : List Host.Cell} {c : Host.Cell}, (cs.map Prod.fst).Nodup → c ∈ cs → cellAt cs c.1 = some c.2
  | d :: cs, c, hn, hc => by
    obtain ⟨hd, hn⟩ := List.nodup_cons.1 hn
    rcases List.mem_cons.1 hc with rfl | hc
    · exact if_pos rfl
    · have hne : c.1 ≠ d.1 := fun e => hd (e ▸ List.mem_map_of_mem hc)
      exact (if_neg hne).trans (cellAt_of_mem hn hc)

theorem cellAt_cells4 (m : Memory) (x : Xlen) (a : Word) {k : Nat} (hk : k < 4) :
    cellAt (m.cells4 x a) (byteAddress x a k) = some (m.read (byteAddress x a k)) :=
  cellAt_of_mem (cells4_nodup m x a) (List.mem_of_getElem? (cells4_getElem? m x a hk))

/-! ### What a fetch sees of several store accesses (R50) -/

/-- Store accesses that do not reach the address hide nothing there. -/
theorem fetchedByte_append_skip {y : Nat} (b : Byte) (us : List (List Host.Cell)) :
    ∀ (ws : List (List Host.Cell)) (hidden : List Bool), (∀ w ∈ ws, cellAt w y = none) →
      fetchedByte y b (ws ++ us) hidden = fetchedByte y b us (hidden.drop ws.length)
  | [], _, _ => rfl
  | w :: ws, hidden, h => by
    obtain ⟨hw, hws⟩ := List.forall_mem_cons.1 h
    rw [List.cons_append, fetchedByte_skip hw, fetchedByte_append_skip b us ws _ hws, List.drop_tail, List.length_cons]

/-- Of byte accesses to distinct addresses only the `k`-th decides what a fetch sees at the address it reaches. -/
theorem fetchedByte_byteAccess {c : Host.Cell} (b : Byte) (us : List (List Host.Cell)) :
    ∀ {cs : List Host.Cell} {k : Nat} (hidden : List Bool), (cs.map Prod.fst).Nodup → cs[k]? = some c →
      fetchedByte c.1 b (cs.map (fun d => [d]) ++ us) hidden =
        if hidden.getD k false = true then fetchedByte c.1 c.2 us (hidden.drop cs.length) else b
  | d :: cs, 0, hidden, hn, hc => by
    obtain rfl : d = c := by simpa using hc
    obtain ⟨hd, -⟩ := List.nodup_cons.1 hn
    have later (old : Byte) (hs : List Bool) :
        fetchedByte d.1 old (cs.map (fun e => [e]) ++ us) hs = fetchedByte d.1 old us (hs.drop cs.length) := by
      rw [fetchedByte_append_skip old us _ hs, List.length_map]
      simp only [List.forall_mem_map]
      exact fun e he => cellAt_singleton_ne fun eq => hd (List.mem_map.2 ⟨e, he, eq.symm⟩)
    match hidden with
    | [] => exact fetchedByte_nil ..
    | false :: hs => exact fetchedByte_seen (cellAt_singleton d) ..
    | true :: hs => exact (fetchedByte_hidden (cellAt_singleton d) ..).trans (later d.2 hs)
  | d :: cs, k + 1, hidden, hn, hc => by
    obtain ⟨hd, hn⟩ := List.nodup_cons.1 hn
    have hc : cs[k]? = some c := by simpa using hc
    have hne : c.1 ≠ d.1 := fun e => hd (e ▸ List.mem_map_of_mem (List.mem_of_getElem? hc))
    rw [List.map_cons, List.cons_append, fetchedByte_skip (cellAt_singleton_ne hne),
      fetchedByte_byteAccess b us hidden.tail hn hc, List.drop_tail, List.length_cons]
    cases hidden <;> rfl

/-! ### The store accesses of a 4-byte store (R44, R45) -/

theorem storeAccesses_of_aligned {a : Word} (h : a.extractLsb' 0 2 = 0b00#2) (cells : List Host.Cell) :
    storeAccesses a cells = [cells] := if_pos (beq_iff_eq.2 h)

theorem storeAccesses_of_misaligned {a : Word} (h : a.extractLsb' 0 2 ≠ 0b00#2) (cells : List Host.Cell) :
    storeAccesses a cells = cells.map (fun c => [c]) := if_neg (mt beq_iff_eq.1 h)

/-- No access of a store reaches an address that none of its cells has. -/
theorem cellAt_storeAccesses {cells : List Host.Cell} {y : Nat} (a : Word) (h : ∀ c ∈ cells, y ≠ c.1) :
    ∀ w ∈ storeAccesses a cells, cellAt w y = none := by
  unfold storeAccesses
  split
  · simpa using cellAt_eq_none h
  · simp only [List.forall_mem_map]
    exact fun c hc => cellAt_singleton_ne (h c hc)

/-! ### A fetch after a store -/

section Fetch

variable (s : State) (a : Word) (v : BitVec 32) (hidden : List Bool)

/-- With nothing hidden a fetch sees memory, whatever the stores before it. -/
theorem fetchByte_nil (y : Nat) : s.fetchByte [] y = s.mem.read y := fetchedByte_nil ..

theorem fetchParcel_nil (b : Word) : s.fetchParcel [] b = s.mem.read16 s.cfg.xlen b := by
  rw [State.fetchParcel, Memory.read16, fetchByte_nil, fetchByte_nil]

/-- Two fetches that see the same bytes bring the same parcel. -/
theorem fetchParcel_congr {s t : State} {hs ht : List Bool} (hx : t.cfg = s.cfg)
    (h : ∀ y, t.fetchByte ht y = s.fetchByte hs y) (b : Word) : t.fetchParcel ht b = s.fetchParcel hs b := by
  rw [State.fetchParcel, State.fetchParcel, hx, h, h]

/-- A byte the store does not write is what it was, whichever of its accesses are hidden. -/
theorem store32_fetchByte_frame {y : Nat} (hy : ∀ k, k < 4 → y ≠ byteAddress s.cfg.xlen a k) :
    (s.store32 a v).fetchByte hidden y =
      s.fetchByte (hidden.drop (storeAccesses a (s.mem.cells4 s.cfg.xlen a)).length) y := by
  rw [State.fetchByte, store32_read_frame s a v hy, store32_staleStores]
  exact fetchedByte_append_skip _ _ _ hidden (cellAt_storeAccesses a (notMem_cells4 hy s.mem))

section Aligned

variable {a} (ha : a.extractLsb' 0 2 = 0b00#2)

include ha

theorem store32_fetchByte_frame_of_aligned (h : Bool) {y : Nat} (hy : ∀ k, k < 4 → y ≠ byteAddress s.cfg.xlen a k) :
    (s.store32 a v).fetchByte (h :: hidden) y = s.fetchByte hidden y := by
  rw [store32_fetchByte_frame s a v _ hy, storeAccesses_of_aligned ha]
  rfl

/-- An aligned store that is seen is seen as a whole. -/
theorem store32_fetchByte_seen (hm : s.mem.wf = true) {k : Nat} (hk : k < 4) :
    (s.store32 a v).fetchByte (false :: hidden) (byteAddress s.cfg.xlen a k) = v.extractLsb' (8 * k) 8 := by
  rw [State.fetchByte, store32_staleStores, storeAccesses_of_aligned ha]
  exact (fetchedByte_seen (cellAt_cells4 _ _ a hk) ..).trans (store32_read_byte s a v hm hk)

/-- An aligned store that is hidden is hidden as a whole. -/
theorem store32_fetchByte_hidden (y : Nat) : (s.store32 a v).fetchByte (true :: hidden) y = s.fetchByte hidden y := by
  by_cases hy : ∃ k, k < 4 ∧ y = byteAddress s.cfg.xlen a k
  · obtain ⟨k, hk, rfl⟩ := hy
    rw [State.fetchByte, store32_staleStores, storeAccesses_of_aligned ha]
    exact fetchedByte_hidden (cellAt_cells4 _ _ a hk) ..
  · exact store32_fetchByte_frame_of_aligned s v hidden ha true fun k hk e => hy ⟨k, hk, e⟩

end Aligned

section Misaligned

variable {a} (ha : a.extractLsb' 0 2 ≠ 0b00#2)

include ha

theorem store32_fetchByte_frame_of_misaligned {y : Nat} (hy : ∀ k, k < 4 → y ≠ byteAddress s.cfg.xlen a k) :
    (s.store32 a v).fetchByte hidden y = s.fetchByte (hidden.drop 4) y := by
  rw [store32_fetchByte_frame s a v _ hy, storeAccesses_of_misaligned ha]
  rfl

/-- Each byte of a misaligned store is seen or hidden on its own. -/
theorem store32_fetchByte_of_misaligned (hm : s.mem.wf = true) {k : Nat} (hk : k < 4) :
    (s.store32 a v).fetchByte hidden (byteAddress s.cfg.xlen a k) =
      if hidden.getD k false = true then s.fetchByte (hidden.drop 4) (byteAddress s.cfg.xlen a k)
      else v.extractLsb' (8 * k) 8 := by
  rw [State.fetchByte, store32_read_byte s a v hm hk, store32_staleStores, storeAccesses_of_misaligned ha]
  exact fetchedByte_byteAccess _ _ hidden (cells4_nodup ..) (cells4_getElem? s.mem _ a hk)

end Misaligned

end Fetch

/-- Settles O25, by the accesses the store is made of: one if its address is a multiple of 4, else one for each byte. -/
theorem staleFetch : Obligations.StaleFetch := by
  refine fun s a v hidden hm => ⟨fetchParcel_nil _, fun ha => ⟨?whole, ?seen, ?frame⟩,
    fun ha h0 h1 h2 h3 => ⟨fun k hk => ?bytewise, fun y hy => ?bytewiseFrame⟩⟩
  case whole => exact fetchParcel_congr (store32_cfg s a v) (store32_fetchByte_hidden s v hidden ha)
  case seen => exact fun k hk => store32_fetchByte_seen s v hidden ha hm hk
  case frame => exact fun h y hy => store32_fetchByte_frame_of_aligned s v hidden ha h hy
  case bytewise =>
    have hget : (h0 :: h1 :: h2 :: h3 :: hidden).getD k false = [h0, h1, h2, h3].getD k false :=
      List.getD_append [h0, h1, h2, h3] hidden false k hk
    rw [store32_fetchByte_of_misaligned s v _ ha hm hk, hget]
    rfl
  case bytewiseFrame => exact store32_fetchByte_frame_of_misaligned s v (h0 :: h1 :: h2 :: h3 :: hidden) ha hy

/-! ### `sw` -/

/-- Going to the next instruction changes no control register. -/
theorem sameControl_advance {s t : State} (h : SameControl s t) (n : Nat) : SameControl s (t.advance n) :=
  { h with }

/-- A store changes no control register. -/
theorem sameControl_store32 (s : State) (a : Word) (v : BitVec 32) : SameControl s (s.store32 a v) :=
  ⟨rfl, rfl, rfl, rfl, rfl, rfl, rfl, rfl, rfl, rfl, rfl, rfl, rfl, rfl, rfl, rfl, rfl, rfl⟩

/-- `sw` where neither its alignment nor the host's memory makes it trap (R127). -/
theorem exec_sw_of_no_trap {s : State} (rs2 : RegIdx) {rs1 : RegIdx} {imm : BitVec 12}
    (ha : s.dataMisaligned (s.regPlusImm rs1 imm) = false) (hd : s.answer.data = none) :
    exec (.sw rs2 rs1 imm) s =
      .next ((s.store32 (s.regPlusImm rs1 imm) ((s.readReg rs2).extractLsb' 0 32)).advance 4) := by
  simp [exec, execSw, ha, hd, BitVec.setWidth_eq_extractLsb']

/-- Byte `k` of the low 32 bits of a register. -/
theorem extractLsb'_low32_byte (w : Word) {k : Nat} (hk : k < 4) :
    (w.extractLsb' 0 32).extractLsb' (8 * k) 8 = w.extractLsb' (8 * k) 8 := by
  ext i hi
  simp [show 8 * k + i < 32 by omega]

/-- Settles O19: `sw` is `store32` of the low half of its register, and the next `pc`. -/
theorem swResult : Obligations.SwResult := by
  intro s rs2 rs1 imm hm ha hd
  have byte {k : Nat} (hk : k < 4) :=
    (store32_read_byte s (s.regPlusImm rs1 imm) _ hm hk).trans (extractLsb'_low32_byte (s.readReg rs2) hk)
  refine ⟨_, exec_sw_of_no_trap rs2 ha hd, byte (k := 0) (by omega), byte (k := 1) (by omega), byte (k := 2) (by omega),
    byte (k := 3) (by omega), fun y hy => store32_read_frame s _ _ hy, ?stale, fun _ _ => rfl, advance_pc _ 4, rfl, rfl, rfl,
    fun _ => rfl, sameControl_advance (sameControl_store32 ..) 4⟩
  case stale => rw [advance_staleStores, store32_staleStores]

end Sys2Proof.Machine
end

section
/-! PROOFS. Which words are `lpad`, and when `lpad` completes: `LpadWords`, `LpadCompletes` (spec/30_encoding.md R61, R63, R64;
spec/41_lpad.md R101, R102). -/

namespace Sys2Proof

/-! ### The U-type rows of opcode 0010111 (R61, R63) -/

/-- The mask of R61 keeps `rd` and the opcode. -/
theorem isLpadWord_iff (w : BitVec 32) : isLpadWord w = true ↔ opcodeOf w = 0b0010111#7 ∧ rdOf w = 0 := by
  have mask : (w &&& 0x00000FFF#32).toNat = w.toNat % 4096 := by
    rw [BitVec.toNat_and]
    exact Nat.and_two_pow_sub_one_eq_mod w.toNat 12
  have opcode : (opcodeOf w).toNat = w.toNat % 128 := rfl
  have rd : (rdOf w : Nat) = w.toNat / 128 % 32 := by
    simp [rdOf, Nat.shiftRight_eq_div_pow]
  rw [isLpadWord, beq_iff_eq, ← BitVec.toNat_inj, ← BitVec.toNat_inj, Fin.ext_iff, mask, opcode, rd]
  simp only [BitVec.toNat_ofNat, Fin.val_zero]
  omega

/-- The opcode alone decides between `lpad` and `auipc`, and `rd` between the two. -/
theorem decodeWord_of_opcode {w : BitVec 32} (h : opcodeOf w = 0b0010111#7) :
    decodeWord w = .ok (if rdOf w = 0 then .lpad (uImmOf w) else .auipc (rdOf w) (uImmOf w)) := by
  by_cases hr : rdOf w = 0
  · simp [decodeWord, h, hr]
  · simp [decodeWord, h, hr]

theorem decodeWord_of_isLpadWord {w : BitVec 32} (h : isLpadWord w = true) : decodeWord w = .ok (.lpad (uImmOf w)) := by
  obtain ⟨opcode, rd⟩ := (isLpadWord_iff w).1 h
  rw [decodeWord_of_opcode opcode, if_pos rd]

theorem decodeWord_of_not_isLpadWord {w : BitVec 32} (ho : opcodeOf w = 0b0010111#7) (h : isLpadWord w = false) :
    decodeWord w = .ok (.auipc (rdOf w) (uImmOf w)) := by
  have rd : rdOf w ≠ 0 := fun hr => by simp [(isLpadWord_iff w).2 ⟨ho, hr⟩] at h
  rw [decodeWord_of_opcode ho, if_neg rd]

/-- No row of R67 but the first is `lpad`. -/
theorem isLpadWord_of_decodeWord {w : BitVec 32} {l : BitVec 20} (h : decodeWord w = .ok (.lpad l)) :
    isLpadWord w = true := by
  by_contra hn
  rw [isLpadWord_iff] at hn
  rw [decodeWord, if_neg hn] at h
  repeat refine ite_eq_elim h (fun _ row => by cases row) fun _ h => ?_
  cases h

/-- Settles O4, by the fields that the mask keeps. -/
theorem lpadWords : Obligations.LpadWords := fun _ =>
  ⟨beq_iff_eq, decodeWord_of_isLpadWord, fun _ => isLpadWord_of_decodeWord, decodeWord_of_not_isLpadWord⟩

/-- The word of `lpad` with a label (R61). -/
theorem decodeWord_uType_lpad (lpl : BitVec 20) : decodeWord (uType lpl 0#5 0b0010111#7) = .ok (.lpad lpl) := by
  rw [decodeWord_of_opcode (opcodeOf_uType ..), rdOf_uType, uImmOf_uType]
  rfl

end Sys2Proof

namespace Sys2Proof.Machine

/-! ### The tests of `lpad` (R101) -/

theorem labelMatches_iff (lpl : BitVec 20) (x7 : Word) :
    labelMatches lpl x7 = true ↔ lpl = 0#20 ∨ lpl = x7.extractLsb' 12 20 := by
  rw [labelMatches, Bool.or_eq_true, beq_iff_eq, beq_iff_eq]

theorem isFourAligned_iff (pc : Word) : isFourAligned pc = true ↔ pc.extractLsb' 0 2 = 0b00#2 := beq_iff_eq

/-- CFI is never active on a hart without the extension (R64). -/
theorem xfcfie_of_no_extension {s : State} (h : s.cfg.hasZicfisslp = false) : s.xfcfie = false := by
  simp [State.xfcfie, h]

/-- While CFI is active an `lpad` that passes both tests clears `ELP`. -/
theorem exec_lpad_of_active {s : State} {lpl : BitVec 20} (h : s.xfcfie = true) (ha : isFourAligned s.pc = true)
    (hl : labelMatches lpl (s.readReg 7) = true) :
    exec (.lpad lpl) s = .next ((s.setElp .noLpExpected).advance 4) := by
  simp [exec, execLpad, h, ha, hl]

/-! ### What a completed `lpad` leaves unchanged -/

/-- A new `ELP` and the next `pc` are all that changes. -/
theorem setElp_advance_frame (s : State) (e : Elp) :
    ((s.setElp e).advance 4).pc = s.cfg.xlen.wrap (s.pc + 4#64) ∧ SameRegs s ((s.setElp e).advance 4) ∧
      SameControl s ((s.setElp e).advance 4) ∧ SameMemory s ((s.setElp e).advance 4) := by
  have control : SameControl s (s.setElp e) :=
    ⟨rfl, rfl, rfl, rfl, rfl, rfl, rfl, rfl, rfl, rfl, rfl, rfl, rfl, rfl, rfl, rfl, rfl, rfl⟩
  exact ⟨rfl, fun _ => rfl, sameControl_advance control 4, ⟨fun _ => rfl, rfl, rfl, rfl⟩⟩

/-- `lpad` while CFI is not active: the same `ELP` and the next `pc` (R102). -/
theorem lpad_noop_of_inactive {s : State} (h : s.xfcfie = false) (lpl : BitVec 20) :
    ∃ t, exec (.lpad lpl) s = .next t ∧ t.elp = s.elp ∧ t.pc = s.cfg.xlen.wrap (s.pc + 4#64) ∧
      SameRegs s t ∧ SameControl s t ∧ SameMemory s t :=
  ⟨_, exec_lpad_of_inactive h lpl, rfl, setElp_advance_frame s s.elp⟩

/-- Settles O12: while CFI is active both tests pass, and a hart without the extension is one where it is not active. -/
theorem lpadCompletes : Obligations.LpadCompletes := by
  refine fun s lpl => ⟨decodeWord_uType_lpad lpl, fun hz => lpad_noop_of_inactive (xfcfie_of_no_extension hz) lpl,
    fun h ha hl => ?active, fun h => lpad_noop_of_inactive h lpl⟩
  case active =>
    have aligned := (isFourAligned_iff s.pc).2 ha
    have label := (labelMatches_iff lpl (s.readReg 7)).2 hl
    exact ⟨_, exec_lpad_of_active h aligned label, rfl, setElp_advance_frame s .noLpExpected⟩

end Sys2Proof.Machine
end

section
/-! PROOFS. Which register-indirect jumps expect a landing pad: `JumpClassification` (spec/40_indirect_jumps.md R80 to R82, R87). -/

namespace Sys2Proof.Machine

/-! ### The two tests and the flag (R80 to R82) -/

theorem isIndirectCallJump_iff (rd rs1 : RegIdx) :
    isIndirectCallJump rd rs1 = true ↔ (rs1 ≠ 1 ∧ rs1 ≠ 5) ∨ rd ≠ 0 := by
  simp only [isIndirectCallJump, Bool.or_eq_true, Bool.and_eq_true, bne_iff_ne]

/-- No call: a jump that does not link, through one of the two link registers. -/
theorem isIndirectCallJump_eq_false_iff (rd rs1 : RegIdx) :
    isIndirectCallJump rd rs1 = false ↔ rd = 0 ∧ (rs1 = 1 ∨ rs1 = 5) := by
  rw [← Bool.not_eq_true, isIndirectCallJump_iff]
  tauto

theorem isSwGuardedJump_iff (k : JumpKind) (rd rs1 : RegIdx) :
    isSwGuardedJump k rd rs1 = true ↔ k = .jalr ∧ rd = 7 ∧ rs1 = 7 := by
  simp only [isSwGuardedJump, Bool.and_eq_true, beq_iff_eq, and_assoc]

theorem isLpExpected_iff (k : JumpKind) (rd rs1 : RegIdx) :
    isLpExpected k rd rs1 = true ↔ isIndirectCallJump rd rs1 = true ∧ isSwGuardedJump k rd rs1 = false := by
  simp only [isLpExpected, Bool.and_eq_true, Bool.not_eq_true']

/-- A jump expects no landing pad for one of two reasons: it is no call, or it is software guarded. -/
theorem isLpExpected_eq_false_iff (k : JumpKind) (rd rs1 : RegIdx) :
    isLpExpected k rd rs1 = false ↔ (rd = 0 ∧ (rs1 = 1 ∨ rs1 = 5)) ∨ (k = .jalr ∧ rd = 7 ∧ rs1 = 7) := by
  rw [← isIndirectCallJump_eq_false_iff, ← isSwGuardedJump_iff, isLpExpected, Bool.and_eq_false_iff, Bool.not_eq_false']

/-! ### The three instructions (R87) -/

theorem isLpExpected_jalr_eq_false_iff (rd rs1 : RegIdx) :
    isLpExpected .jalr rd rs1 = false ↔ (rd = 0 ∧ rs1 = 1) ∨ (rd = 0 ∧ rs1 = 5) ∨ (rd = 7 ∧ rs1 = 7) := by
  rw [isLpExpected_eq_false_iff]
  tauto

/-- `C.JR` does not link and is never software guarded, so only `rs1` counts. -/
theorem isLpExpected_cJr_eq_false_iff (rs1 : RegIdx) :
    isLpExpected .cJr 0 rs1 = false ↔ rs1 = 1 ∨ rs1 = 5 := by
  simp [isLpExpected_eq_false_iff]

/-- `C.JALR` links in `x1`, so it is a call through every `rs1`, and it is never software guarded. -/
theorem isLpExpected_cJalr (rs1 : RegIdx) : isLpExpected .cJalr 1 rs1 = true := by
  simp [← Bool.not_eq_false, isLpExpected_eq_false_iff]

theorem expectsLandingPad_iff (i : Instr) :
    expectsLandingPad i = true ↔
      (∃ rd rs1 imm, i = .jalr rd rs1 imm ∧ isLpExpected .jalr rd rs1 = true) ∨
      (∃ rs1, i = .cJr rs1 ∧ isLpExpected .cJr 0 rs1 = true) ∨
      (∃ rs1, i = .cJalr rs1 ∧ isLpExpected .cJalr 1 rs1 = true) := by
  constructor
  case mp =>
    intro h
    cases i
    case jalr rd rs1 imm => exact .inl ⟨rd, rs1, imm, rfl, h⟩
    case cJr rs1 => exact .inr (.inl ⟨rs1, rfl, h⟩)
    case cJalr rs1 => exact .inr (.inr ⟨rs1, rfl, h⟩)
    all_goals cases h
  case mpr => rintro (⟨_, _, _, rfl, h⟩ | ⟨_, rfl, h⟩ | ⟨_, rfl, h⟩) <;> exact h

/-- Settles O9, by the two reasons for which a jump expects no landing pad, read off for each of the three instructions. -/
theorem jumpClassification : Obligations.JumpClassification :=
  ⟨isIndirectCallJump_iff, isSwGuardedJump_iff, isLpExpected_iff, isLpExpected_jalr_eq_false_iff,
    isLpExpected_cJr_eq_false_iff, isLpExpected_cJalr, expectsLandingPad_iff⟩

end Sys2Proof.Machine
end

section
/-! PROOFS. What an instruction that ends in a register result, a jump or an exception does to the whole state: the frame
lemmas of the host subset (spec/43_host_subset.md R120 to R137). -/

namespace Sys2Proof.Machine

/-! ### The new state of a completed instruction -/

theorem sameControl_refl (s : State) : SameControl s s :=
  ⟨rfl, rfl, rfl, rfl, rfl, rfl, rfl, rfl, rfl, rfl, rfl, rfl, rfl, rfl, rfl, rfl, rfl, rfl⟩

/-- A register write changes no control register. -/
theorem sameControl_writeReg {s t : State} (h : SameControl s t) (rd : RegIdx) (v : Word) :
    SameControl s (t.writeReg rd v) := { h with }

/-- A new `pc` changes no control register. -/
theorem sameControl_goto {s t : State} (h : SameControl s t) (w : Word) : SameControl s (t.goto w) := { h with }

theorem readReg_writeReg_eq_writtenValue (s : State) (rd : RegIdx) (v : Word) :
    (s.writeReg rd v).readReg rd = writtenValue s rd v := readReg_writeReg_same s rd v

theorem sameRegsBut_writeReg (s : State) (rd : RegIdx) (v : Word) : SameRegsBut rd s (s.writeReg rd v) :=
  fun _ h => readReg_writeReg_of_ne s v h

/-- A new `pc`, and nothing else. -/
theorem goto_frame (s : State) (w : Word) :
    (s.goto w).elp = s.elp ∧ SameRegs s (s.goto w) ∧ SameControl s (s.goto w) ∧ SameMemory s (s.goto w) :=
  ⟨rfl, fun _ => rfl, sameControl_goto (sameControl_refl s) w, ⟨fun _ => rfl, rfl, rfl, rfl⟩⟩

/-- A register result and a new `pc`, and nothing else. -/
theorem writeReg_goto_frame (s : State) (rd : RegIdx) (v w : Word) :
    ((s.writeReg rd v).goto w).readReg rd = writtenValue s rd v ∧ ((s.writeReg rd v).goto w).elp = s.elp ∧
      SameRegsBut rd s ((s.writeReg rd v).goto w) ∧ SameControl s ((s.writeReg rd v).goto w) ∧
      SameMemory s ((s.writeReg rd v).goto w) :=
  ⟨readReg_writeReg_eq_writtenValue s rd v, rfl, sameRegsBut_writeReg s rd v,
    sameControl_goto (sameControl_writeReg (sameControl_refl s) rd v) w, ⟨fun _ => rfl, rfl, rfl, rfl⟩⟩

/-- `writeResult` is a register result and the next `pc`. -/
theorem writeResult_frame (s : State) (rd : RegIdx) (v : Word) :
    ∃ t, writeResult rd v s = .next t ∧ t.readReg rd = writtenValue s rd v ∧ t.pc = s.cfg.xlen.wrap (s.pc + 4#64) ∧
      t.elp = s.elp ∧ SameRegsBut rd s t ∧ SameControl s t ∧ SameMemory s t := by
  obtain ⟨value, frame⟩ := writeReg_goto_frame s rd v (s.pc + 4#64)
  exact ⟨_, rfl, value, rfl, frame⟩

/-! ### The state after an exception (R153, R154) -/

/-- What an exception with code `c` records, and what it leaves alone. -/
theorem takeTrap_exception_frame (s : State) (x : TrapTarget) (c : BitVec 6) (tv : Word) (n : Nat) :
    TrapFrom s ((s.takeTrap x false c tv).withDraws n) ∧
      (trapCsrsOf ((s.takeTrap x false c tv).withDraws n) x).cause = c.setWidth 64 ∧
      (trapCsrsOf ((s.takeTrap x false c tv).withDraws n) x).epc = s.pc ∧
      SameRegs s ((s.takeTrap x false c tv).withDraws n) ∧
      ∀ a, ((s.takeTrap x false c tv).withDraws n).mem.read a = s.mem.read a := by
  rw [trapCsrsOf_withDraws, trapCsrsOf_takeTrap]
  exact ⟨trapFrom_takeTrap .., causeWord_exception s.cfg.xlen c, rfl, readReg_congr (takeTrap_regs ..),
    fun a => by rw [withDraws_mem, takeTrap_mem]⟩

/-- An exception with a stated trap value: a trap that draws no free value. -/
theorem raise_frame {e : Exception} {c : BitVec 6} (h : exceptionCode e = c) (tv : Word) (s : State) :
    ∃ t, raise e tv s = .next t ∧ TrapFrom s t ∧ (trapCsrsOf t (s.exceptionTarget c)).cause = c.setWidth 64 ∧
      (trapCsrsOf t (s.exceptionTarget c)).epc = s.pc ∧ SameRegs s t ∧ SameMemory s t := by
  subst h
  obtain ⟨trap, cause, epc, regs, bytes⟩ :=
    takeTrap_exception_frame s (s.exceptionTarget (exceptionCode e)) (exceptionCode e) tv s.draws
  exact ⟨_, raise_eq_draws e tv s, trap, cause, epc, regs,
    ⟨bytes, by rw [withDraws_staleStores, takeTrap_staleStores], by rw [withDraws_answers, takeTrap_answers], rfl⟩⟩

/-- Illegal-instruction by an instruction. -/
theorem raiseIllegal_frame (i : Instr) (s : State) :
    ∃ t, raiseIllegal i s = .next t ∧ TrapFrom s t ∧ (trapCsrsOf t (s.exceptionTarget 2)).cause = 2#64 ∧
      (trapCsrsOf t (s.exceptionTarget 2)).epc = s.pc ∧ SameRegs s t ∧ SameMemory s t :=
  raise_frame (e := .illegalInstruction) rfl _ s

/-- An exception with a free trap value: the count of free values is the only part of memory's frame that changes. -/
theorem raiseFree_frame {e : Exception} {c : BitVec 6} (h : exceptionCode e = c) (s : State) :
    ∃ t, raiseFree e s = .next t ∧ TrapFrom s t ∧ (trapCsrsOf t (s.exceptionTarget c)).cause = c.setWidth 64 ∧
      (trapCsrsOf t (s.exceptionTarget c)).epc = s.pc ∧ SameRegs s t ∧ ∀ a, t.mem.read a = s.mem.read a :=
  ⟨_, raiseFree_code h s, takeTrap_exception_frame s ..⟩

end Sys2Proof.Machine
end

section
/-! PROOFS. Integer computation: `LuiResult`, `AuipcResult`, `SumResults`, `SlliResult` (spec/43_host_subset.md R121 to R125). -/

namespace Sys2Proof.Machine

/-! ### The U-type immediate (R65) -/

/-- Sign extension keeps the bits below 32 that the value has. -/
theorem sext_getLsbD_of_lt {n : Nat} (x : Xlen) (v : BitVec n) {i : Nat} (hn : i < n) (hi : i < 32) :
    (x.sext v).getLsbD i = v.getLsbD i := by
  rw [Xlen.sext, wrap_getLsbD_of_lt (lt_bits_of_lt hi x), BitVec.getLsbD_signExtend]
  simp [hn, show i < 64 by omega]

theorem extractLsb'_sext {n : Nat} (x : Xlen) (v : BitVec n) {start len : Nat} (hn : start + len ≤ n)
    (h : start + len ≤ 32) : (x.sext v).extractLsb' start len = v.extractLsb' start len := by
  apply BitVec.eq_of_getLsbD_eq
  intro i hi
  rw [BitVec.getLsbD_extractLsb', BitVec.getLsbD_extractLsb', sext_getLsbD_of_lt x v (by omega) (by omega)]

@[simp] theorem wrap_sext {n : Nat} (x : Xlen) (v : BitVec n) : x.wrap (x.sext v) = x.sext v := Xlen.wrap_wrap x _

/-- Bits 31:12 and 11:0 of `sext_XLEN(imm20 ++ 0x000)`. -/
theorem upperImm_parts (x : Xlen) (imm20 : BitVec 20) :
    (x.sext (imm20 ++ 0x000#12)).extractLsb' 12 20 = imm20 ∧ (x.sext (imm20 ++ 0x000#12)).extractLsb' 0 12 = 0#12 := by
  rw [extractLsb'_sext x _ (by decide) (by decide), extractLsb'_sext x _ (by decide) (by decide)]
  exact ⟨BitVec.extractLsb'_append_eq_left, BitVec.extractLsb'_append_eq_right⟩

/-- Settles O14: `lui` writes its immediate as a register result. -/
theorem luiResult : Obligations.LuiResult := by
  intro s rd imm20
  obtain ⟨t, ht, value, frame⟩ := writeResult_frame s rd (s.upperImm imm20)
  refine ⟨rfl, t, ht, value, fun hrd => ?_, frame⟩
  have whole : t.readReg rd = s.cfg.xlen.sext (imm20 ++ 0x000#12) := by
    rw [value, writtenValue, if_neg hrd]
    exact wrap_sext ..
  rw [whole]
  exact upperImm_parts s.cfg.xlen imm20

/-- The U-type word with opcode 0010111 is `lpad` when `rd` is `x0`, and `auipc` otherwise (R63, R122). -/
theorem decodeWord_uType_auipc (imm20 : BitVec 20) (rd : RegIdx) :
    decodeWord (uType imm20 (regBits rd) 0b0010111#7) = .ok (if rd = 0 then .lpad imm20 else .auipc rd imm20) := by
  rw [decodeWord_of_opcode (opcodeOf_uType ..), rdOf_uType, uImmOf_uType, regBits_toFin]

/-- Settles O15: `auipc` writes its sum as a register result. -/
theorem auipcResult : Obligations.AuipcResult :=
  fun s rd imm20 => ⟨decodeWord_uType_auipc imm20 rd, writeResult_frame s rd (s.pc + s.upperImm imm20)⟩

/-- Wrapping a value first does not change what is written. -/
theorem writtenValue_wrap (s : State) (rd : RegIdx) (v : Word) :
    writtenValue s rd (s.cfg.xlen.wrap v) = writtenValue s rd v := by
  rw [writtenValue, writtenValue, Xlen.wrap_wrap]

/-- Settles O16: both write their sum as a register result, which is wrapped once more. -/
theorem sumResults : Obligations.SumResults := by
  intro s rd rs1 rs2 imm
  refine ⟨rfl, rfl, ?addi, writeResult_frame s rd (s.readReg rs1 + s.readReg rs2)⟩
  case addi =>
    rw [← writtenValue_wrap]
    exact writeResult_frame s rd (s.regPlusImm rs1 imm)

/-! ### `slli` (R125) -/

/-- A register result as a number. -/
theorem writtenValue_toNat (s : State) (rd : RegIdx) (v : Word) :
    (writtenValue s rd v).toNat = if rd = 0 then 0 else v.toNat % 2 ^ s.cfg.xlen.bits := by
  rw [writtenValue, apply_ite BitVec.toNat, Xlen.wrap_toNat]
  rfl

/-- The low `XLEN` bits of a shifted value do not depend on the 64 bits it is held in. -/
theorem shiftLeft_toNat_mod (x : Xlen) (w : Word) (k : Nat) :
    (w <<< k).toNat % 2 ^ x.bits = (w.toNat * 2 ^ k) % 2 ^ x.bits := by
  rw [BitVec.toNat_shiftLeft, Nat.shiftLeft_eq, Nat.mod_mod_of_dvd _ (Nat.pow_dvd_pow 2 x.bits_le)]

/-- Settles O17, by the test for an illegal amount. -/
theorem slliResult : Obligations.SlliResult := by
  refine fun s rd rs1 shamt => ⟨rfl, fun h => ?legal, fun hx h5 => ?illegal⟩
  case legal =>
    have run : exec (.slli rd rs1 shamt) s = writeResult rd (s.readReg rs1 <<< shamt.toNat) s := if_neg h
    obtain ⟨t, ht, value, frame⟩ := writeResult_frame s rd (s.readReg rs1 <<< shamt.toNat)
    exact ⟨t, run.trans ht, by rw [value, writtenValue_toNat, shiftLeft_toNat_mod], frame⟩
  case illegal =>
    have run : exec (.slli rd rs1 shamt) s = raiseIllegal (.slli rd rs1 shamt) s := if_pos ⟨hx, h5⟩
    rw [run]
    exact raiseIllegal_frame (.slli rd rs1 shamt) s

end Sys2Proof.Machine
end

section
/-! PROOFS. Direct jumps, fences and `ebreak`: `BranchResults`, `JalResult`, `FenceResults`, `EbreakTraps`
(spec/43_host_subset.md R128 to R136). -/

namespace Sys2Proof.Machine

/-! ### The end of a jump (R42, R128) -/

/-- A jump to an aligned target completes. -/
theorem jumpTo_of_aligned {s : State} {w : Word} (h : s.targetMisaligned w = false) (t' : State) :
    jumpTo s t' w = .next (t'.goto w) := by
  rw [jumpTo, h]
  rfl

/-- A jump to a target with bit 1 set, on a hart without `HAS_C`, raises with the target as trap value. -/
theorem jumpTo_of_misaligned {s : State} {w : Word} (hC : s.cfg.hasC = false) (hw : w.getLsbD 1 = true) (t' : State) :
    jumpTo s t' w = raise .instructionAddressMisaligned w s := by
  have h : s.targetMisaligned w = true := by simp [State.targetMisaligned, hC, hw]
  rw [jumpTo, h]
  rfl

theorem goto_pcPlus_pc {n : Nat} {s t : State} (hx : t.cfg = s.cfg) (off : BitVec n) :
    (t.goto (s.pcPlus off)).pc = s.cfg.xlen.wrap (s.pc + s.cfg.xlen.sext off) := by
  rw [goto_pc, hx, State.pcPlus, Xlen.wrap_wrap]
  rfl

/-! ### Branches (R128 to R131) -/

/-- What `branchIf` does for each value of its condition and each alignment of its target. -/
theorem branchIf_results (s : State) (taken : Bool) (off : BitVec 13) :
    (taken = true → s.targetMisaligned (s.pcPlus off) = false →
      ∃ t, branchIf taken off s = .next t ∧ t.pc = s.cfg.xlen.wrap (s.pc + s.cfg.xlen.sext off) ∧
        t.elp = s.elp ∧ SameRegs s t ∧ SameControl s t ∧ SameMemory s t) ∧
    (taken = true → s.cfg.hasC = false → (s.pcPlus off).getLsbD 1 = true →
      ∃ t, branchIf taken off s = .next t ∧ TrapFrom s t ∧ (trapCsrsOf t (s.exceptionTarget 0)).cause = 0#64 ∧
        (trapCsrsOf t (s.exceptionTarget 0)).epc = s.pc ∧ SameRegs s t ∧ SameMemory s t) ∧
    (taken = false →
      ∃ t, branchIf taken off s = .next t ∧ t.pc = s.cfg.xlen.wrap (s.pc + 4#64) ∧
        t.elp = s.elp ∧ SameRegs s t ∧ SameControl s t ∧ SameMemory s t) := by
  refine ⟨?aligned, ?misaligned, ?next⟩
  case aligned =>
    rintro rfl ha
    exact ⟨_, jumpTo_of_aligned ha s, goto_pcPlus_pc rfl off, goto_frame s _⟩
  case misaligned =>
    rintro rfl hC hw
    have run : branchIf true off s = raise .instructionAddressMisaligned (s.pcPlus off) s := jumpTo_of_misaligned hC hw s
    rw [run]
    exact raise_frame (e := .instructionAddressMisaligned) rfl _ s
  case next =>
    rintro rfl
    exact ⟨_, rfl, rfl, goto_frame s _⟩

/-- Settles O22: each branch is `branchIf` of its own condition. -/
theorem branchResults : Obligations.BranchResults := by
  intro s rs1 rs2 off i funct3 taken h
  obtain ⟨b, hb, run⟩ : ∃ b, (taken ↔ b = true) ∧ exec i s = branchIf b off s := by
    rcases h with ⟨rfl, -, ht⟩ | ⟨rfl, -, ht⟩ | ⟨rfl, -, ht⟩ | ⟨rfl, -, ht⟩
    · exact ⟨_, ht.trans beq_iff_eq.symm, rfl⟩
    · exact ⟨_, ht.trans bne_iff_ne.symm, rfl⟩
    · exact ⟨_, ht.trans decide_eq_true_iff.symm, rfl⟩
    · exact ⟨_, ht.trans decide_eq_true_iff.symm, rfl⟩
  obtain ⟨aligned, misaligned, next⟩ := branchIf_results s b off
  rw [run, hb, Bool.not_eq_true]
  refine ⟨?encoding, aligned, misaligned, next⟩
  case encoding => rcases h with ⟨rfl, rfl, -⟩ | ⟨rfl, rfl, -⟩ | ⟨rfl, rfl, -⟩ | ⟨rfl, rfl, -⟩ <;> rfl

/-! ### `jal` (R134) -/

/-- Settles O23, by the alignment of the target. -/
theorem jalResult : Obligations.JalResult := by
  refine fun s rd off => ⟨rfl, fun ha => ?aligned, fun hC hw => ?misaligned⟩
  case aligned =>
    exact ⟨_, jumpTo_of_aligned ha _, goto_pcPlus_pc (writeReg_cfg ..) off, writeReg_goto_frame s rd (s.pc + 4#64) _⟩
  case misaligned =>
    have run := jumpTo_of_misaligned hC hw (s.writeReg rd (s.pc + 4#64))
    exact run.trans (raise_code rfl _ s)

/-! ### Fences (R132, R133) -/

/-- After `fence.i` a fetch sees memory, whichever accesses the host's answer would hide (R50). -/
theorem syncFetch_advance_fetchParcel (s : State) (n : Nat) (hidden : List Bool) (a : Word) :
    (s.syncFetch.advance n).fetchParcel hidden a = s.mem.read16 s.cfg.xlen a := by
  have byte (y : Nat) : (s.syncFetch.advance n).fetchByte hidden y = s.mem.read y := fetchedByte_none ..
  rw [State.fetchParcel, byte, byte]
  rfl

/-- Settles O24: `fence` is the next `pc` alone, and `fence.i` forgets what stores have overwritten. -/
theorem fenceResults : Obligations.FenceResults := by
  refine fun s fm pred succ imm rs1 rd => ⟨by decide, ⟨_, rfl, rfl, goto_frame s (s.pc + 4#64)⟩, ?fenceI⟩
  case fenceI =>
    have control : SameControl s s.syncFetch := { sameControl_refl s with }
    exact ⟨_, rfl, syncFetch_advance_fetchParcel s 4, rfl, rfl, rfl, rfl, fun _ => rfl, fun _ => rfl,
      sameControl_advance control 4⟩

/-! ### `ebreak` (R136) -/

/-- Settles O27: `ebreak` is the breakpoint exception with a free trap value. -/
theorem ebreakTraps : Obligations.EbreakTraps := by
  refine ⟨rfl, rfl, fun s => ?_⟩
  obtain ⟨-, cause, epc, regs, bytes⟩ :=
    takeTrap_exception_frame s (s.exceptionTarget 3) 3 s.freeValue (s.draws + 1)
  refine ⟨_, raiseFree_code (e := .breakpoint) (c := 3) rfl s, ⟨s.freeValue, rfl⟩, cause, epc, ?saved, ?elp, regs, bytes⟩
  case saved => rw [savedElp_withDraws, savedElp_takeTrap]
  case elp => rw [withDraws_elp, takeTrap_elp]

end Sys2Proof.Machine
end

section
/-! PROOFS. The six CSR instructions: `CsrInstructionResults`, `CsrAccessFaults` (spec/10_state.md R31; spec/43_host_subset.md
R138 to R144). -/

namespace Sys2Proof.Machine

/-! ### Each form as the shared `csrInstruction` (R138 to R143) -/

theorem exec_csrrw (rd rs1 : RegIdx) (n : BitVec 12) (s : State) : exec (.csrrw rd rs1 n) s =
    csrInstruction (.csrrw rd rs1 n) rd n true (fun _ => s.readReg rs1) s := rfl

theorem exec_csrrs (rd rs1 : RegIdx) (n : BitVec 12) (s : State) : exec (.csrrs rd rs1 n) s =
    csrInstruction (.csrrs rd rs1 n) rd n (rs1 != 0) (fun t => t ||| s.readReg rs1) s := rfl

theorem exec_csrrc (rd rs1 : RegIdx) (n : BitVec 12) (s : State) : exec (.csrrc rd rs1 n) s =
    csrInstruction (.csrrc rd rs1 n) rd n (rs1 != 0) (fun t => t &&& ~~~(s.readReg rs1)) s := rfl

theorem exec_csrrwi (rd : RegIdx) (uimm : BitVec 5) (n : BitVec 12) (s : State) : exec (.csrrwi rd uimm n) s =
    csrInstruction (.csrrwi rd uimm n) rd n true (fun _ => uimm.setWidth 64) s := rfl

theorem exec_csrrsi (rd : RegIdx) (uimm : BitVec 5) (n : BitVec 12) (s : State) : exec (.csrrsi rd uimm n) s =
    csrInstruction (.csrrsi rd uimm n) rd n (uimm != 0) (fun t => t ||| uimm.setWidth 64) s := rfl

theorem exec_csrrci (rd : RegIdx) (uimm : BitVec 5) (n : BitVec 12) (s : State) : exec (.csrrci rd uimm n) s =
    csrInstruction (.csrrci rd uimm n) rd n (uimm != 0) (fun t => t &&& ~~~(uimm.setWidth 64)) s := rfl

/-! ### An access that is allowed (R138 to R143) -/

/-- A CSR instruction that reaches its register: the old value into `rd`, the write if there is one, and the next `pc`. -/
theorem csrInstruction_reaches_frame {s : State} {n : BitVec 12} {write : Bool} {r : Csr}
    (h : s.csrAccess n write = .reaches r) (i : Instr) (rd : RegIdx) (f : Word → Word) :
    ∃ t, csrInstruction i rd n write f s = .next t ∧ t.readReg rd = writtenValue s rd (s.readCsr r) ∧ SameRegsBut rd s t ∧
      t.pc = s.cfg.xlen.wrap (s.pc + 4#64) ∧ t.elp = s.elp ∧
      (∀ a, t.mem.read a = s.mem.read a) ∧ t.staleStores = s.staleStores ∧ t.answers = s.answers ∧
      (write = false → SameControl s t ∧ t.draws = s.draws) ∧
      (write = true → SameControl (s.writeCsr r (f (s.readCsr r))) t ∧
        t.draws = (s.writeCsr r (f (s.readCsr r))).draws) := by
  rw [csrInstruction_reaches h]
  cases write with
  | false =>
    obtain ⟨value, elp, regs, control, memory⟩ := writeReg_goto_frame s rd (s.readCsr r) (s.pc + 4#64)
    exact ⟨_, rfl, value, regs, rfl, elp, memory.bytes, memory.stale, memory.answers, fun _ => ⟨control, memory.draws⟩, nofun⟩
  | true =>
    generalize f (s.readCsr r) = v
    obtain ⟨value, elp, regs, control, memory⟩ :=
      writeReg_goto_frame (s.writeCsr r v) rd (s.readCsr r) ((s.writeCsr r v).pc + 4#64)
    refine ⟨_, rfl, value.trans ?value, fun q hq => (regs q hq).trans (readReg_writeCsr ..), ?pc,
      elp.trans (writeCsr_elp ..), fun a => (memory.bytes a).trans (by rw [writeCsr_mem]),
      memory.stale.trans (writeCsr_staleStores ..), memory.answers.trans (writeCsr_answers ..), nofun,
      fun _ => ⟨control, memory.draws⟩⟩
    case value => rw [writtenValue, writtenValue, writeCsr_cfg]
    case pc => rw [if_pos rfl, advance_pc, writeReg_cfg, writeReg_pc, writeCsr_cfg, writeCsr_pc]

/-- Settles O35: each form is `csrInstruction` with its own new value. -/
theorem csrInstructionResults : Obligations.CsrInstructionResults := by
  intro s rd rs1 uimm n r i write v funct3 field h access
  obtain ⟨f, run, rfl⟩ : ∃ f, exec i s = csrInstruction i rd n write f s ∧ v = f (s.readCsr r) := by
    rcases h with ⟨rfl, -, -, rfl, hv⟩ | ⟨rfl, -, -, rfl, hv⟩ | ⟨rfl, -, -, rfl, hv⟩ | ⟨rfl, -, -, rfl, hv⟩ |
      ⟨rfl, -, -, rfl, hv⟩ | ⟨rfl, -, -, rfl, hv⟩
    · exact ⟨_, exec_csrrw .., hv⟩
    · exact ⟨_, exec_csrrs .., hv⟩
    · exact ⟨_, exec_csrrc .., hv⟩
    · exact ⟨_, exec_csrrwi .., hv⟩
    · exact ⟨_, exec_csrrsi .., hv⟩
    · exact ⟨_, exec_csrrci .., hv⟩
  rw [run]
  refine ⟨?encoding, csrInstruction_reaches_frame access i rd f⟩
  case encoding =>
    rcases h with ⟨rfl, rfl, rfl, -⟩ | ⟨rfl, rfl, rfl, -⟩ | ⟨rfl, rfl, rfl, -⟩ | ⟨rfl, rfl, rfl, -⟩ | ⟨rfl, rfl, rfl, -⟩ |
      ⟨rfl, rfl, rfl, -⟩ <;> rfl

/-! ### The level and the read-only mark of a number (R144) -/

theorem csrLevel_eq_s {n : BitVec 12} (h : n.extractLsb' 8 2 = 0b01#2) : csrLevel n = .s := by simp [csrLevel, h]

theorem csrLevel_eq_hs {n : BitVec 12} (h : n.extractLsb' 8 2 = 0b10#2) : csrLevel n = .hs := by simp [csrLevel, h]

theorem csrLevel_eq_m {n : BitVec 12} (h : n.extractLsb' 8 2 = 0b11#2) : csrLevel n = .m := by simp [csrLevel, h]

/-- No number of a register is marked read-only. -/
theorem csrReadOnly_of_csrOfNumber {n : BitVec 12} {r : Csr} (h : csrOfNumber n = some r) : csrReadOnly n = false := by
  unfold csrOfNumber at h
  repeat refine ite_eq_elim h (fun hn _ => by subst hn; rfl) fun _ h => ?_
  cases h

/-! ### An access that is not allowed (R31, R144 (a)) -/

/-- The number has no register, or one that this hart does not have. -/
def CsrAbsent (c : Config) (n : BitVec 12) : Prop :=
  csrOfNumber n = none ∨ ∃ r, csrOfNumber n = some r ∧ csrExists c r = false

/-- The privilege is too low for the level of the number, and the access is not one from `V` = 1 to the HS level. -/
def CsrTooLow (s : State) (n : BitVec 12) : Prop :=
  (n.extractLsb' 8 2 = 0b11#2 ∧ s.priv ≠ .m) ∨ (n.extractLsb' 8 2 = 0b01#2 ∧ s.priv = .u) ∨
    (n.extractLsb' 8 2 = 0b10#2 ∧ s.virt = false ∧ s.priv = .u)

theorem csrAccess_of_absent {s : State} {n : BitVec 12} (h : CsrAbsent s.cfg n) (write : Bool) :
    s.csrAccess n write = .illegal := by
  rcases h with hn | ⟨r, hn, he⟩
  · simp [State.csrAccess, hn]
  · simp [State.csrAccess, hn, he]

/-- A number marked read-only has no register, so that a read of it is illegal too. -/
theorem csrAccess_of_readOnly {s : State} {n : BitVec 12} (h : n.extractLsb' 10 2 = 0b11#2) (write : Bool) :
    s.csrAccess n write = .illegal := by
  have mark : csrReadOnly n = true := beq_iff_eq.2 h
  cases hn : csrOfNumber n with
  | none => exact csrAccess_of_absent (.inl hn) write
  | some r => simp [csrReadOnly_of_csrOfNumber hn] at mark

theorem csrAccess_of_tooLow {s : State} {n : BitVec 12} (h : CsrTooLow s n) (write : Bool) :
    s.csrAccess n write = .illegal := by
  cases hn : csrOfNumber n with
  | none => exact csrAccess_of_absent (.inl hn) write
  | some r =>
    have hr := csrReadOnly_of_csrOfNumber hn
    rcases h with ⟨hl, hp⟩ | ⟨hl, hp⟩ | ⟨hl, hv, hp⟩
    · simp [State.csrAccess, hn, hr, csrLevel_eq_m hl, hp]
    · simp [State.csrAccess, hn, hr, csrLevel_eq_s hl, hp]
    · simp [State.csrAccess, hn, hr, csrLevel_eq_hs hl, hv, hp]

/-- With `V` = 1 an HS-level number whose register exists is virtual (log entry 34). -/
theorem csrAccess_virtual {s : State} {n : BitVec 12} {r : Csr} (hv : s.virt = true) (hl : n.extractLsb' 8 2 = 0b10#2)
    (hn : csrOfNumber n = some r) (he : csrExists s.cfg r = true) (write : Bool) : s.csrAccess n write = .virtual := by
  simp [State.csrAccess, hn, he, csrReadOnly_of_csrOfNumber hn, csrLevel_eq_hs hl, hv]

/-- A register that the hart does not have makes its number absent. -/
theorem csrAbsent_of_not_exists {c : Config} {n : BitVec 12} {r : Csr} (hn : csrOfNumber n = some r)
    (he : csrExists c r = false) : CsrAbsent c n := .inr ⟨r, hn, he⟩

/-- The `h` halves do not exist with `XLEN` = 64 (R31). -/
theorem csrAbsent_of_x64 {c : Config} {n : BitVec 12} (hx : c.xlen = .x64)
    (hn : n = 0x310#12 ∨ n = 0x31A#12 ∨ n = 0x757#12 ∨ n = 0x61A#12) : CsrAbsent c n := by
  rcases hn with rfl | rfl | rfl | rfl
  · exact csrAbsent_of_not_exists (r := .mstatush) rfl (by simp [csrExists, hx])
  · exact csrAbsent_of_not_exists (r := .menvcfgh) rfl (by simp [csrExists, hx])
  · exact csrAbsent_of_not_exists (r := .mseccfgh) rfl (by simp [csrExists, hx])
  · exact csrAbsent_of_not_exists (r := .henvcfgh) rfl (by simp [csrExists, hx])

/-- The registers of the hypervisor extension (R31). -/
theorem csrAbsent_of_no_h {c : Config} {n : BitVec 12} (hH : c.hasH = false)
    (hn : n = 0x60A#12 ∨ n = 0x61A#12 ∨ n = 0x200#12) : CsrAbsent c n := by
  rcases hn with rfl | rfl | rfl
  · exact csrAbsent_of_not_exists (r := .henvcfg) rfl hH
  · exact csrAbsent_of_not_exists (r := .henvcfgh) rfl (by simp [csrExists, hH])
  · exact csrAbsent_of_not_exists (r := .vsstatus) rfl hH

/-- `mseccfg` and `mseccfgh` exist with the extension only (log entry 27). -/
theorem csrAbsent_of_no_extension {c : Config} {n : BitVec 12} (hz : c.hasZicfisslp = false)
    (hn : n = 0x747#12 ∨ n = 0x757#12) : CsrAbsent c n := by
  rcases hn with rfl | rfl
  · exact csrAbsent_of_not_exists (r := .mseccfg) rfl hz
  · exact csrAbsent_of_not_exists (r := .mseccfgh) rfl (by simp [csrExists, hz])

theorem csrInstruction_illegal {s : State} {n : BitVec 12} {write : Bool} (h : s.csrAccess n write = .illegal) (i : Instr)
    (rd : RegIdx) (f : Word → Word) : csrInstruction i rd n write f s = raiseIllegal i s := by
  simp only [csrInstruction, h]

theorem csrInstruction_virtual {s : State} {n : BitVec 12} {write : Bool} (h : s.csrAccess n write = .virtual) (i : Instr)
    (rd : RegIdx) (f : Word → Word) : csrInstruction i rd n write f s = raiseVirtual s := by
  simp only [csrInstruction, h]

/-- Settles O36: every listed case makes the access illegal or virtual, whatever the form would write. -/
theorem csrAccessFaults : Obligations.CsrAccessFaults := by
  intro s rd rs1 uimm n i write h
  obtain ⟨f, run⟩ : ∃ f, exec i s = csrInstruction i rd n write f s := by
    rcases h with ⟨rfl, rfl⟩ | ⟨rfl, rfl⟩ | ⟨rfl, rfl⟩ | ⟨rfl, rfl⟩ | ⟨rfl, rfl⟩ | ⟨rfl, rfl⟩
    · exact ⟨_, exec_csrrw ..⟩
    · exact ⟨_, exec_csrrs ..⟩
    · exact ⟨_, exec_csrrc ..⟩
    · exact ⟨_, exec_csrrwi ..⟩
    · exact ⟨_, exec_csrrsi ..⟩
    · exact ⟨_, exec_csrrci ..⟩
  rw [run]
  refine ⟨fun fault => ?illegal, fun hv hl ⟨r, hn, he⟩ => ?virtual, fun hH => ⟨rfl, rfl, hH, hH⟩⟩
  case illegal =>
    have illegal : s.csrAccess n write = .illegal := by
      rcases fault with hn | hn | ⟨hx, hn⟩ | ⟨hS, hU, rfl⟩ | ⟨hS, rfl⟩ | ⟨hH, hn⟩ | ⟨hz, hn⟩ | ⟨-, hn⟩ | tooLow
      · exact csrAccess_of_absent (.inl hn) write
      · exact csrAccess_of_absent (.inr hn) write
      · exact csrAccess_of_absent (csrAbsent_of_x64 hx hn) write
      · exact csrAccess_of_absent (csrAbsent_of_not_exists (r := .menvcfg) rfl (by simp [csrExists, hS, hU])) write
      · exact csrAccess_of_absent (csrAbsent_of_not_exists (r := .sstatus) rfl hS) write
      · exact csrAccess_of_absent (csrAbsent_of_no_h hH hn) write
      · exact csrAccess_of_absent (csrAbsent_of_no_extension hz hn) write
      · exact csrAccess_of_readOnly hn write
      · exact csrAccess_of_tooLow tooLow write
    rw [csrInstruction_illegal illegal]
    exact raiseIllegal_frame i s
  case virtual =>
    rw [csrInstruction_virtual (csrAccess_virtual hv hl hn he write)]
    exact raiseFree_frame (e := .virtualInstruction) rfl s

end Sys2Proof.Machine
end

section
/-! PROOFS. What a CSR write is read back as, and what it leaves every other CSR reading: `HostRegistersReadWrite`
(spec/10_state.md R31, R32; spec/43_host_subset.md R144 (c)). -/

namespace Sys2Proof.Machine

/-! ### `mip` (log entry 19) -/

/-- The set bits of a word, when they are told apart below 64. -/
theorem getLsbD_iff_of_lt {w : Word} {P : Nat → Prop} (h : ∀ p < 64, (w.getLsbD p = true ↔ P p)) (hP : ∀ p, P p → p < 64)
    (p : Nat) : w.getLsbD p = true ↔ P p :=
  ⟨fun hw => (h p (BitVec.lt_of_getLsbD hw)).1 hw, fun hp => (h p (hP p hp)).2 hp⟩

theorem ite_zero_getLsbD (b : Bool) (w : Word) (p : Nat) :
    (if b = true then w else 0#64).getLsbD p = (b && w.getLsbD p) := by cases b <;> simp

/-- The bits that software writes. -/
theorem mipWritable_getLsbD (c : Config) (p : Nat) : (mipWritable c).getLsbD p = true ↔
    (c.hasS = true ∧ (p = 1 ∨ p = 5 ∨ p = 9)) ∨ (c.hasH = true ∧ p = 2) := by
  have sBits : (0x222#64).getLsbD p = true ↔ p = 1 ∨ p = 5 ∨ p = 9 :=
    getLsbD_iff_of_lt (P := fun p => p = 1 ∨ p = 5 ∨ p = 9) (by decide) (by omega) p
  have hBit : (0x004#64).getLsbD p = true ↔ p = 2 := getLsbD_iff_of_lt (P := (· = 2)) (by decide) (by omega) p
  rw [mipWritable, BitVec.getLsbD_or, ite_zero_getLsbD, ite_zero_getLsbD, Bool.or_eq_true, Bool.and_eq_true,
    Bool.and_eq_true, sBits, hBit]

theorem mergeMasked_getLsbD (mask old v : Word) (p : Nat) :
    (mergeMasked mask old v).getLsbD p = if mask.getLsbD p = true then v.getLsbD p else old.getLsbD p := by
  by_cases hp : p < 64
  · simp only [mergeMasked, BitVec.getLsbD_or, BitVec.getLsbD_and, BitVec.getLsbD_not, hp]
    cases mask.getLsbD p <;> simp
  · simp [BitVec.getLsbD_of_ge _ p (Nat.le_of_not_lt hp)]

theorem readCsr_writeCsr_mip {s : State} {v : Word} (hv : s.cfg.xlen.wrap v = v) (p : Nat) :
    ((s.writeCsr .mip v).readCsr .mip).getLsbD p =
      if (s.cfg.hasS = true ∧ (p = 1 ∨ p = 5 ∨ p = 9)) ∨ (s.cfg.hasH = true ∧ p = 2) then v.getLsbD p
      else (s.readCsr .mip).getLsbD p := by
  have merged : (s.writeCsr .mip v).readCsr .mip = mergeMasked (mipWritable s.cfg) s.mip (s.cfg.xlen.wrap v) := rfl
  rw [merged, hv, mergeMasked_getLsbD]
  exact if_congr (mipWritable_getLsbD ..) rfl rfl

/-! ### The other host registers -/

/-- The registers that a write replaces whole (log entry 37). -/
theorem readCsr_writeCsr_whole {s : State} {r : Csr} {v : Word} (hv : s.cfg.xlen.wrap v = v)
    (hr : r ∈ [Csr.mcause, .mtval, .scause, .stval, .vscause, .vstval, .mideleg, .hideleg, .mie]) :
    (s.writeCsr r v).readCsr r = v := by
  simp only [List.mem_cons, List.not_mem_nil, or_false] at hr
  rcases hr with rfl | rfl | rfl | rfl | rfl | rfl | rfl | rfl | rfl <;> exact hv

/-- An `xepc` is read without its low bits (log entry 15). -/
theorem readCsr_writeCsr_epc {s : State} {r : Csr} {v : Word} (hv : s.cfg.xlen.wrap v = v)
    (hr : r ∈ [Csr.mepc, .sepc, .vsepc]) :
    (s.writeCsr r v).readCsr r = if s.cfg.hasC = true then v &&& ~~~(1#64) else v &&& ~~~(3#64) := by
  have view : epcView s.cfg (s.cfg.xlen.wrap v) = _ := epcView_eq ..
  rw [hv] at view
  rw [← view, ← congrArg (epcView s.cfg) hv]
  simp only [List.mem_cons, List.not_mem_nil, or_false] at hr
  rcases hr with rfl | rfl | rfl <;> rfl

/-- An `xtvec` is held without bit 1 (log entry 14). -/
theorem readCsr_writeCsr_tvec {s : State} {r : Csr} {v : Word} (hv : s.cfg.xlen.wrap v = v)
    (hr : r ∈ [Csr.mtvec, .stvec, .vstvec]) : (s.writeCsr r v).readCsr r = v &&& ~~~(2#64) := by
  have legal : tvecLegal (s.cfg.xlen.wrap v) = v &&& ~~~(2#64) := congrArg tvecLegal hv
  simp only [List.mem_cons, List.not_mem_nil, or_false] at hr
  rcases hr with rfl | rfl | rfl <;> exact legal

/-! ### The part of the state behind a CSR -/

/-- The part of the state that the CSR shows is the same. -/
def SameHeld (s t : State) : Csr → Prop
  | .mstatus | .mstatush | .sstatus => t.mstatus = s.mstatus
  | .menvcfg | .menvcfgh => t.menvcfg = s.menvcfg
  | .mseccfg | .mseccfgh => t.mfcfie = s.mfcfie
  | .henvcfg | .henvcfgh => t.henvcfg = s.henvcfg
  | .vsstatus => t.vsstatus = s.vsstatus
  | .hstatus => t.hstatus = s.hstatus
  | .mtvec => t.mtrap.tvec = s.mtrap.tvec
  | .mepc => t.mtrap.epc = s.mtrap.epc
  | .mcause => t.mtrap.cause = s.mtrap.cause
  | .mtval => t.mtrap.tval = s.mtrap.tval
  | .stvec => t.strap.tvec = s.strap.tvec
  | .sepc => t.strap.epc = s.strap.epc
  | .scause => t.strap.cause = s.strap.cause
  | .stval => t.strap.tval = s.strap.tval
  | .vstvec => t.vstrap.tvec = s.vstrap.tvec
  | .vsepc => t.vstrap.epc = s.vstrap.epc
  | .vscause => t.vstrap.cause = s.vstrap.cause
  | .vstval => t.vstrap.tval = s.vstrap.tval
  | .medeleg => t.medeleg = s.medeleg
  | .mideleg => t.mideleg = s.mideleg
  | .hedeleg => t.hedeleg = s.hedeleg
  | .hideleg => t.hideleg = s.hideleg
  | .mie => t.mie = s.mie
  | .mip => t.mip = s.mip

/-- A read looks at the parameters and at the part of the state behind its CSR, and at nothing else. -/
theorem readCsr_congr {s t : State} {q : Csr} (hc : t.cfg = s.cfg) (h : SameHeld s t q) : t.readCsr q = s.readCsr q := by
  cases q <;> simp only [SameHeld] at h <;>
    simp only [State.readCsr, State.menvcfgWord, State.henvcfgWord, State.mseccfgWord, hc, h]

/-- A write of `mstatus` leaves every part of the state but `mstatus`. -/
theorem sameHeld_putMstatus (s : State) (w : Word) {q : Csr} (h : csrHome q ≠ .mstatus) :
    SameHeld s (s.putMstatus w) q := by
  obtain ⟨p, n, hput⟩ := putMstatus_eq s w
  rw [hput]
  cases q
  case mstatus | mstatush | sstatus => exact absurd rfl h
  all_goals rfl

/-- A write changes the part of the state behind its CSR, and no part behind a CSR with another home. -/
theorem sameHeld_writeCsr (s : State) (v : Word) {r q : Csr} (h : csrHome q ≠ csrHome r) :
    SameHeld s (s.writeCsr r v) q := by
  cases r
  case mstatus | mstatush => exact sameHeld_putMstatus s _ h
  all_goals cases q <;> first | exact absurd rfl h | rfl

/-- Settles O41: each register by how its write is masked, and the frame by the part of the state behind each CSR. -/
theorem hostRegistersReadWrite : Obligations.HostRegistersReadWrite := by
  refine fun s r q v hv => ⟨readCsr_writeCsr_whole hv, readCsr_writeCsr_epc hv, readCsr_writeCsr_tvec hv, ?medeleg,
    ?hedeleg, readCsr_writeCsr_mip hv, fun h => readCsr_congr (writeCsr_cfg s r v) (sameHeld_writeCsr s v h)⟩
  case medeleg => exact congrArg (· &&& medelegMask) hv
  case hedeleg => exact congrArg (· &&& hedelegMask) hv

end Sys2Proof.Machine
end

section
/-! PROOFS. What every trap saves, and the mode an exception is taken into: `TrapSavesElp`, `TrapTargets`
(spec/60_exceptions.md R153, R159). -/

namespace Sys2Proof.Machine

/-! ### The `xPELP` bits (R153) -/

/-- Trap delivery leaves the `xPELP` bits of the other modes. -/
theorem savedElp_takeTrap_of_ne (s : State) {x y : TrapTarget} (h : y ≠ x) (i : Bool) (c : BitVec 6) (tv : Word) :
    savedElp (s.takeTrap x i c tv) y = savedElp s y := by
  cases x <;> cases y
  case m.m | hs.hs | vs.vs => exact absurd rfl h
  all_goals rfl

/-- Settles O29, from what trap delivery does to `ELP` and to each `xPELP`. -/
theorem trapSavesElp : Obligations.TrapSavesElp := fun s x i c tv =>
  ⟨savedElp_takeTrap s x i c tv, takeTrap_elp s x i c tv, fun _ hy => savedElp_takeTrap_of_ne s hy i c tv⟩

/-! ### The mode the host decides on (R159, log entry 16) -/

theorem delegatedTarget_eq (c : BitVec 6) (deleg hdeleg : Word) (hasS vs : Bool) :
    delegatedTarget c deleg hdeleg hasS vs =
      if hasS = true ∧ deleg.getLsbD c.toNat = true then
        if vs = true ∧ hdeleg.getLsbD c.toNat = true then .vs else .hs
      else .m := by
  simp only [delegatedTarget, Bool.and_eq_true]

/-- The rows before the first that matches do not count. -/
theorem routeTarget_append {c : BitVec 6} {p : Priv} {v : Bool} (after : List TrapRoute) :
    ∀ {before : List TrapRoute}, (∀ q ∈ before, ¬(q.cause = c ∧ q.priv = p ∧ q.virt = v)) →
      routeTarget c p v (before ++ after) = routeTarget c p v after
  | [], _ => rfl
  | r :: _, h =>
    (if_neg (h r List.mem_cons_self)).trans (routeTarget_append after fun q hq => h q (List.mem_cons_of_mem r hq))

theorem routeTarget_cons_match (c : BitVec 6) (p : Priv) (v : Bool) (x : TrapTarget) (after : List TrapRoute) :
    routeTarget c p v ({ cause := c, priv := p, virt := v, target := x } :: after) = x :=
  if_pos ⟨rfl, rfl, rfl⟩

/-- Without a row that matches it is M. -/
theorem routeTarget_of_no_match {c : BitVec 6} {p : Priv} {v : Bool} {rows : List TrapRoute}
    (h : ∀ q ∈ rows, ¬(q.cause = c ∧ q.priv = p ∧ q.virt = v)) : routeTarget c p v rows = .m := by
  have rest := routeTarget_append [] h
  rw [List.append_nil] at rest
  exact rest

section Host

variable {s : State} {c : BitVec 6}

theorem hostTarget_of_delegation (h : s.cfg.trapTarget = .delegation) :
    s.hostTarget c = delegatedTarget c s.medeleg s.hedeleg s.cfg.hasS (s.cfg.hasH && s.virt) := by
  simp only [State.hostTarget, h]

theorem hostTarget_of_table {rows : List TrapRoute} (h : s.cfg.trapTarget = .table rows) :
    s.hostTarget c = routeTarget c s.priv s.virt rows := by
  simp only [State.hostTarget, h]

/-! ### The mode the exception is taken into (R159) -/

theorem exceptionTarget_of_hostTarget {x : TrapTarget} (h : s.hostTarget c = x) :
    s.exceptionTarget c = if s.admitsTarget x = true then x else .m := by
  subst h; rfl

/-- From M every exception is taken into M. -/
theorem exceptionTarget_of_priv_m (h : s.priv = .m) : s.exceptionTarget c = .m := by
  rcases admitsTarget_cases (exceptionTarget_admitted s c) with hm | ⟨-, -, hp⟩ | ⟨-, -, -, hp⟩
  · exact hm
  · exact absurd h hp
  · exact absurd h hp

/-- HS takes an exception only where it exists. -/
theorem hasS_of_exceptionTarget (h : s.exceptionTarget c = .hs) : s.cfg.hasS = true := by
  have admitted := exceptionTarget_admitted s c
  rw [h] at admitted
  simp only [State.admitsTarget, Bool.and_eq_true] at admitted
  exact admitted.1

/-- VS takes an exception only where it exists, and only from `V` = 1. -/
theorem hasH_of_exceptionTarget (h : s.exceptionTarget c = .vs) : s.cfg.hasH = true ∧ s.virt = true := by
  have admitted := exceptionTarget_admitted s c
  rw [h] at admitted
  simp only [State.admitsTarget, Bool.and_eq_true] at admitted
  exact admitted.1

/-- Below M, the mode that the delegation registers name can take the exception. -/
theorem admitsTarget_delegatedTarget (hp : s.priv ≠ .m) (deleg hdeleg : Word) :
    s.admitsTarget (delegatedTarget c deleg hdeleg s.cfg.hasS (s.cfg.hasH && s.virt)) = true := by
  rw [delegatedTarget_eq]
  split
  · rename_i hs
    split
    · rename_i hv
      simpa [State.admitsTarget, hp] using hv.1
    · simpa [State.admitsTarget, hp] using hs.1
  · rfl

end Host

/-- Settles O31: the host's choice by each kind of `HostTrapTarget`, and what a mode that takes an exception admits. -/
theorem trapTargets : Obligations.TrapTargets := by
  intro s c
  refine ⟨fun hd => ?delegation, fun before after x hl hb => ?row, fun rows hl hn => ?noRow, exceptionTarget_of_priv_m,
    hasS_of_exceptionTarget, hasH_of_exceptionTarget⟩
  case delegation =>
    by_cases hp : s.priv = .m
    · rw [exceptionTarget_of_priv_m hp, if_neg fun h => h.1 hp]
    · rw [exceptionTarget_of_hostTarget (hostTarget_of_delegation hd), if_pos (admitsTarget_delegatedTarget hp ..),
        delegatedTarget_eq]
      simp only [ne_eq, hp, not_false_eq_true, true_and, Bool.and_eq_true, and_assoc]
  case row =>
    have host : s.hostTarget c = x := by
      rw [hostTarget_of_table hl, routeTarget_append _ hb, routeTarget_cons_match]
    rw [exceptionTarget_of_hostTarget host]
    cases x with
    | m => rfl
    | hs | vs => simp [State.admitsTarget, and_assoc]
  case noRow =>
    rw [exceptionTarget_of_hostTarget ((hostTarget_of_table hl).trans (routeTarget_of_no_match hn))]
    rfl

end Sys2Proof.Machine
end

section
/-! PROOFS. The exceptions of a data access: `DataAccessExceptions` (spec/20_memory.md R44; spec/43_host_subset.md R126, R127). -/

namespace Sys2Proof.Machine

section Access

variable {s : State} {rs1 : RegIdx} {imm : BitVec 12}

theorem dataMisaligned_of_trap {a : Word} (ht : s.cfg.misalignedData = .trap) (ha : a.extractLsb' 0 2 ≠ 0b00#2) :
    s.dataMisaligned a = true := by
  simp [State.dataMisaligned, isWordAligned, ht, ha]

/-! ### A misaligned access that traps (R44) -/

theorem exec_lw_of_misaligned (h : s.dataMisaligned (s.regPlusImm rs1 imm) = true) (rd : RegIdx) :
    exec (.lw rd rs1 imm) s = raise .loadAddressMisaligned (s.regPlusImm rs1 imm) s := if_pos h

theorem exec_sw_of_misaligned (h : s.dataMisaligned (s.regPlusImm rs1 imm) = true) (rs2 : RegIdx) :
    exec (.sw rs2 rs1 imm) s = raise .storeAddressMisaligned (s.regPlusImm rs1 imm) s := if_pos h

/-! ### An access that the host's memory refuses (R126, R127) -/

theorem exec_lw_of_refused {e : DataException} (ha : s.dataMisaligned (s.regPlusImm rs1 imm) = false)
    (he : s.answer.data = some e) (rd : RegIdx) : exec (.lw rd rs1 imm) s = raiseFree (loadException e) s := by
  simp [exec, execLw, ha, he]

theorem exec_sw_of_refused {e : DataException} (ha : s.dataMisaligned (s.regPlusImm rs1 imm) = false)
    (he : s.answer.data = some e) (rs2 : RegIdx) : exec (.sw rs2 rs1 imm) s = raiseFree (storeException e) s := by
  simp [exec, execSw, ha, he]

end Access

/-! ### What both kinds of exception record and leave alone -/

/-- An exception with code `c`, raised with a stated trap value or with a free one. -/
def Raises (r : Result) (c : BitVec 6) (s : State) : Prop :=
  ∃ e, exceptionCode e = c ∧ ((∃ tv, r = raise e tv s) ∨ r = raiseFree e s)

theorem raises_frame {r : Result} {c : BitVec 6} {s : State} (h : Raises r c s) :
    ∃ t, r = .next t ∧ TrapFrom s t ∧ (trapCsrsOf t (s.exceptionTarget c)).cause = c.setWidth 64 ∧
      (trapCsrsOf t (s.exceptionTarget c)).epc = s.pc ∧ SameRegs s t ∧ (∀ a, t.mem.read a = s.mem.read a) ∧
      t.staleStores = s.staleStores := by
  obtain ⟨e, he, ⟨tv, rfl⟩ | rfl⟩ := h
  · obtain ⟨t, ht, trap, cause, epc, regs, memory⟩ := raise_frame he tv s
    exact ⟨t, ht, trap, cause, epc, regs, memory.bytes, memory.stale⟩
  · obtain ⟨trap, cause, epc, regs, bytes⟩ :=
      takeTrap_exception_frame s (s.exceptionTarget c) c s.freeValue (s.draws + 1)
    exact ⟨_, raiseFree_code he s, trap, cause, epc, regs, bytes, by rw [withDraws_staleStores, takeTrap_staleStores]⟩

/-- Settles O20: each case of an access is one `raise` or `raiseFree`, of the exception with the stated code. -/
theorem dataAccessExceptions : Obligations.DataAccessExceptions := by
  intro s r rs1 imm i c h
  apply raises_frame
  rcases h with ⟨ht, ha, hi⟩ | ⟨ha, he, hi⟩ | ⟨ha, he, hi⟩
  · have mis := dataMisaligned_of_trap ht ha
    rcases hi with ⟨rfl, rfl⟩ | ⟨rfl, rfl⟩
    · exact ⟨.loadAddressMisaligned, rfl, .inl ⟨_, exec_lw_of_misaligned mis r⟩⟩
    · exact ⟨.storeAddressMisaligned, rfl, .inl ⟨_, exec_sw_of_misaligned mis r⟩⟩
  · rcases hi with ⟨rfl, rfl⟩ | ⟨rfl, rfl⟩
    · exact ⟨.loadAccessFault, rfl, .inr (exec_lw_of_refused ha he r)⟩
    · exact ⟨.storeAccessFault, rfl, .inr (exec_sw_of_refused ha he r)⟩
  · rcases hi with ⟨rfl, rfl⟩ | ⟨rfl, rfl⟩
    · exact ⟨.loadPageFault, rfl, .inr (exec_lw_of_refused ha he r)⟩
    · exact ⟨.storePageFault, rfl, .inr (exec_sw_of_refused ha he r)⟩

end Sys2Proof.Machine
end

section
/-! PROOFS. The traps that come before an instruction: `InterruptFirst`, `FetchExceptionBeforeRequirement`
(spec/60_exceptions.md R155, R157, R159; spec/20_memory.md R47). -/

namespace Sys2Proof.Machine

/-! ### The state after a step that takes a trap (R153, R154) -/

/-- What a step that takes a trap saves, and what it leaves alone. -/
theorem takeTrap_step_frame (s : State) (x : TrapTarget) (i : Bool) (c : BitVec 6) (tv : Word) (n : Nat) {t : State}
    (ht : t = ((s.takeTrap x i c tv).withDraws n).nextAnswer) :
    TrapStep s t ∧ trapCsrsOf t x = recordTrap s (trapCsrsOf s x) i c tv ∧ savedElp t x = s.elp ∧
      t.elp = .noLpExpected ∧ SameRegs s t ∧ (∀ a, t.mem.read a = s.mem.read a) ∧ t.staleStores = s.staleStores := by
  subst ht
  refine ⟨trapStep_takeTrap s x i c tv n, ?csrs, ?saved, ?elp, fun r => ?regs, fun a => ?bytes, ?stale⟩
  case csrs => rw [trapCsrsOf_nextAnswer, trapCsrsOf_withDraws, trapCsrsOf_takeTrap]
  case saved => rw [savedElp_nextAnswer, savedElp_withDraws, savedElp_takeTrap]
  case elp => rw [nextAnswer_elp, withDraws_elp, takeTrap_elp]
  case regs => rw [readReg_nextAnswer, readReg_withDraws, readReg_takeTrap]
  case bytes => rw [nextAnswer_mem, withDraws_mem, takeTrap_mem]
  case stale => rw [nextAnswer_staleStores, withDraws_staleStores, takeTrap_staleStores]

/-- A trap draws no free value itself. -/
theorem takeTrap_withDraws_self (s : State) (x : TrapTarget) (i : Bool) (c : BitVec 6) (tv : Word) :
    (s.takeTrap x i c tv).withDraws s.draws = s.takeTrap x i c tv := by cases x <;> rfl

/-! ### A fetch exception (R47, R155 step 2) -/

/-- The fetch exception ends the step before what was fetched is looked at. -/
theorem step_of_fetchException {s : State} {e : FetchException} (hi : s.takenInterrupt = none)
    (he : s.answer.fetch = some e) : step s = .next (s.exceptFree (fetchExceptionOf e)).nextAnswer := by
  have fetch : s.fetch = .error e := by simp only [State.fetch, he]
  simp only [step, stepAnswered, hi, fetch, raiseFree, mapNext]

/-- Settles O45: the step is the fetch exception's trap, by its code. -/
theorem fetchExceptionBeforeRequirement : Obligations.FetchExceptionBeforeRequirement := by
  intro s e c hi he hc
  have code : exceptionCode (fetchExceptionOf e) = c := by
    rcases hc with ⟨rfl, rfl⟩ | ⟨rfl, rfl⟩ | ⟨rfl, rfl⟩ | ⟨rfl, rfl⟩ <;> rfl
  have run := step_of_fetchException hi he
  rw [exceptFree_eq, code] at run
  obtain ⟨trap, csrs, saved⟩ :=
    takeTrap_step_frame s (s.exceptionTarget c) false c s.freeValue (s.draws + 1) rfl
  refine ⟨_, run, ⟨s.freeValue, s.draws + 1, rfl⟩, trap, ?cause, ?epc, saved⟩
  case cause => rw [csrs]; exact causeWord_exception s.cfg.xlen c
  case epc => rw [csrs]; rfl

/-! ### When an announced interrupt is taken (R157, R159, log entry 18) -/

section Interrupt

variable {s : State} {a : Announcement}

theorem takenInterrupt_of_none (h : s.answer.interrupt = none) : s.takenInterrupt = none := by
  simp only [State.takenInterrupt, h]

theorem takenInterrupt_of_some (h : s.answer.interrupt = some a) :
    s.takenInterrupt =
      if s.mip.getLsbD a.cause.toNat && s.mie.getLsbD a.cause.toNat && s.routesInterrupt a && s.admitsTarget a.target &&
        s.globallyEnabled a.target then some a
      else none := by
  simp only [State.takenInterrupt, h]

/-- An announcement is taken as it stands or not at all. -/
theorem takenInterrupt_none_or_some (h : s.answer.interrupt = some a) :
    s.takenInterrupt = none ∨ s.takenInterrupt = some a := by
  rw [takenInterrupt_of_some h]
  split
  · exact .inr rfl
  · exact .inl rfl

theorem takenInterrupt_eq_some_iff (h : s.answer.interrupt = some a) :
    s.takenInterrupt = some a ↔ s.mip.getLsbD a.cause.toNat = true ∧ s.mie.getLsbD a.cause.toNat = true ∧
      s.routesInterrupt a = true ∧ s.admitsTarget a.target = true ∧ s.globallyEnabled a.target = true := by
  rw [takenInterrupt_of_some h]
  simp [and_assoc]

theorem routesInterrupt_iff (s : State) (a : Announcement) :
    s.routesInterrupt a = true ↔ (s.cfg.trapTarget = .delegation →
      a.target = delegatedTarget a.cause s.mideleg s.hideleg s.cfg.hasS s.cfg.hasH) := by
  unfold State.routesInterrupt
  cases s.cfg.trapTarget with
  | delegation => simp
  | table rows => simp

/-- A mode exists, and an interrupt for it is enabled: a mode more privileged than the present one always, the present mode by
its own enable, a less privileged one never. -/
def State.OpenToInterrupt (s : State) : TrapTarget → Prop
  | .m => s.priv ≠ .m ∨ s.mstatus.mie = true
  | .hs => s.cfg.hasS = true ∧ (s.priv = .u ∨ (s.priv = .s ∧ (s.virt = true ∨ s.mstatus.sie = true)))
  | .vs => s.cfg.hasH = true ∧ s.virt = true ∧ (s.priv = .u ∨ (s.priv = .s ∧ s.vsstatus.sie = true))

theorem openToInterrupt_iff (s : State) (x : TrapTarget) :
    s.admitsTarget x = true ∧ s.globallyEnabled x = true ↔ s.OpenToInterrupt x := by
  cases x with
  | m => simp [State.admitsTarget, State.globallyEnabled, State.OpenToInterrupt]
  | hs => cases hp : s.priv <;> simp [State.admitsTarget, State.globallyEnabled, State.OpenToInterrupt, hp]
  | vs => cases hp : s.priv <;> simp [State.admitsTarget, State.globallyEnabled, State.OpenToInterrupt, hp, and_assoc]

/-! ### The step that takes it (R155 step 1) -/

theorem step_of_takenInterrupt (h : s.takenInterrupt = some a) :
    step s = .next (s.takeTrap a.target true a.cause 0#64).nextAnswer := by
  simp only [step, stepAnswered, h, mapNext]

end Interrupt

/-- Settles O44: the model's test for a taken interrupt, part by part, and the trap that the step then is. -/
theorem interruptFirst : Obligations.InterruptFirst := by
  refine fun s a => ⟨takenInterrupt_of_none, takenInterrupt_none_or_some, fun h => ?taken, fun h => ?trap⟩
  case taken =>
    rw [takenInterrupt_eq_some_iff h, routesInterrupt_iff, delegatedTarget_eq, openToInterrupt_iff]
    rfl
  case trap =>
    obtain ⟨trap, csrs, saved⟩ := takeTrap_step_frame s a.target true a.cause 0#64 s.draws rfl
    rw [takeTrap_withDraws_self] at trap csrs saved
    refine ⟨_, step_of_takenInterrupt h, rfl, trap, ?epc, ?tval, ?cause, ?priv, ?virt, ?pc, ?mstatus, ?hstatus, ?vsstatus,
      saved⟩
    case epc => rw [csrs]; rfl
    case tval => rw [csrs]; exact Xlen.wrap_zero s.cfg.xlen
    case cause => rw [csrs]; exact causeWord_toNat s.cfg.xlen true a.cause
    case priv => rw [nextAnswer_priv, takeTrap_priv]; cases a.target <;> rfl
    case virt => rw [nextAnswer_virt, takeTrap_virt]; cases a.target <;> simp
    case pc => rw [nextAnswer_pc, takeTrap_pc]
    case mstatus => intro hm; rw [hm]; rfl
    case hstatus => intro hs; rw [hs]; exact ⟨rfl, rfl⟩
    case vsstatus => intro hv; rw [hv]; rfl

end Sys2Proof.Machine
end

section
/-! PROOFS. The decoder and the encoder are inverse to each other: `DecodeOfEncode`, `EncodeOfDecodeWord`, `DecodeBytesOfEncode`,
`AccidentalLandingPad`, `WrittenOutWords` (spec/20_memory.md R41; spec/30_encoding.md R60 to R69). -/

namespace Sys2Proof

/-! ### Rows of opcode 1110011 (R67) -/

/-- The five rows that fix the whole word have opcode 1110011 and `funct3` 000. -/
theorem ne_fixedWords {w : BitVec 32} (h : opcodeOf w = 0b1110011#7 → funct3Of w ≠ 0b000#3) :
    w ≠ 0x00000073#32 ∧ w ≠ 0x00100073#32 ∧ w ≠ 0x10200073#32 ∧ w ≠ 0x30200073#32 ∧ w ≠ 0x10500073#32 := by
  refine ⟨?ecall, ?ebreak, ?sret, ?mret, ?wfi⟩ <;>
  · rintro rfl
    exact h rfl rfl

/-- With a nonzero `funct3` a word of the system opcode is none of the five fixed words: `funct3` alone decides. -/
theorem decodeWord_csr {w : BitVec 32} (ho : opcodeOf w = 0b1110011#7) (h3 : funct3Of w ≠ 0b000#3) :
    decodeWord w =
      if funct3Of w = 0b001#3 then .ok (.csrrw (rdOf w) (rs1Of w) (iImmOf w))
      else if funct3Of w = 0b010#3 then .ok (.csrrs (rdOf w) (rs1Of w) (iImmOf w))
      else if funct3Of w = 0b011#3 then .ok (.csrrc (rdOf w) (rs1Of w) (iImmOf w))
      else if funct3Of w = 0b101#3 then .ok (.csrrwi (rdOf w) (uimmOf w) (iImmOf w))
      else if funct3Of w = 0b110#3 then .ok (.csrrsi (rdOf w) (uimmOf w) (iImmOf w))
      else if funct3Of w = 0b111#3 then .ok (.csrrci (rdOf w) (uimmOf w) (iImmOf w))
      else .error .noSuchWord := by
  simp [decodeWord, ho, ne_fixedWords fun _ => h3]

/-! ### The fields of a 16-bit word (R62) -/

theorem crType_fields {h : BitVec 16} {f4 : BitVec 4} (h0 : h.extractLsb' 0 2 = 0b10#2) (h2 : h.extractLsb' 2 5 = 0b00000#5)
    (h12 : h.extractLsb' 12 4 = f4) : crType f4 (regBits (cRs1Of h)) = h := by
  have rs1 : regBits (cRs1Of h) = h.extractLsb' 7 5 := rfl
  rw [crType, rs1, ← h0, ← h2, ← h12, BitVec.extractLsb'_append_extractLsb'_eq_extractLsb' (by rfl),
    BitVec.extractLsb'_append_extractLsb'_eq_extractLsb' (by rfl),
    BitVec.extractLsb'_append_extractLsb'_eq_extractLsb' (by rfl)]
  exact BitVec.extractLsb'_eq_self

theorem getLsbD_crType (f4 : BitVec 4) (rs1 : BitVec 5) (i : Nat) (h : i < 16) :
    (crType f4 rs1).getLsbD i =
      if i < 2 then (0b10#2).getLsbD i else if i < 7 then false else if i < 12 then rs1.getLsbD (i - 7)
      else f4.getLsbD (i - 12) := by
  show BitVec.getLsbD (w := 4 + 5 + 5 + 2) (f4 ++ rs1 ++ 0b00000#5 ++ 0b10#2) i = _
  simp only [BitVec.getLsbD_append]
  interval_cases i <;> rfl

theorem fields_crType (f4 : BitVec 4) (rs1 : BitVec 5) :
    (crType f4 rs1).extractLsb' 0 2 = 0b10#2 ∧ (crType f4 rs1).extractLsb' 2 5 = 0b00000#5 ∧
      (crType f4 rs1).extractLsb' 12 4 = f4 ∧ (crType f4 rs1).extractLsb' 7 5 = rs1 := by
  refine ⟨?op, ?rs2, ?funct4, ?rs1⟩ <;>
  · apply BitVec.eq_of_getLsbD_eq
    intro i hi
    rw [BitVec.getLsbD_extractLsb', getLsbD_crType f4 rs1 _ (by omega)]
    interval_cases i <;> rfl

theorem cRs1Of_crType (f4 : BitVec 4) (rs1 : RegIdx) : cRs1Of (crType f4 (regBits rs1)) = rs1 := by
  obtain ⟨-, -, -, hrs1⟩ := fields_crType f4 (regBits rs1)
  rw [cRs1Of, hrs1, regBits_toFin]

/-! ### Decoding what was encoded -/

/-- Decoding the encoding of a well-formed instruction gives it back: each field of its format is read back, and the opcode
and `funct3` choose the row. -/
theorem decode_encode {i : Instr} (h : i.wf = true) : decode (encode i) = .ok i := by
  cases i with
  | lpad lpl => exact decodeWord_uType_lpad lpl
  | auipc rd imm =>
    have hrd : rd ≠ 0 := by simpa [Instr.wf] using h
    exact (Machine.decodeWord_uType_auipc imm rd).trans (by rw [if_neg hrd])
  | lui rd imm => simp [decode, encode, decodeWord, opcodeOf_uType, rdOf_uType, uImmOf_uType]
  | jal rd off =>
    have even : off.getLsbD 0 = false := by simpa [Instr.wf] using h
    simp [decode, encode, decodeWord, opcodeOf_jType, rdOf_jType, jImmOf_jType _ _ _ even]
  | beq _ _ off | bne _ _ off | bltu _ _ off | bgeu _ _ off =>
    have even : off.getLsbD 0 = false := by simpa [Instr.wf] using h
    simp [decode, encode, decodeWord, opcodeOf_bType, funct3Of_bType, rs1Of_bType, rs2Of_bType, bImmOf_bType _ _ _ _ _ even]
  | sw =>
    simp [decode, encode, decodeWord, opcodeOf_sType, funct3Of_sType, rs1Of_sType, rs2Of_sType, sImmOf_sType]
  | jalr | lw | addi | fenceI =>
    simp [decode, encode, decodeWord, opcodeOf_iType, funct3Of_iType, rdOf_iType, rs1Of_iType, iImmOf_iType]
  | slli =>
    simp [decode, encode, decodeWord, opcodeOf_iType, funct3Of_iType, rdOf_iType, rs1Of_iType, funct6Of_iType, shamtOf_iType]
  | add =>
    simp [decode, encode, decodeWord, opcodeOf_rType, funct3Of_rType, funct7Of_rType, rdOf_rType, rs1Of_rType, rs2Of_rType]
  | fence fm pred succ =>
    simp [decode, encode, decodeWord, opcodeOf_iType, funct3Of_iType, rdOf_iType, rs1Of_iType, fenceSets_iType]
  | ecall | ebreak | sret | mret | wfi => rfl
  | csrrw | csrrs | csrrc =>
    rw [encode, decode, decodeWord_csr (opcodeOf_iType ..) (by rw [funct3Of_iType]; decide)]
    simp [funct3Of_iType, rdOf_iType, rs1Of_iType, iImmOf_iType]
  | csrrwi | csrrsi | csrrci =>
    rw [encode, decode, decodeWord_csr (opcodeOf_iType ..) (by rw [funct3Of_iType]; decide)]
    simp [funct3Of_iType, rdOf_iType, uimmOf_iType, iImmOf_iType]
  | cJr rs1 | cJalr rs1 =>
    have hrs1 : rs1 ≠ 0 := by simpa [Instr.wf] using h
    simp [decode, encode, decodeHalf, fields_crType, cRs1Of_crType, hrs1]

/-- Settles O1, format by format. -/
theorem decodeOfEncode : Obligations.DecodeOfEncode := fun _ => decode_encode

/-! ### Encoding what was decoded -/

section Formats

variable {w : BitVec 32} {op : BitVec 7} {f3 : BitVec 3} (ho : opcodeOf w = op)

include ho

theorem uType_of_fields : uType (uImmOf w) (regBits (rdOf w)) op = w := ho ▸ uType_fields w

theorem jType_of_fields : jType (jImmOf w) (regBits (rdOf w)) op = w := ho ▸ jType_fields w

theorem iType_of_fields (h3 : funct3Of w = f3) : iType (iImmOf w) (regBits (rs1Of w)) f3 (regBits (rdOf w)) op = w :=
  ho ▸ h3 ▸ iType_fields w

theorem sType_of_fields (h3 : funct3Of w = f3) : sType (sImmOf w) (regBits (rs2Of w)) (regBits (rs1Of w)) f3 op = w :=
  ho ▸ h3 ▸ sType_fields w

theorem bType_of_fields (h3 : funct3Of w = f3) : bType (bImmOf w) (regBits (rs2Of w)) (regBits (rs1Of w)) f3 op = w :=
  ho ▸ h3 ▸ bType_fields w

theorem rType_of_fields {f7 : BitVec 7} (h3 : funct3Of w = f3) (h7 : funct7Of w = f7) :
    rType f7 (regBits (rs2Of w)) (regBits (rs1Of w)) f3 (regBits (rdOf w)) op = w :=
  ho ▸ h3 ▸ h7 ▸ rType_fields w

end Formats

/-- The I-type immediate of `slli` is its fixed bits and the shift amount (R125). -/
theorem funct6_append_shamt (w : BitVec 32) : funct6Of w ++ shamtOf w = iImmOf w :=
  BitVec.extractLsb'_append_extractLsb'_eq_extractLsb' rfl

/-- The I-type immediate of `fence` is its three sets (R132). -/
theorem fenceSets_append (w : BitVec 32) :
    w.extractLsb' 28 4 ++ w.extractLsb' 24 4 ++ w.extractLsb' 20 4 = iImmOf w := by
  rw [BitVec.extractLsb'_append_extractLsb'_eq_extractLsb' (by rfl)]
  exact BitVec.extractLsb'_append_extractLsb'_eq_extractLsb' rfl

/-- The offsets of branches are multiples of 2 (R65). -/
theorem bImmOf_even (w : BitVec 32) : (bImmOf w).getLsbD 0 = false := getLsbD_bImmOf w 0 (by decide)

/-- The offset of `jal` is a multiple of 2 (R65). -/
theorem jImmOf_even (w : BitVec 32) : (jImmOf w).getLsbD 0 = false := getLsbD_jImmOf w 0 (by decide)

/-- A 32-bit word that decodes is the encoding of a well-formed instruction: row by row, the instruction's format puts the
fields back where they were read. -/
theorem encode_of_decodeWord {w : BitVec 32} {i : Instr} (h : decodeWord w = .ok i) : encode i = .word w ∧ i.wf = true := by
  unfold decodeWord at h
  refine ite_eq_elim h (fun ⟨ho, hrd⟩ e => ?lpad) fun hl h => ite_eq_elim h (fun ho e => ?auipc) fun _ h =>
    ite_eq_elim h (fun ho e => ?lui) fun _ h => ite_eq_elim h (fun ho e => ?jal) fun _ h =>
    ite_eq_elim h (fun ⟨ho, h3⟩ e => ?jalr) fun _ h => ite_eq_elim h (fun ⟨ho, h3⟩ e => ?beq) fun _ h =>
    ite_eq_elim h (fun ⟨ho, h3⟩ e => ?bne) fun _ h => ite_eq_elim h (fun ⟨ho, h3⟩ e => ?bltu) fun _ h =>
    ite_eq_elim h (fun ⟨ho, h3⟩ e => ?bgeu) fun _ h => ite_eq_elim h (fun ⟨ho, h3⟩ e => ?lw) fun _ h =>
    ite_eq_elim h (fun ⟨ho, h3⟩ e => ?sw) fun _ h => ite_eq_elim h (fun ⟨ho, h3⟩ e => ?addi) fun _ h =>
    ite_eq_elim h (fun ⟨ho, h3, h6⟩ e => ?slli) fun _ h => ite_eq_elim h (fun ⟨ho, h3, h7⟩ e => ?add) fun _ h =>
    ite_eq_elim h (fun ⟨ho, h3⟩ e => ?fence) fun _ h => ite_eq_elim h (fun ⟨ho, h3⟩ e => ?fenceI) fun _ h =>
    ite_eq_elim h (fun hw e => ?ecall) fun _ h => ite_eq_elim h (fun hw e => ?ebreak) fun _ h =>
    ite_eq_elim h (fun hw e => ?sret) fun _ h => ite_eq_elim h (fun hw e => ?mret) fun _ h =>
    ite_eq_elim h (fun hw e => ?wfi) fun _ h => ite_eq_elim h (fun ⟨ho, h3⟩ e => ?csrrw) fun _ h =>
    ite_eq_elim h (fun ⟨ho, h3⟩ e => ?csrrs) fun _ h => ite_eq_elim h (fun ⟨ho, h3⟩ e => ?csrrc) fun _ h =>
    ite_eq_elim h (fun ⟨ho, h3⟩ e => ?csrrwi) fun _ h => ite_eq_elim h (fun ⟨ho, h3⟩ e => ?csrrsi) fun _ h =>
    ite_eq_elim h (fun ⟨ho, h3⟩ e => ?csrrci) fun _ h => nomatch h
  all_goals cases e
  case lpad =>
    have rd : regBits (rdOf w) = 0#5 := congrArg regBits hrd
    exact ⟨congrArg Code.word (rd ▸ uType_of_fields ho), rfl⟩
  case auipc => exact ⟨congrArg Code.word (uType_of_fields ho), bne_iff_ne.2 fun hrd => hl ⟨ho, hrd⟩⟩
  case lui => exact ⟨congrArg Code.word (uType_of_fields ho), rfl⟩
  case jal => exact ⟨congrArg Code.word (jType_of_fields ho), by rw [Instr.wf, jImmOf_even]; rfl⟩
  case beq | bne | bltu | bgeu =>
    exact ⟨congrArg Code.word (bType_of_fields ho h3), by rw [Instr.wf, bImmOf_even]; rfl⟩
  case sw => exact ⟨congrArg Code.word (sType_of_fields ho h3), rfl⟩
  case slli =>
    have imm : (0b000000#6 ++ shamtOf w : BitVec 12) = iImmOf w := h6 ▸ funct6_append_shamt w
    exact ⟨congrArg Code.word (imm ▸ iType_of_fields ho h3), rfl⟩
  case add => exact ⟨congrArg Code.word (rType_of_fields ho h3 h7), rfl⟩
  case fence => exact ⟨congrArg Code.word (fenceSets_append w ▸ iType_of_fields ho h3), rfl⟩
  case ecall | ebreak | sret | mret | wfi => exact ⟨congrArg Code.word hw.symm, rfl⟩
  case jalr | lw | addi | fenceI | csrrw | csrrs | csrrc | csrrwi | csrrsi | csrrci =>
    exact ⟨congrArg Code.word (iType_of_fields ho h3), rfl⟩

/-- A 16-bit word that decodes is the encoding of a well-formed instruction, or `c.ebreak`. -/
theorem encode_of_decodeHalf {p : BitVec 16} {i : Instr} (h : decodeHalf p = .ok i) :
    (encode i = .half p ∧ i.wf = true) ∨ (p = 0x9002#16 ∧ i = .ebreak) := by
  unfold decodeHalf at h
  refine ite_eq_elim h (fun ⟨h0, h2, h12, hrs1⟩ e => ?cJr) fun _ h =>
    ite_eq_elim h (fun ⟨h0, h2, h12, hrs1⟩ e => ?cJalr) fun _ h =>
    ite_eq_elim h (fun hp e => ?cEbreak) fun _ h => nomatch h
  all_goals cases e
  case cJr | cJalr => exact .inl ⟨congrArg Code.half (crType_fields h0 h2 h12), bne_iff_ne.2 hrs1⟩
  case cEbreak => exact .inr ⟨hp, rfl⟩

/-- Settles O2, by the rows of the decoder for words of each length. -/
theorem encodeOfDecodeWord : Obligations.EncodeOfDecodeWord :=
  ⟨fun _ _ => encode_of_decodeWord, fun _ _ => encode_of_decodeHalf⟩

/-! ### Stored bytes (R41, R60) -/

/-- The first parcel of every instruction's stored form announces its length. -/
theorem lengthRead : ∀ i : Instr, Laws.LengthRead.Statement i
  | .lpad .. => Laws.LengthRead.lpad ..
  | .auipc .. => Laws.LengthRead.auipc ..
  | .lui .. => Laws.LengthRead.lui ..
  | .jal .. => Laws.LengthRead.jal ..
  | .jalr .. => Laws.LengthRead.jalr ..
  | .beq .. => Laws.LengthRead.beq ..
  | .bne .. => Laws.LengthRead.bne ..
  | .bltu .. => Laws.LengthRead.bltu ..
  | .bgeu .. => Laws.LengthRead.bgeu ..
  | .lw .. => Laws.LengthRead.lw ..
  | .sw .. => Laws.LengthRead.sw ..
  | .addi .. => Laws.LengthRead.addi ..
  | .slli .. => Laws.LengthRead.slli ..
  | .add .. => Laws.LengthRead.add ..
  | .fence .. => Laws.LengthRead.fence ..
  | .fenceI .. => Laws.LengthRead.fenceI ..
  | .ecall => Laws.LengthRead.ecall
  | .ebreak => Laws.LengthRead.ebreak
  | .sret => Laws.LengthRead.sret
  | .mret => Laws.LengthRead.mret
  | .wfi => Laws.LengthRead.wfi
  | .csrrw .. => Laws.LengthRead.csrrw ..
  | .csrrs .. => Laws.LengthRead.csrrs ..
  | .csrrc .. => Laws.LengthRead.csrrc ..
  | .csrrwi .. => Laws.LengthRead.csrrwi ..
  | .csrrsi .. => Laws.LengthRead.csrrsi ..
  | .csrrci .. => Laws.LengthRead.csrrci ..
  | .cJr .. => Laws.LengthRead.cJr ..
  | .cJalr .. => Laws.LengthRead.cJalr ..

theorem lengthOf_encode_half {i : Instr} {p : BitVec 16} (h : encode i = .half p) : lengthOf p = .half := by
  have read := lengthRead i
  rw [Laws.LengthRead.Statement, h] at read
  exact read.1

theorem lengthOf_encode_word {i : Instr} {w : BitVec 32} (h : encode i = .word w) :
    lengthOf (w.extractLsb' 0 16) = .word := by
  have read := lengthRead i
  rw [Laws.LengthRead.Statement, h] at read
  exact read.1

/-- A parcel is its two bytes. -/
theorem parcel_bytes (p : BitVec 16) : p.extractLsb' 8 8 ++ p.extractLsb' 0 8 = p :=
  (BitVec.extractLsb'_append_extractLsb'_eq_extractLsb' rfl).trans BitVec.extractLsb'_eq_self

/-- The parcels of a word from its bytes. -/
theorem word_low_bytes (w : BitVec 32) : w.extractLsb' 8 8 ++ w.extractLsb' 0 8 = w.extractLsb' 0 16 :=
  BitVec.extractLsb'_append_extractLsb'_eq_extractLsb' rfl

theorem word_high_bytes (w : BitVec 32) : w.extractLsb' 24 8 ++ w.extractLsb' 16 8 = w.extractLsb' 16 16 :=
  BitVec.extractLsb'_append_extractLsb'_eq_extractLsb' rfl

/-- A word is its two parcels. -/
theorem joinParcels_parcels (w : BitVec 32) : joinParcels (w.extractLsb' 0 16) (w.extractLsb' 16 16) = w :=
  (BitVec.extractLsb'_append_extractLsb'_eq_extractLsb' rfl).trans BitVec.extractLsb'_eq_self

/-- Settles O3: the first parcel announces the length, and what is read is the stored word, which decodes to the
instruction. -/
theorem decodeBytesOfEncode : Obligations.DecodeBytesOfEncode := by
  intro i rest hwf
  have decoded := decode_encode hwf
  cases he : encode i with
  | half p =>
    have half : decodeHalf p = .ok i := by rw [he] at decoded; exact decoded
    simp [Code.bytes, decodeBytes, parcel_bytes, lengthOf_encode_half he, half, Except.map]
  | word w =>
    have word : decodeWord w = .ok i := by rw [he] at decoded; exact decoded
    simp [Code.bytes, decodeBytes, word_low_bytes, word_high_bytes, joinParcels_parcels, lengthOf_encode_word he, word,
      Except.map]

/-! ### Accidental landing pads, and words written out (R68, R69) -/

/-- An upper half `?017h` below another lower half is the U-type word of `lpad`. -/
theorem joinParcels_accidental {a : BitVec 32} (h : a.extractLsb' 16 12 = 0x017#12) (p : BitVec 16) :
    joinParcels (a.extractLsb' 16 16) p = uType (p ++ a.extractLsb' 28 4) 0#5 0b0010111#7 := by
  have upper : a.extractLsb' 28 4 ++ a.extractLsb' 16 12 = a.extractLsb' 16 16 :=
    BitVec.extractLsb'_append_extractLsb'_eq_extractLsb' rfl
  rw [joinParcels, ← upper, h]
  apply BitVec.eq_of_getLsbD_eq
  intro i hi
  rw [getLsbD_uType _ _ _ _ hi]
  show BitVec.getLsbD (w := 16 + (4 + 12)) (p ++ (a.extractLsb' 28 4 ++ 0x017#12)) i = _
  simp only [BitVec.getLsbD_append]
  interval_cases i <;> rfl

/-- Settles O5: the joined word is the U-type word of `lpad` with that label. -/
theorem accidentalLandingPad : Obligations.AccidentalLandingPad := fun a b h => by
  rw [joinParcels_accidental h, decodeWord_uType_lpad]

/-- A `jalr` opcode with another `funct3` is reserved (R68 (d)). -/
theorem decodeWord_jalr_reserved {w : BitVec 32} (ho : opcodeOf w = 0b1100111#7) (h3 : funct3Of w ≠ 0b000#3) :
    decodeWord w = .error .noSuchWord := by
  simp [decodeWord, ho, h3, ne_fixedWords fun _ => h3]

/-- Settles O6: the words are decoded as they stand. -/
theorem writtenOutWords : Obligations.WrittenOutWords :=
  ⟨rfl, rfl, rfl, rfl, rfl, rfl, rfl, rfl, rfl, rfl, fun _ => decodeWord_jalr_reserved⟩

end Sys2Proof
end

section
/-! PROOFS. Every step has a next state, and the invariants that every step keeps: `EveryStepHasANextState`, `StepKeepsMemory`,
`StepKeepsPcAligned`, `StepKeepsMode`, `StepKeepsFields`, `StepKeepsWords`, `ResetMeetsInvariants` (spec/10_state.md R10 to R19,
R33; spec/20_memory.md R40, R42; spec/60_exceptions.md R153 to R155). -/

namespace Sys2Proof.Machine

/-! ### Every exceptional condition is a next state -/

/-- The outcome is a next state: no fault and no refusal. -/
def Answers (r : Result) : Prop := ∃ t, r = .next t

theorem answers_next (t : State) : Answers (.next t) := ⟨t, rfl⟩

theorem answers_ite {c : Prop} [Decidable c] {a b : Result} (ha : Answers a) (hb : Answers b) :
    Answers (if c then a else b) := by
  split
  · exact ha
  · exact hb

theorem answers_raise (e : Exception) (tv : Word) (s : State) : Answers (raise e tv s) := ⟨_, rfl⟩

theorem answers_raiseFree (e : Exception) (s : State) : Answers (raiseFree e s) := ⟨_, rfl⟩

theorem answers_raiseIllegal (i : Instr) (s : State) : Answers (raiseIllegal i s) := ⟨_, rfl⟩

theorem answers_raiseIllegalUnsettled (s : State) : Answers (raiseIllegalUnsettled s) := by
  obtain ⟨tv, n, h⟩ := raiseIllegalUnsettled_eq s
  exact ⟨_, h⟩

theorem answers_raiseIllegalFetched (f : Fetched) (s : State) : Answers (raiseIllegalFetched f s) := by
  obtain ⟨tv, n, h⟩ := raiseIllegalFetched_eq f s
  exact ⟨_, h⟩

theorem answers_jumpTo (s t' : State) (w : Word) : Answers (jumpTo s t' w) :=
  answers_ite (answers_raise ..) (answers_next _)

theorem answers_branchIf (b : Bool) (off : BitVec 13) (s : State) : Answers (branchIf b off s) :=
  answers_ite (answers_jumpTo ..) (answers_next _)

theorem answers_csrInstruction (i : Instr) (rd : RegIdx) (n : BitVec 12) (write : Bool) (f : Word → Word) (s : State) :
    Answers (csrInstruction i rd n write f s) := by
  cases ha : s.csrAccess n write with
  | illegal => rw [csrInstruction_illegal ha]; exact answers_raiseIllegal i s
  | virtual => rw [csrInstruction_virtual ha]; exact answers_raiseFree _ s
  | reaches r => exact ⟨_, csrInstruction_reaches ha⟩

/-- A data access that is not misaligned ends as the host's memory answers. -/
theorem answers_dataAnswer (d : Option DataException) (e : DataException → Exception) (s t : State) :
    Answers (match d with | some x => raiseFree (e x) s | none => .next t) := by
  cases d with
  | some x => exact answers_raiseFree ..
  | none => exact answers_next t

/-- Every instruction answers with a next state. -/
theorem answers_exec (i : Instr) (s : State) : Answers (exec i s) := by
  cases i with
  | lpad =>
    exact answers_ite (answers_ite (answers_raiseIllegal ..)
      (answers_ite (answers_next _) (answers_raiseIllegal ..))) (answers_next _)
  | auipc | lui | addi | add | fence | fenceI => exact answers_next _
  | jal | jalr => exact answers_jumpTo ..
  | beq | bne | bltu | bgeu => exact answers_branchIf ..
  | lw rd rs1 imm =>
    unfold exec execLw
    exact answers_ite (answers_raise ..) (answers_dataAnswer _ loadException _ _)
  | sw rs2 rs1 imm =>
    unfold exec execSw
    exact answers_ite (answers_raise ..) (answers_dataAnswer _ storeException _ _)
  | slli | wfi => exact answers_ite (answers_raiseIllegal ..) (answers_next _)
  | ecall => exact answers_raise ..
  | ebreak => exact answers_raiseFree ..
  | sret =>
    exact answers_ite (answers_raiseIllegal ..) (answers_ite
      (answers_ite (answers_raiseFree ..) (answers_ite (answers_raiseFree ..) (answers_next _)))
      (answers_ite (answers_raiseIllegal ..) (answers_ite (answers_raiseIllegal ..) (answers_next _))))
  | mret => exact answers_ite (answers_next _) (answers_raiseIllegal ..)
  | csrrw | csrrs | csrrc | csrrwi | csrrsi | csrrci =>
    simp only [exec_csrrw, exec_csrrs, exec_csrrc, exec_csrrwi, exec_csrrsi, exec_csrrci]
    exact answers_csrInstruction ..
  | cJr | cJalr => exact answers_ite (answers_next _) (answers_raiseIllegalUnsettled s)

theorem answers_execFetched (f : Fetched) (s : State) : Answers (execFetched f s) := by
  unfold execFetched
  split
  · exact answers_exec ..
  · exact answers_raiseIllegalFetched ..

theorem answers_stepAnswered (s : State) : Answers (stepAnswered s) := by
  unfold stepAnswered
  split
  · exact answers_next _
  · split
    · exact answers_raiseFree ..
    · exact answers_ite (answers_raiseIllegalFetched ..) (answers_execFetched ..)

/-- Settles O48: each part of a step is a next state, a trap among them. -/
theorem everyStepHasANextState : Obligations.EveryStepHasANextState := by
  intro s
  obtain ⟨t, h⟩ := answers_stepAnswered s
  exact ⟨t.nextAnswer, mapNext_eq_next.2 ⟨t, h, rfl⟩⟩

/-! ### The forms of a step, as the cases of an invariant -/

/-- What holds after every form that a step can have, and is kept when the host's answer is used up, holds after every step. -/
theorem holds_after_step {P : State → Prop} {s t : State} (h : step s = .next t)
    (trap : ∀ x b c tv n, s.admitsTarget x = true → P ((s.takeTrap x b c tv).withDraws n))
    (plain : ∀ i rd v e p, Executes s i → Plain i s e p → P (((s.writeReg rd v).setElp e).goto p))
    (store : ∀ a v, P ((s.store32 a v).advance 4))
    (fenceI : P (s.syncFetch.advance 4))
    (mret : P s.returnFromM)
    (sret : s.cfg.hasS = true → P s.returnFromS)
    (vsret : s.cfg.hasS = true → s.virt = true → P s.returnFromVS)
    (csrWrite : ∀ rd n r v, s.csrAccess n true = .reaches r →
      P (((s.writeCsr r v).writeReg rd (s.readCsr r)).advance 4))
    (next : ∀ u, P u → P u.nextAnswer) : P t := by
  obtain ⟨u, rfl, ⟨x, b, c, tv, n, hx, rfl⟩ | ⟨i, hi, form⟩⟩ := step_form h
  · exact next _ (trap x b c tv n hx)
  · apply next
    cases form with
    | trap c tv n => exact trap _ _ c tv n (exceptionTarget_admitted s c)
    | plain rd v e p hp => exact plain i rd v e p hi hp
    | store a v => exact store a v
    | fenceI => exact fenceI
    | mret => exact mret
    | sret _ hS => exact sret hS
    | vsret _ hS hv => exact vsret hS hv
    | csrWrite rd n r v hr => exact csrWrite rd n r v hr

/-! ### Memory (R40) -/

/-- The invariant looks at the parameters, at memory and at the overwritten bytes only. -/
theorem memoryOk_congr {s t : State} (h : s.MemoryOk) (hc : t.cfg = s.cfg) (hm : t.mem = s.mem)
    (hs : t.staleStores = s.staleStores) : t.MemoryOk := by
  unfold State.MemoryOk at h ⊢
  rw [hc, hm, hs]
  exact h

/-- The accesses of a store reach the cells of the store and no others. -/
theorem mem_of_mem_storeAccesses {a : Word} {cells u : List Host.Cell} {c : Host.Cell} (hu : u ∈ storeAccesses a cells)
    (hc : c ∈ u) : c ∈ cells := by
  unfold storeAccesses at hu
  split at hu
  · rwa [← List.mem_singleton.1 hu]
  · obtain ⟨d, hd, rfl⟩ := List.mem_map.1 hu
    rwa [List.mem_singleton.1 hc]

theorem storedCells_lt (x : Xlen) (a : Word) (v : BitVec 32) : ∀ c ∈ storedCells x a v, c.1 < 2 ^ x.bits := by
  simp [storedCells, byteAddress_lt]

theorem cells4_lt (m : Memory) (x : Xlen) (a : Word) : ∀ c ∈ m.cells4 x a, c.1 < 2 ^ x.bits := by
  simp [Memory.cells4, byteAddress_lt]

theorem memoryOk_store32 {s : State} (h : s.MemoryOk) (a : Word) (v : BitVec 32) : (s.store32 a v).MemoryOk := by
  obtain ⟨wf, listed, stale⟩ := h
  refine ⟨Memory.writeAll_wf _ wf, fun c hc => ?listed, fun u hu c hc => ?stale⟩
  case listed =>
    rcases Memory.mem_writeAll hc with hc | ⟨d, hd, hcd⟩
    · exact listed c hc
    · rw [hcd]
      exact storedCells_lt _ a v d hd
  case stale =>
    rcases List.mem_append.1 hu with hu | hu
    · exact cells4_lt _ _ a c (mem_of_mem_storeAccesses hu hc)
    · exact stale u hu c hc

/-- Settles O54: only a store writes memory, and `fence.i` only forgets overwritten bytes. -/
theorem stepKeepsMemory : Obligations.StepKeepsMemory := by
  intro s t h hstep
  refine holds_after_step hstep (fun x b c tv n _ => ?trap) (fun _ _ _ _ _ _ _ => h)
    (fun a v => memoryOk_store32 h a v) ?fenceI h (fun _ => h) (fun _ _ => h) (fun rd n r v _ => ?csrWrite) (fun _ hu => hu)
  case trap =>
    exact memoryOk_congr h (takeTrap_cfg s x b c tv) (takeTrap_mem s x b c tv) (takeTrap_staleStores s x b c tv)
  case fenceI =>
    obtain ⟨wf, listed, -⟩ := h
    exact ⟨wf, listed, nofun⟩
  case csrWrite =>
    have written : (s.writeCsr r v).MemoryOk :=
      memoryOk_congr h (writeCsr_cfg s r v) (writeCsr_mem s r v) (writeCsr_staleStores s r v)
    exact written

end Sys2Proof.Machine
end

section
/-! PROOFS. The alignment of `pc`, that every step keeps: `StepKeepsPcAligned` (spec/10_state.md R15; spec/20_memory.md R42). -/

namespace Sys2Proof.Machine

/-! ### The two lowest bits -/

/-- An address at which an instruction may stand (R15, R42). -/
def AlignedPc (c : Config) (p : Word) : Prop := p.getLsbD 0 = false ∧ (c.hasC = false → p.getLsbD 1 = false)

theorem alignedPc_of_low {p : Word} (h : ∀ i < 2, p.getLsbD i = false) (c : Config) : AlignedPc c p :=
  ⟨h 0 (by decide), fun _ => h 1 (by decide)⟩

/-- Wrapping keeps the alignment. -/
theorem alignedPc_wrap {c : Config} {p : Word} (h : AlignedPc c p) (x : Xlen) : AlignedPc c (x.wrap p) := by
  obtain ⟨h0, h1⟩ := h
  refine ⟨?_, fun hC => ?_⟩
  · rw [wrap_getLsbD_of_lt (lt_bits_of_lt (by decide) x), h0]
  · rw [wrap_getLsbD_of_lt (lt_bits_of_lt (by decide) x), h1 hC]

/-- A multiple of 4 does not change the two lowest bits of a sum. -/
theorem getLsbD_add_of_dvd_four (a : Word) {b : Word} (hb : b.toNat % 4 = 0) {i : Nat} (hi : i < 2) :
    (a + b).getLsbD i = a.getLsbD i := by
  have low : (a + b).toNat % 4 = a.toNat % 4 := by
    rw [BitVec.toNat_add]
    omega
  have bit (w : Word) : w.getLsbD i = (w.toNat % 4).testBit i := by
    rw [show 4 = 2 ^ 2 from rfl, Nat.testBit_mod_two_pow]
    simp [hi, BitVec.getLsbD]
  rw [bit, bit, low]

theorem alignedPc_add_four {c : Config} {p : Word} (h : AlignedPc c p) : AlignedPc c (p + 4#64) := by
  obtain ⟨h0, h1⟩ := h
  refine ⟨?_, fun hC => ?_⟩
  · rw [getLsbD_add_of_dvd_four p rfl (by decide), h0]
  · rw [getLsbD_add_of_dvd_four p rfl (by decide), h1 hC]

/-- Clearing the two lowest bits clears them. -/
theorem getLsbD_and_not_three (w : Word) {i : Nat} (hi : i < 2) : (w &&& ~~~(3#64)).getLsbD i = false := by
  interval_cases i <;> simp

/-! ### Where a trap and a return go (R110, R154) -/

/-- A handler's address is a multiple of 4. -/
theorem alignedPc_trapVector (c : Config) (x : Xlen) (tvec : Word) (i : Bool) (k : BitVec 6) :
    AlignedPc c (trapVector x tvec i k) := by
  have offset : (if i && tvecVectored tvec then 4#64 * k.setWidth 64 else 0#64).toNat % 4 = 0 := by
    split
    · simp [BitVec.toNat_mul]
    · rfl
  apply alignedPc_wrap
  apply alignedPc_of_low
  intro j hj
  rw [getLsbD_add_of_dvd_four _ offset hj]
  exact getLsbD_and_not_three tvec hj

/-- An `xepc` is read without the bits that an address cannot have. -/
theorem alignedPc_epcView (c : Config) (epc : Word) : AlignedPc c (epcView c epc) := by
  rw [epcView_eq]
  split
  · rename_i hC
    exact ⟨clearBit0_getLsbD_zero epc, fun hC' => by simp [hC] at hC'⟩
  · exact alignedPc_of_low (fun _ => getLsbD_and_not_three epc) c

/-! ### Instructions -/

/-- What is executed is a well-formed instruction: the decoder gives no other. -/
theorem wf_of_executes {s : State} {i : Instr} (h : Executes s i) : i.wf = true := by
  obtain ⟨-, f, -, -, hd⟩ := h
  cases f with
  | code c =>
    cases c with
    | word w => exact (encode_of_decodeWord hd).2
    | half p =>
      refine ite_eq_elim hd (fun _ hd => ?_) fun _ hd => nomatch hd
      rcases encode_of_decodeHalf hd with ⟨-, hwf⟩ | ⟨-, rfl⟩
      · exact hwf
      · rfl
  | long p => exact nomatch hd

/-- The next `pc` of an instruction that neither traps nor returns from a trap. -/
theorem alignedPc_of_plain {s : State} {i : Instr} {e : Elp} {p : Word} (h : s.PcOk) (hi : Executes s i)
    (hp : Plain i s e p) : AlignedPc s.cfg p := by
  rcases hp.pc with rfl | ⟨aligned, even⟩
  · exact alignedPc_add_four h
  · refine ⟨even (wf_of_executes hi) h.1, fun hC => ?_⟩
    simpa [State.targetMisaligned, hC] using aligned

/-- Settles O55: a step goes to a handler, to an `xepc`, to the next instruction, or to a jump target that was tested. -/
theorem stepKeepsPcAligned : Obligations.StepKeepsPcAligned := by
  intro s t h hstep
  have next : AlignedPc s.cfg (s.cfg.xlen.wrap (s.pc + 4#64)) := alignedPc_wrap (alignedPc_add_four h) _
  refine holds_after_step hstep (fun x b c tv n _ => ?trap) (fun _ _ _ _ _ hi hp => ?plain) (fun _ _ => next) next
    (alignedPc_epcView ..) (fun _ => alignedPc_epcView ..) (fun _ _ => alignedPc_epcView ..) (fun rd n r v _ => ?csrWrite)
    (fun _ hu => hu)
  case trap =>
    show AlignedPc (s.takeTrap x b c tv).cfg (s.takeTrap x b c tv).pc
    rw [takeTrap_pc]
    exact alignedPc_trapVector ..
  case plain => exact alignedPc_wrap (alignedPc_of_plain h hi hp) _
  case csrWrite =>
    show AlignedPc (s.writeCsr r v).cfg ((s.writeCsr r v).cfg.xlen.wrap ((s.writeCsr r v).pc + 4#64))
    rw [writeCsr_cfg, writeCsr_pc]
    exact next

end Sys2Proof.Machine
end

section
/-! PROOFS. The modes, that every step keeps legal, and which CSR a number reaches from which mode: `StepKeepsMode`
(spec/10_state.md R19, R34; spec/43_host_subset.md R144). -/

namespace Sys2Proof.Machine

/-! ### Which register an access reaches (R144) -/

/-- No number of a register has level U. -/
theorem csrLevel_ne_u {n : BitVec 12} {r : Csr} (h : csrOfNumber n = some r) : csrLevel n ≠ .u := by
  unfold csrOfNumber at h
  repeat refine ite_eq_elim h (fun hn _ => by subst hn; decide) fun _ h => ?_
  cases h

/-- The numbers of level S. -/
theorem csrOfNumber_level_s {n : BitVec 12} {r : Csr} (h : csrOfNumber n = some r) (hl : csrLevel n = .s) :
    r ∈ [Csr.sstatus, .stvec, .sepc, .scause, .stval] := by
  unfold csrOfNumber at h
  repeat refine ite_eq_elim h (fun hn hr => by subst hn; cases hr; revert hl; decide) fun _ h => ?_
  cases h

/-- An access that reaches a register: the register of the number exists, and the mode is high enough for its level, which says
whether the number is one that `V` = 1 redirects. -/
inductive CsrReach (s : State) : Csr → Prop where
  | direct (r : Csr) (he : csrExists s.cfg r = true) (hp : s.priv ≠ .u) (hm : s.virt = true → s.priv = .m) : CsrReach s r
  | redirected (q : Csr) (hq : q ∈ [Csr.sstatus, .stvec, .sepc, .scause, .stval]) (hp : s.priv ≠ .u) (hv : s.virt = true) :
    CsrReach s (csrVirtualised q)

theorem csrAccess_reaches {s : State} {n : BitVec 12} {w : Bool} {r : Csr} (h : s.csrAccess n w = .reaches r) :
    CsrReach s r := by
  unfold State.csrAccess at h
  split at h
  · cases h
  · rename_i q hq
    refine ite_eq_elim h (fun _ h => nomatch h) fun he h => ite_eq_elim h (fun _ h => nomatch h) fun _ h => ?_
    have he : csrExists s.cfg q = true := by simpa using he
    cases hl : csrLevel n <;> rw [hl] at h
    case u => exact absurd hl (csrLevel_ne_u hq)
    case s =>
      refine ite_eq_elim h (fun _ h => nomatch h) fun hp h => ite_eq_elim h (fun hv h => ?_) fun hv h => ?_
      · cases h
        exact .redirected q (csrOfNumber_level_s hq hl) hp hv
      · cases h
        exact .direct _ he hp fun hv' => absurd hv' hv
    case hs =>
      refine ite_eq_elim h (fun _ h => nomatch h) fun hv h => ite_eq_elim h (fun _ h => nomatch h) fun hp h => ?_
      cases h
      exact .direct _ he hp fun hv' => absurd hv' hv
    case m =>
      refine ite_eq_elim h (fun hp h => ?_) fun _ h => nomatch h
      cases h
      exact .direct _ he (by simp [hp]) fun _ => hp

/-- No register is reached from U or VU. -/
theorem priv_ne_u_of_reach {s : State} {r : Csr} (h : CsrReach s r) : s.priv ≠ .u := by
  cases h with
  | direct _ _ hp => exact hp
  | redirected _ _ hp => exact hp

/-- `hstatus` is reached only where it exists. -/
theorem hasH_of_reach_hstatus {s : State} (h : CsrReach s .hstatus) : s.cfg.hasH = true := by
  generalize hr : Csr.hstatus = r at h
  cases h with
  | direct _ he => subst hr; exact he
  | redirected q hq =>
    simp only [List.mem_cons, List.not_mem_nil, or_false] at hq
    rcases hq with rfl | rfl | rfl | rfl | rfl <;> cases hr

/-- From VS an access reaches the VS registers behind the S-level numbers, and no other (log entry 26). -/
theorem reach_from_vs {s : State} {r : Csr} (h : CsrReach s r) (hp : s.priv = .s) (hv : s.virt = true) :
    r ∈ [Csr.vsstatus, .vstvec, .vsepc, .vscause, .vstval] := by
  cases h with
  | direct _ _ _ hm => exact absurd (hm hv) (by simp [hp])
  | redirected q hq =>
    simp only [List.mem_cons, List.not_mem_nil, or_false] at hq
    rcases hq with rfl | rfl | rfl | rfl | rfl <;> decide

/-! ### The saved modes after a CSR write (R34, log entries 13, 29) -/

/-- A mode that a written `MPP` names is implemented. -/
theorem implementedPriv_of_privOfBits {c : Config} {b : BitVec 2} {p : Priv} (h : privOfBits c b = some p) :
    implementedPriv c p = true := by
  unfold privOfBits at h
  refine ite_eq_elim h (fun _ h => ?_) fun _ h => ite_eq_elim h (fun hb h => ?_) fun _ h =>
    ite_eq_elim h (fun hb h => ?_) fun _ h => nomatch h
  · cases h; rfl
  · cases h; exact hb.2
  · cases h; exact hb.2

theorem implementedPriv_freePriv (c : Config) (w : Word) : implementedPriv c (freePriv c w) = true := by
  unfold freePriv
  split
  · rename_i hp
    exact implementedPriv_of_privOfBits hp
  · rfl

/-- The saved modes exist: what `State.ModeOk` says of the status registers. -/
structure SavedModesOk (s : State) : Prop where
  mpp : implementedPriv s.cfg s.mstatus.mpp = true
  mpv : s.mstatus.mpv = true → s.cfg.hasH = true
  spv : s.hstatus.spv = true → s.cfg.hasH = true

theorem modeOk_iff (s : State) :
    s.ModeOk ↔ implementedPriv s.cfg s.priv = true ∧ (s.virt = true → s.cfg.hasH = true ∧ s.priv ≠ .m) ∧ SavedModesOk s :=
  ⟨fun ⟨hp, hv, mpp, mpv, spv⟩ => ⟨hp, hv, mpp, mpv, spv⟩, fun ⟨hp, hv, mpp, mpv, spv⟩ => ⟨hp, hv, mpp, mpv, spv⟩⟩

theorem savedModesOk_putMstatus {s : State} (h : SavedModesOk s) (w : Word) : SavedModesOk (s.putMstatus w) := by
  have mpv (q : Priv) : (Mstatus.fieldsFrom s.cfg w q).mpv = true → s.cfg.hasH = true := by
    simp only [Mstatus.fieldsFrom, Bool.and_eq_true]
    exact And.left
  unfold State.putMstatus
  split
  · rename_i p hp
    exact ⟨implementedPriv_of_privOfBits hp, mpv p, h.spv⟩
  · exact ⟨implementedPriv_freePriv .., mpv _, h.spv⟩

theorem savedModesOk_writeCsr {s : State} (h : SavedModesOk s) {r : Csr} (hr : r = .hstatus → s.cfg.hasH = true) (v : Word) :
    SavedModesOk (s.writeCsr r v) := by
  cases r
  case mstatus | mstatush => exact savedModesOk_putMstatus h _
  case hstatus => exact ⟨h.mpp, h.mpv, fun _ => hr rfl⟩
  all_goals exact ⟨h.mpp, h.mpv, h.spv⟩

/-! ### The mode after a trap and after a return (R110 to R112, R154) -/

theorem hasS_of_hasH {c : Config} (hc : c.wf = true) (h : c.hasH = true) : c.hasS = true := by
  simp only [Config.wf, Bool.and_eq_true, and_assoc] at hc
  obtain ⟨hs, -⟩ := hc
  simpa [h] using hs

theorem modeOk_takeTrap {s : State} (hc : s.cfg.wf = true) (h : s.ModeOk) {x : TrapTarget} (hx : s.admitsTarget x = true)
    (b : Bool) (c : BitVec 6) (tv : Word) : (s.takeTrap x b c tv).ModeOk := by
  obtain ⟨hp, hv, mpp, mpv, spv⟩ := h
  have hasH (h : s.virt = true) : s.cfg.hasH = true := (hv h).1
  rcases admitsTarget_cases hx with rfl | ⟨rfl, hS, -⟩ | ⟨rfl, hH, -, -⟩
  · exact ⟨rfl, nofun, hp, hasH, spv⟩
  · exact ⟨hS, nofun, mpp, mpv, hasH⟩
  · exact ⟨hasS_of_hasH hc hH, fun _ => ⟨hH, nofun⟩, mpp, mpv, spv⟩

theorem implementedPriv_lowestPriv (c : Config) : implementedPriv c (lowestPriv c) = true := by
  unfold lowestPriv
  split
  · assumption
  · rfl

theorem modeOk_returnFromM {s : State} (h : s.ModeOk) : s.returnFromM.ModeOk := by
  obtain ⟨-, -, mpp, -, spv⟩ := h
  refine ⟨mpp, fun hv => ?_, implementedPriv_lowestPriv s.cfg, nofun, spv⟩
  simp only [returnFromM_virt, Bool.and_eq_true, decide_eq_true_eq] at hv
  exact hv.1

/-- The mode that an `xPP` bit of S or VS names exists, and is below M (log entry 35). -/
theorem implementedPriv_privOfSpp {c : Config} (hS : c.hasS = true) (b : Bool) :
    implementedPriv c (privOfSpp c b) = true ∧ privOfSpp c b ≠ .m := by
  rw [privOfSpp_eq]
  split
  · exact ⟨hS, nofun⟩
  · rename_i hb
    have hU : c.hasU = true := by simpa using (not_or.1 hb).2
    exact ⟨hU, nofun⟩

theorem modeOk_returnFromS {s : State} (hS : s.cfg.hasS = true) (h : s.ModeOk) : s.returnFromS.ModeOk := by
  obtain ⟨-, -, mpp, mpv, -⟩ := h
  obtain ⟨implemented, below⟩ := implementedPriv_privOfSpp hS s.mstatus.spp
  exact ⟨implemented, fun hv => ⟨((returnFromS_virt_iff s).1 hv).1, below⟩, mpp, mpv, nofun⟩

theorem modeOk_returnFromVS {s : State} (hS : s.cfg.hasS = true) (h : s.ModeOk) : s.returnFromVS.ModeOk := by
  obtain ⟨-, hv, mpp, mpv, spv⟩ := h
  obtain ⟨implemented, below⟩ := implementedPriv_privOfSpp hS s.vsstatus.spp
  exact ⟨implemented, fun h => ⟨(hv h).1, below⟩, mpp, mpv, spv⟩

/-- Settles O56: a trap goes to a mode that admits it, a return to a saved mode, and a CSR write saves modes that exist. -/
theorem stepKeepsMode : Obligations.StepKeepsMode := by
  intro s t hc h hstep
  refine holds_after_step hstep (fun x b c tv n hx => modeOk_takeTrap hc h hx b c tv) (fun _ _ _ _ _ _ _ => h)
    (fun _ _ => h) h (modeOk_returnFromM h) (fun hS => modeOk_returnFromS hS h) (fun hS _ => modeOk_returnFromVS hS h)
    (fun rd n r v hr => ?csrWrite) (fun _ hu => hu)
  case csrWrite =>
    obtain ⟨hp, hv, saved⟩ := (modeOk_iff s).1 h
    have written : (s.writeCsr r v).ModeOk := by
      rw [modeOk_iff, writeCsr_cfg, writeCsr_priv, writeCsr_virt]
      exact ⟨hp, hv, savedModesOk_writeCsr saved (fun e => hasH_of_reach_hstatus (e ▸ csrAccess_reaches hr)) v⟩
    exact written

end Sys2Proof.Machine
end

section
/-! PROOFS. The fields that do not exist and the width of every word, that every step keeps, and reset: `StepKeepsFields`,
`StepKeepsWords`, `ResetMeetsInvariants` (spec/10_state.md R10, R11, R33, R35 to R38). -/

namespace Sys2Proof.Machine

/-! ### Fields that do not exist (R33, R64) -/

theorem noLpExpected_of_absent {present bit : Bool} (h : present = false) : Elp.ofBool (present && bit) = .noLpExpected := by
  rw [h]; rfl

theorem false_of_absent {present bit : Bool} (h : present = false) : (present && bit) = false := by
  rw [h]; rfl

theorem hasSField_of_not_extension {c : Config} (h : c.hasZicfisslp = false) : c.hasSField = false := false_of_absent h

theorem hasHField_of_not_extension {c : Config} (h : c.hasZicfisslp = false) : c.hasHField = false := false_of_absent h

theorem fieldsOk_takeTrap {s : State} (h : s.FieldsOk) {x : TrapTarget} (hx : s.admitsTarget x = true) (b : Bool)
    (c : BitVec 6) (tv : Word) : (s.takeTrap x b c tv).FieldsOk := by
  obtain ⟨elp, mField, menv, sField, uField, hField, vuField⟩ := h
  rcases admitsTarget_cases hx with rfl | ⟨rfl, hS, -⟩ | ⟨rfl, hH, -, -⟩
  · exact ⟨fun _ => rfl, fun hm => ⟨(mField hm).1, elp hm⟩, menv, sField, uField, hField, vuField⟩
  · refine ⟨fun _ => rfl, mField, menv, fun hs => ⟨(sField hs).1, elp ?_⟩, uField, hField, vuField⟩
    simpa [Config.hasSField, hS] using hs
  · refine ⟨fun _ => rfl, mField, menv, sField, uField, fun hh => ⟨(hField hh).1, (hField hh).2.1, elp ?_⟩, vuField⟩
    simpa [Config.hasHField, hH] using hh

theorem fieldsOk_returnFromM {s : State} (h : s.FieldsOk) : s.returnFromM.FieldsOk := by
  obtain ⟨-, mField, menv, sField, uField, hField, vuField⟩ := h
  exact ⟨fun hz => (mField hz).2, fun hm => ⟨(mField hm).1, rfl⟩, menv, sField, uField, hField, vuField⟩

theorem fieldsOk_returnFromS {s : State} (h : s.FieldsOk) : s.returnFromS.FieldsOk := by
  obtain ⟨-, mField, menv, sField, uField, hField, vuField⟩ := h
  exact ⟨fun hz => (sField (hasSField_of_not_extension hz)).2, mField, menv, fun hs => ⟨(sField hs).1, rfl⟩, uField, hField,
    vuField⟩

theorem fieldsOk_returnFromVS {s : State} (h : s.FieldsOk) : s.returnFromVS.FieldsOk := by
  obtain ⟨-, mField, menv, sField, uField, hField, vuField⟩ := h
  exact ⟨fun hz => (hField (hasHField_of_not_extension hz)).2.2, mField, menv, sField, uField,
    fun hh => ⟨(hField hh).1, (hField hh).2.1, rfl⟩, vuField⟩

/-- `ELP` is set only while CFI is active, so only on a hart with the extension. -/
theorem elp_of_plain {s : State} {i : Instr} {e : Elp} {p : Word} (h : s.FieldsOk) (hp : Plain i s e p)
    (hz : s.cfg.hasZicfisslp = false) : e = .noLpExpected := by
  rcases hp.elp with he | he | ⟨-, -, active⟩
  · exact he.trans (h.1 hz)
  · exact he
  · simp [xfcfie_of_no_extension hz] at active

theorem fieldsOk_setElp {s : State} (h : s.FieldsOk) {e : Elp} (he : s.cfg.hasZicfisslp = false → e = .noLpExpected) :
    (s.setElp e).FieldsOk := by
  obtain ⟨-, fields⟩ := h
  exact ⟨he, fields⟩

theorem fieldsOk_putMstatus {s : State} (h : s.FieldsOk) (w : Word) : (s.putMstatus w).FieldsOk := by
  obtain ⟨elp, mField, menv, sField, -, hField, vuField⟩ := h
  obtain ⟨q, n, hput⟩ := putMstatus_eq s w
  rw [hput]
  exact ⟨elp, fun hm => ⟨(mField hm).1, noLpExpected_of_absent hm⟩, menv,
    fun hs => ⟨(sField hs).1, noLpExpected_of_absent hs⟩, fun hu => false_of_absent hu, hField, vuField⟩

/-- A write of a status or configuration register stores 0 in the fields that do not exist. -/
theorem fieldsOk_writeCsr {s : State} (h : s.FieldsOk) (r : Csr) (v : Word) : (s.writeCsr r v).FieldsOk := by
  have all := h
  obtain ⟨elp, mField, menv, sField, uField, hField, vuField⟩ := h
  cases r
  case mstatus | mstatush => exact fieldsOk_putMstatus all _
  case sstatus =>
    refine ⟨elp, mField, menv, fun hs => ⟨(sField hs).1, noLpExpected_of_absent hs⟩, fun hu => ?_, hField, vuField⟩
    rw [writeCsr_sstatus_ufcfie]
    split
    · exact false_of_absent hu
    · exact uField hu
  case menvcfg | menvcfgh =>
    exact ⟨elp, mField, fun hm => false_of_absent hm, fun hs => ⟨false_of_absent hs, (sField hs).2⟩, uField, hField, vuField⟩
  case mseccfg | mseccfgh =>
    exact ⟨elp, fun hm => ⟨false_of_absent hm, (mField hm).2⟩, menv, sField, uField, hField, vuField⟩
  case henvcfg | henvcfgh =>
    exact ⟨elp, mField, menv, sField, uField, fun hh => ⟨false_of_absent hh, false_of_absent hh, (hField hh).2.2⟩, vuField⟩
  case vsstatus =>
    exact ⟨elp, mField, menv, sField, uField, fun hh => ⟨(hField hh).1, (hField hh).2.1, noLpExpected_of_absent hh⟩,
      fun hu => false_of_absent hu⟩
  all_goals exact all

/-- Settles O57: a trap saves `ELP` in a mode that exists, a return restores it from one, and a CSR write stores 0 in the
fields that do not exist. -/
theorem stepKeepsFields : Obligations.StepKeepsFields := by
  intro s t h hstep
  refine holds_after_step hstep (fun x b c tv n hx => fieldsOk_takeTrap h hx b c tv) (fun _ rd v e _ _ hp => ?plain)
    (fun _ _ => h) h (fieldsOk_returnFromM h) (fun _ => fieldsOk_returnFromS h) (fun _ _ => fieldsOk_returnFromVS h)
    (fun _ _ r v _ => fieldsOk_writeCsr h r v) (fun _ hu => hu)
  case plain =>
    have elp : s.cfg.hasZicfisslp = false → e = .noLpExpected := elp_of_plain h hp
    exact fieldsOk_setElp (s := s.writeReg rd v) h elp

/-! ### Words of `XLEN` bits (R10, R11, R15) -/

theorem wrap_and_of_fits {x : Xlen} {w : Word} (h : x.wrap w = w) (m : Word) : x.wrap (w &&& m) = w &&& m := by
  rw [Xlen.wrap_and, h]

theorem wrap_wrap_and (x : Xlen) (w m : Word) : x.wrap (x.wrap w &&& m) = x.wrap w &&& m :=
  wrap_and_of_fits (Xlen.wrap_wrap x w) m

theorem wrap_mergeMasked {x : Xlen} {old : Word} (h : x.wrap old = old) (mask v : Word) :
    x.wrap (mergeMasked mask old (x.wrap v)) = mergeMasked mask old (x.wrap v) := by
  rw [mergeMasked, Xlen.wrap_or, wrap_and_of_fits h, wrap_wrap_and]

theorem wrap_epcView {c : Config} {x : Xlen} {epc : Word} (h : x.wrap epc = epc) :
    x.wrap (epcView c epc) = epcView c epc := by
  unfold epcView
  split
  · exact wrap_and_of_fits h _
  · exact wrap_and_of_fits h _

theorem wrap_causeWord (x : Xlen) (i : Bool) (c : BitVec 6) : x.wrap (causeWord x i c) = causeWord x i c := by
  rw [Xlen.wrap_eq_iff, causeWord_toNat]
  have hc := c.isLt
  cases x <;> simp only [Xlen.bits] <;> split <;> omega

/-- What a trap writes into its mode's registers fits, and `xtvec` is kept. -/
theorem trapCsrsFit_recordTrap {s : State} {r : TrapCsrs} (hpc : Fits s s.pc) (h : TrapCsrsFit s r) (i : Bool) (c : BitVec 6)
    (tv : Word) : TrapCsrsFit s (recordTrap s r i c tv) :=
  ⟨h.1, hpc, wrap_causeWord .., Xlen.wrap_wrap ..⟩

theorem wordsOk_takeTrap {s : State} (h : s.WordsOk) (x : TrapTarget) (b : Bool) (c : BitVec 6) (tv : Word) :
    (s.takeTrap x b c tv).WordsOk := by
  obtain ⟨pc, regs, zero, mtrap, strap, vstrap, delegation⟩ := h
  cases x with
  | m => exact ⟨Xlen.wrap_wrap .., regs, zero, trapCsrsFit_recordTrap pc mtrap b c tv, strap, vstrap, delegation⟩
  | hs => exact ⟨Xlen.wrap_wrap .., regs, zero, mtrap, trapCsrsFit_recordTrap pc strap b c tv, vstrap, delegation⟩
  | vs => exact ⟨Xlen.wrap_wrap .., regs, zero, mtrap, strap, trapCsrsFit_recordTrap pc vstrap b c tv, delegation⟩

theorem wordsOk_writeReg {s : State} (h : s.WordsOk) (rd : RegIdx) (v : Word) : (s.writeReg rd v).WordsOk := by
  obtain ⟨pc, regs, zero, rest⟩ := h
  by_cases hrd : rd = 0
  · subst hrd
    exact ⟨pc, regs, zero, rest⟩
  · have regs_eq : (s.writeReg rd v).regs = s.regs.set rd (s.cfg.xlen.wrap v) := if_neg hrd
    refine ⟨pc, fun i => ?fit, ?zero, rest⟩
    case fit =>
      rw [regs_eq, Fin.getElem_fin, Vector.getElem_set]
      split
      · exact Xlen.wrap_wrap ..
      · exact regs i
    case zero =>
      rw [regs_eq, Fin.getElem_fin, Vector.getElem_set_ne _ _ fun e => hrd (Fin.ext e)]
      exact zero

theorem wordsOk_goto {s : State} (h : s.WordsOk) (w : Word) : (s.goto w).WordsOk := by
  obtain ⟨-, rest⟩ := h
  exact ⟨Xlen.wrap_wrap .., rest⟩

theorem wordsOk_putMstatus {s : State} (h : s.WordsOk) (w : Word) : (s.putMstatus w).WordsOk := by
  obtain ⟨q, n, hput⟩ := putMstatus_eq s w
  rw [hput]
  exact h

section TrapRegisters

variable {s : State} (h : s.WordsOk) {r : TrapCsrs} (hr : TrapCsrsFit s r)

include h hr

theorem wordsOk_mtrap : { s with mtrap := r }.WordsOk := by
  obtain ⟨pc, regs, zero, -, rest⟩ := h
  exact ⟨pc, regs, zero, hr, rest⟩

theorem wordsOk_strap : { s with strap := r }.WordsOk := by
  obtain ⟨pc, regs, zero, mtrap, -, rest⟩ := h
  exact ⟨pc, regs, zero, mtrap, hr, rest⟩

theorem wordsOk_vstrap : { s with vstrap := r }.WordsOk := by
  obtain ⟨pc, regs, zero, mtrap, strap, -, rest⟩ := h
  exact ⟨pc, regs, zero, mtrap, strap, hr, rest⟩

end TrapRegisters

/-- A CSR write leaves each word as it was, or stores one that is wrapped, and masked where the register has bits that read 0. -/
theorem wordsOk_writeCsr {s : State} (h : s.WordsOk) (r : Csr) (v : Word) : (s.writeCsr r v).WordsOk := by
  have wrapped : Fits s (s.cfg.xlen.wrap v) := Xlen.wrap_wrap ..
  have masked (m : Word) : Fits s (s.cfg.xlen.wrap v &&& m) := wrap_wrap_and ..
  have all := h
  obtain ⟨pc, regs, zero, mtrap, strap, vstrap, medeleg, mideleg, hedeleg, hideleg, mie, mip⟩ := h
  have ⟨mtvec, mepc, mcause, mtval⟩ := mtrap
  have ⟨stvec, sepc, scause, stval⟩ := strap
  have ⟨vstvec, vsepc, vscause, vstval⟩ := vstrap
  cases r
  case mstatus | mstatush => exact wordsOk_putMstatus all _
  case menvcfg | menvcfgh | mseccfg | mseccfgh | sstatus | henvcfg | henvcfgh | vsstatus | hstatus => exact all
  case mtvec => exact wordsOk_mtrap all ⟨masked _, mepc, mcause, mtval⟩
  case mepc => exact wordsOk_mtrap all ⟨mtvec, wrapped, mcause, mtval⟩
  case mcause => exact wordsOk_mtrap all ⟨mtvec, mepc, wrapped, mtval⟩
  case mtval => exact wordsOk_mtrap all ⟨mtvec, mepc, mcause, wrapped⟩
  case stvec => exact wordsOk_strap all ⟨masked _, sepc, scause, stval⟩
  case sepc => exact wordsOk_strap all ⟨stvec, wrapped, scause, stval⟩
  case scause => exact wordsOk_strap all ⟨stvec, sepc, wrapped, stval⟩
  case stval => exact wordsOk_strap all ⟨stvec, sepc, scause, wrapped⟩
  case vstvec => exact wordsOk_vstrap all ⟨masked _, vsepc, vscause, vstval⟩
  case vsepc => exact wordsOk_vstrap all ⟨vstvec, wrapped, vscause, vstval⟩
  case vscause => exact wordsOk_vstrap all ⟨vstvec, vsepc, wrapped, vstval⟩
  case vstval => exact wordsOk_vstrap all ⟨vstvec, vsepc, vscause, wrapped⟩
  case medeleg => exact ⟨pc, regs, zero, mtrap, strap, vstrap, masked _, mideleg, hedeleg, hideleg, mie, mip⟩
  case mideleg => exact ⟨pc, regs, zero, mtrap, strap, vstrap, medeleg, wrapped, hedeleg, hideleg, mie, mip⟩
  case hedeleg => exact ⟨pc, regs, zero, mtrap, strap, vstrap, medeleg, mideleg, masked _, hideleg, mie, mip⟩
  case hideleg => exact ⟨pc, regs, zero, mtrap, strap, vstrap, medeleg, mideleg, hedeleg, wrapped, mie, mip⟩
  case mie => exact ⟨pc, regs, zero, mtrap, strap, vstrap, medeleg, mideleg, hedeleg, hideleg, wrapped, mip⟩
  case mip =>
    exact ⟨pc, regs, zero, mtrap, strap, vstrap, medeleg, mideleg, hedeleg, hideleg, mie, wrap_mergeMasked mip ..⟩

/-- The host's answer changes `mip` only, which it wraps. -/
theorem wordsOk_nextAnswer {s : State} (h : s.WordsOk) : s.nextAnswer.WordsOk := by
  obtain ⟨pc, regs, zero, mtrap, strap, vstrap, medeleg, mideleg, hedeleg, hideleg, mie, -⟩ := h
  exact ⟨pc, regs, zero, mtrap, strap, vstrap, medeleg, mideleg, hedeleg, hideleg, mie, nextAnswer_mip_fits s⟩

/-- Settles O58: every write of a register, of `pc` or of a CSR wraps what it stores. -/
theorem stepKeepsWords : Obligations.StepKeepsWords := by
  intro s t h hstep
  have ⟨_, regs, zero, mtrap, strap, vstrap, rest⟩ := h
  have mepc : Fits s s.mtrap.epc := mtrap.2.1
  have sepc : Fits s s.strap.epc := strap.2.1
  have vsepc : Fits s s.vstrap.epc := vstrap.2.1
  exact holds_after_step hstep (fun x b c tv n _ => wordsOk_takeTrap h x b c tv)
    (fun _ rd v _ p _ _ => wordsOk_goto (wordsOk_writeReg h rd v) p) (fun _ _ => wordsOk_goto h _) (wordsOk_goto h _)
    ⟨wrap_epcView mepc, regs, zero, mtrap, strap, vstrap, rest⟩
    (fun _ => ⟨wrap_epcView sepc, regs, zero, mtrap, strap, vstrap, rest⟩)
    (fun _ _ => ⟨wrap_epcView vsepc, regs, zero, mtrap, strap, vstrap, rest⟩)
    (fun rd _ r v _ => wordsOk_goto (wordsOk_writeReg (wordsOk_writeCsr h r v) rd _) _) (fun _ => wordsOk_nextAnswer)

/-! ### Reset (R35 to R38) -/

section Reset

variable {c : Config} (x : Vector Word 32)

theorem memoryOk_resetOf : (State.resetOf c x).MemoryOk := ⟨rfl, nofun, nofun⟩

theorem modeOk_resetOf : (State.resetOf c x).ModeOk := ⟨rfl, nofun, rfl, nofun, nofun⟩

theorem fieldsOk_resetOf : (State.resetOf c x).FieldsOk :=
  ⟨fun _ => rfl, fun hm => ⟨false_of_absent hm, noLpExpected_of_absent hm⟩, fun hm => false_of_absent hm,
    fun hs => ⟨false_of_absent hs, noLpExpected_of_absent hs⟩, fun hu => false_of_absent hu,
    fun hh => ⟨false_of_absent hh, false_of_absent hh, noLpExpected_of_absent hh⟩, fun hu => false_of_absent hu⟩

/-- The parameters that log entry 3 admits have an `XLEN`-bit instruction address as `RESET_PC`. -/
theorem resetPc_of_wf (hc : c.wf = true) : c.xlen.wrap c.resetPc = c.resetPc ∧ AlignedPc c c.resetPc := by
  simp only [Config.wf, Bool.and_eq_true, beq_iff_eq, Bool.not_eq_true', Bool.or_eq_true, and_assoc] at hc
  obtain ⟨-, -, fits, even, align⟩ := hc
  exact ⟨fits, even, fun hC => align.resolve_left (by simp [hC])⟩

theorem wordsOk_resetOf (hc : c.wf = true) {x : Vector Word 32} (hx : ∀ r : RegIdx, c.xlen.wrap x[r] = x[r]) :
    (State.resetOf c x).WordsOk := by
  have zero : c.xlen.wrap 0#64 = 0#64 := Xlen.wrap_zero c.xlen
  have trap : TrapCsrsFit (State.resetOf c x) .reset := ⟨zero, zero, zero, zero⟩
  have regs (i : RegIdx) : c.xlen.wrap (x.set 0 0#64)[i] = (x.set 0 0#64)[i] := by
    rw [Fin.getElem_fin, Vector.getElem_set]
    split
    · exact zero
    · exact hx i
  exact ⟨(resetPc_of_wf hc).1, regs, Vector.getElem_set_self _, trap, trap, trap, zero, zero, zero, zero, zero, zero⟩

end Reset

/-- Settles O60, invariant by invariant. -/
theorem resetMeetsInvariants : Obligations.ResetMeetsInvariants := by
  rintro c x hc hx s rfl
  exact ⟨memoryOk_resetOf x, (resetPc_of_wf hc).2, modeOk_resetOf x, fieldsOk_resetOf x, wordsOk_resetOf hc hx⟩

end Sys2Proof.Machine
end

section
/-! PROOFS. How long `ELP` stays 1 and what sets it, and what code below M cannot change: `PendingLandingPadLastsOneStep`,
`WhatSetsElp`, `UserModeConfinement`, `GuestConfinement` (spec/10_state.md R17; spec/41_lpad.md R100;
spec/43_host_subset.md R144; spec/60_exceptions.md R160, R163). -/

namespace Sys2Proof.Machine

/-! ### While a landing pad is pending (R100, R163) -/

/-- What is an `lpad` decodes to one. -/
theorem decodeFetched_of_isLpad {f : Fetched} (h : f.isLpad = true) (c : Config) :
    ∃ l, decodeFetched c f = .ok (.lpad l) := by
  match f, h with
  | .code (.word w), h => exact ⟨uImmOf w, decodeWord_of_isLpadWord h⟩

/-- A trap leaves no landing pad pending. -/
theorem elp_of_trapStep {s t : State} (h : TrapStep s t) : t.elp = .noLpExpected := by
  obtain ⟨u, ⟨x, b, c, tv, hu⟩, rfl⟩ := h
  rw [nextAnswer_elp, hu, withDraws_elp, takeTrap_elp]

theorem trapStep_of_raiseIllegalFetched {f : Fetched} {s t : State} (h : raiseIllegalFetched f s = .next t) :
    TrapStep s t.nextAnswer := by
  obtain ⟨tv, n, he⟩ := raiseIllegalFetched_eq f s
  cases h.symm.trans he
  exact trapStep_takeTrap ..

/-- While CFI is active `lpad` leaves no landing pad pending, whether it completes or traps. -/
theorem exec_lpad_elp {s t : State} {l : BitVec 20} (hx : s.xfcfie = true) (h : exec (.lpad l) s = .next t) :
    t.elp = .noLpExpected := by
  refine ite_eq_elim h (fun _ h => ?active) fun hn _ => absurd hx hn
  case active =>
    refine ite_eq_elim h (fun _ h => ?trap) fun _ h => ite_eq_elim h (fun _ h => ?completes) fun _ h => ?trap'
    case completes => cases h; rfl
    case trap | trap' =>
      rw [raiseIllegal_eq] at h
      cases h
      exact takeTrap_elp ..

section Pending

variable {s : State} (hx : s.xfcfie = true) (he : s.elp = .lpExpected)

include hx he

/-- The requirement is met by an `lpad` only. -/
theorem isLpad_of_not_missing {f : Fetched} (h : s.landingPadMissing f = false) : f.isLpad = true := by
  simpa [State.landingPadMissing, hx, he] using h

/-- While CFI is active a step from a pending landing pad is a trap or executes an `lpad`. -/
theorem step_of_pending {t : State} (h : step s = .next t) :
    t.elp = .noLpExpected ∧ (TrapStep s t ∨ ∃ l, Executes s (.lpad l)) := by
  have ofTrap (ht : TrapStep s t) : t.elp = .noLpExpected ∧ (TrapStep s t ∨ ∃ l, Executes s (.lpad l)) :=
    ⟨elp_of_trapStep ht, .inl ht⟩
  rcases step_cases h with ⟨a, -, rfl⟩ | ⟨e, -, -, rfl⟩ | ⟨f, u, -, -, -, hr, rfl⟩ | ⟨f, d, u, -, -, -, -, hr, rfl⟩ |
    ⟨i, u, hi, hu, rfl⟩
  · have interrupt := trapStep_takeTrap s a.target true a.cause 0#64 s.draws
    rw [takeTrap_withDraws_self] at interrupt
    exact ofTrap interrupt
  · rw [exceptFree_eq] at ofTrap ⊢
    exact ofTrap (trapStep_takeTrap ..)
  · exact ofTrap (trapStep_of_raiseIllegalFetched hr)
  · exact ofTrap (trapStep_of_raiseIllegalFetched hr)
  · obtain ⟨-, f, -, hm, hd⟩ := id hi
    obtain ⟨l, hl⟩ := decodeFetched_of_isLpad (isLpad_of_not_missing hx he hm) s.cfg
    cases hd.symm.trans hl
    exact ⟨(nextAnswer_elp u).trans (exec_lpad_elp hx hu), .inr ⟨l, hi⟩⟩

end Pending

/-- Settles O49: a step from a pending landing pad, and that there is one. -/
theorem pendingLandingPadLastsOneStep : Obligations.PendingLandingPadLastsOneStep := by
  intro s hx he
  obtain ⟨t, h⟩ := everyStepHasANextState s
  exact ⟨t, h, step_of_pending hx he h⟩

/-! ### What sets `ELP` (R17, R88) -/

/-- Settles O50: of the forms of a step only jumps and returns set `ELP`; where it was 1 already, CFI was not active, or the
step would have cleared it. -/
theorem whatSetsElp : Obligations.WhatSetsElp := by
  intro s t h ht
  have kept (hs : s.elp = .lpExpected) : s.elp = .lpExpected ∧ s.xfcfie = false := by
    refine ⟨hs, eq_false_of_ne_true fun hx => ?_⟩
    have cleared := (step_of_pending hx hs h).1
    rw [ht] at cleared
    cases cleared
  obtain ⟨u, rfl, ⟨x, b, c, tv, n, -, rfl⟩ | ⟨i, hi, form⟩⟩ := step_form h
  · rw [nextAnswer_elp, withDraws_elp, takeTrap_elp] at ht
    cases ht
  · rw [nextAnswer_elp] at ht
    cases form with
    | trap c tv n =>
      rw [withDraws_elp, takeTrap_elp] at ht
      cases ht
    | plain rd v e p hp =>
      have ht : e = .lpExpected := ht
      rcases hp.elp with he | he | ⟨-, expects, active⟩
      · exact .inl (kept (he.symm.trans ht))
      · cases he.symm.trans ht
      · exact .inr (.inl ⟨i, hi, expects, active⟩)
    | store => exact .inl (kept ht)
    | fenceI => exact .inl (kept ht)
    | mret hret => exact .inr (.inr ⟨i, hi, by rw [hret]; rfl⟩)
    | sret hret => exact .inr (.inr ⟨i, hi, by rw [hret]; rfl⟩)
    | vsret hret => exact .inr (.inr ⟨i, hi, by rw [hret]; rfl⟩)
    | csrWrite rd n r v => exact .inl (kept ((writeCsr_elp s r v).symm.trans ht))

/-! ### Code below M (R144, R160) -/

theorem sameControl_setElp {s t : State} (h : SameControl s t) (e : Elp) : SameControl s (t.setElp e) := { h with }

theorem sameControl_syncFetch (s : State) : SameControl s s.syncFetch := { sameControl_refl s with }

/-- What a step of a mode below M can do: a trap, an instruction that changes no control register, a return by `sret`, or a write
of a CSR that the mode reaches. -/
inductive BelowMForm (s : State) : State → Prop where
  | trap {u : State} (h : TrapFrom s u) : BelowMForm s u
  | same {u : State} (h : SameControl s u) (ha : u.answers = s.answers) : BelowMForm s u
  | sret (hv : s.virt = false) (hp : s.priv ≠ .u) : BelowMForm s s.returnFromS
  | vsret (hp : s.priv ≠ .u) : BelowMForm s s.returnFromVS
  | csrWrite (rd : RegIdx) (r : Csr) (v : Word) (h : CsrReach s r) :
    BelowMForm s (((s.writeCsr r v).writeReg rd (s.readCsr r)).advance 4)

theorem step_belowM {s t : State} (hp : s.priv ≠ .m) (h : step s = .next t) : ∃ u, t = u.nextAnswer ∧ BelowMForm s u := by
  obtain ⟨u, rfl, ⟨x, b, c, tv, n, -, rfl⟩ | ⟨i, -, form⟩⟩ := step_form h
  · exact ⟨_, rfl, .trap (trapFrom_takeTrap ..)⟩
  · refine ⟨u, rfl, ?_⟩
    cases form with
    | trap c tv n => exact .trap (trapFrom_takeTrap ..)
    | plain rd v e p =>
      exact .same (sameControl_goto (sameControl_setElp (sameControl_writeReg (sameControl_refl s) rd v) e) p) rfl
    | store a v => exact .same (sameControl_advance (sameControl_store32 s a v) 4) rfl
    | fenceI => exact .same (sameControl_advance (sameControl_syncFetch s) 4) rfl
    | mret _ hm => exact absurd hm hp
    | sret _ _ hv hu => exact .sret hv hu
    | vsret _ _ _ hu => exact .vsret hu
    | csrWrite rd n r v hr => exact .csrWrite rd r v (csrAccess_reaches hr)

/-- Settles O51: from U no return executes and no CSR is reached. -/
theorem userModeConfinement : Obligations.UserModeConfinement := by
  intro s t hp h
  obtain ⟨u, rfl, form⟩ := step_belowM (by simp [hp]) h
  cases form with
  | trap hu => exact .inl ⟨u, hu, rfl⟩
  | same hu ha => exact .inr ⟨u, rfl, hu, ha⟩
  | sret _ hu => exact absurd hp hu
  | vsret hu => exact absurd hp hu
  | csrWrite _ _ _ hr => exact absurd hp (priv_ne_u_of_reach hr)

/-- Every M-level and HS-level register is the same, `V` too, and no answer of the host is used up. -/
structure SameAboveGuest (s u : State) : Prop where
  mip : u.mip = s.mip
  answers : u.answers = s.answers
  virt : u.virt = s.virt
  mstatus : u.mstatus = s.mstatus
  mfcfie : u.mfcfie = s.mfcfie
  menvcfg : u.menvcfg = s.menvcfg
  henvcfg : u.henvcfg = s.henvcfg
  hstatus : u.hstatus = s.hstatus
  mtrap : u.mtrap = s.mtrap
  strap : u.strap = s.strap
  medeleg : u.medeleg = s.medeleg
  mideleg : u.mideleg = s.mideleg
  hedeleg : u.hedeleg = s.hedeleg
  hideleg : u.hideleg = s.hideleg
  mie : u.mie = s.mie

theorem sameAboveGuest_of_sameControl {s u : State} (h : SameControl s u) (ha : u.answers = s.answers) :
    SameAboveGuest s u := { h with answers := ha }

theorem sameAboveGuest_returnFromVS (s : State) : SameAboveGuest s s.returnFromVS :=
  ⟨rfl, rfl, rfl, rfl, rfl, rfl, rfl, rfl, rfl, rfl, rfl, rfl, rfl, rfl, rfl⟩

/-- A write of a VS register changes nothing above the guest. -/
theorem sameAboveGuest_writeCsr (s : State) {r : Csr} (hr : r ∈ [Csr.vsstatus, .vstvec, .vsepc, .vscause, .vstval]) (v : Word) :
    SameAboveGuest s (s.writeCsr r v) := by
  simp only [List.mem_cons, List.not_mem_nil, or_false] at hr
  rcases hr with rfl | rfl | rfl | rfl | rfl <;>
    exact ⟨rfl, rfl, rfl, rfl, rfl, rfl, rfl, rfl, rfl, rfl, rfl, rfl, rfl, rfl, rfl⟩

/-- Settles O52: from VS an `sret` returns through `vsstatus`, and a CSR write reaches the VS registers only. -/
theorem guestConfinement : Obligations.GuestConfinement := by
  intro s t hp hv h
  obtain ⟨u, rfl, form⟩ := step_belowM (by simp [hp]) h
  have guest : TrapFrom s u ∨ SameAboveGuest s u := by
    cases form with
    | trap hu => exact .inl hu
    | same hu ha => exact .inr (sameAboveGuest_of_sameControl hu ha)
    | sret hv' => simp [hv] at hv'
    | vsret => exact .inr (sameAboveGuest_returnFromVS s)
    | csrWrite rd r v hr => exact .inr { sameAboveGuest_writeCsr s (reach_from_vs hr hp hv) v with }
  rcases guest with hu | hu
  · exact .inl ⟨u, hu, rfl⟩
  · exact .inr ⟨⟨u, rfl, hu.mip, hu.answers⟩, hu.virt.trans hv, hu.mstatus, hu.mfcfie, hu.menvcfg, hu.henvcfg, hu.hstatus,
      hu.mtrap, hu.strap, hu.medeleg, hu.mideleg, hu.hedeleg, hu.hideleg, hu.mie⟩

end Sys2Proof.Machine
end

section
/-! PROOFS. What single instructions do: `JalrResult`, `CompressedJumpResults`, `LpadFaults`, `LwResult`, `LoadAfterStore`,
`EcallTraps`, `WfiResult` (spec/40_indirect_jumps.md R83 to R86; spec/41_lpad.md R101; spec/43_host_subset.md R126, R135, R137). -/

namespace Sys2Proof.Machine

/-! ### Register-indirect jumps (R83 to R86) -/

theorem elpAfterJump_eq (s : State) (k : JumpKind) (rd rs1 : RegIdx) :
    elpAfterJump s k rd rs1 = if s.xfcfie = true ∧ isLpExpected k rd rs1 = true then .lpExpected else s.elp := by
  simp only [elpAfterJump, Bool.and_eq_true]

/-- A link, a new `ELP` and a new `pc`, and nothing else. -/
theorem link_jump_frame (s : State) (rd : RegIdx) (v : Word) (e : Elp) (w : Word) :
    (((s.writeReg rd v).setElp e).goto w).readReg rd = writtenValue s rd v ∧
      SameRegsBut rd s (((s.writeReg rd v).setElp e).goto w) ∧
      SameControl s (((s.writeReg rd v).setElp e).goto w) ∧ SameMemory s (((s.writeReg rd v).setElp e).goto w) :=
  ⟨readReg_writeReg_eq_writtenValue s rd v, sameRegsBut_writeReg s rd v,
    sameControl_goto (sameControl_setElp (sameControl_writeReg (sameControl_refl s) rd v) e) w,
    ⟨fun _ => rfl, rfl, rfl, rfl⟩⟩

theorem wrap_clearBit0 (x : Xlen) (w : Word) : x.wrap (clearBit0 w) = x.wrap w &&& ~~~(1#64) := Xlen.wrap_and ..

/-- Settles O10, by the alignment of the target. -/
theorem jalrResult : Obligations.JalrResult := by
  refine fun s rd rs1 imm => ⟨fun ha => ?aligned, fun hC hw => ?misaligned⟩
  case aligned =>
    obtain ⟨link, regs, control, memory⟩ := link_jump_frame s rd (s.pc + 4#64) (elpAfterJump s .jalr rd rs1)
      (clearBit0 (s.regPlusImm rs1 imm))
    refine ⟨_, jumpTo_of_aligned ha _, ?pc, link, regs, elpAfterJump_eq .., control, memory⟩
    case pc => exact (wrap_clearBit0 ..).trans (congrArg (· &&& ~~~(1#64)) (Xlen.wrap_wrap s.cfg.xlen _))
  case misaligned => exact (jumpTo_of_misaligned hC hw _).trans (raise_code rfl _ s)

/-- Illegal-instruction with unsettled instruction bits is a trap with cause 2 that leaves the registers. -/
theorem raiseIllegalUnsettled_frame (s : State) :
    ∃ t, raiseIllegalUnsettled s = .next t ∧ TrapFrom s t ∧ (trapCsrsOf t (s.exceptionTarget 2)).cause = 2#64 ∧
      SameRegs s t := by
  obtain ⟨tv, n, run⟩ := raiseIllegalUnsettled_eq s
  obtain ⟨trap, cause, -, regs, -⟩ := takeTrap_exception_frame s (s.exceptionTarget 2) 2 tv n
  exact ⟨_, run, trap, cause, regs⟩

/-- Settles O11, by `HAS_C`. -/
theorem compressedJumpResults : Obligations.CompressedJumpResults := by
  refine fun s rs1 => ⟨fun hC => ?cJr, fun hC => ?cJalr, fun hC i hi => ?absent⟩
  case cJr =>
    have expected : isLpExpected .cJr 0 rs1 = true ↔ rs1 ≠ 1 ∧ rs1 ≠ 5 := by
      rw [← not_or, ← isLpExpected_cJr_eq_false_iff, Bool.not_eq_false]
    obtain ⟨-, regs, control, memory⟩ := link_jump_frame s 0 0#64 (elpAfterJump s .cJr 0 rs1) (clearBit0 (s.readReg rs1))
    refine ⟨_, if_pos hC, rfl, fun _ => rfl, ?elp, control, memory⟩
    case elp => exact (elpAfterJump_eq ..).trans (if_congr (and_congr_right' expected) rfl rfl)
  case cJalr =>
    obtain ⟨link, regs, control, memory⟩ := link_jump_frame s 1 (s.pc + 2#64) (elpAfterJump s .cJalr 1 rs1)
      (clearBit0 (s.readReg rs1))
    refine ⟨_, if_pos hC, rfl, link, regs, ?elp, control, memory⟩
    case elp => exact (elpAfterJump_eq ..).trans (by simp only [isLpExpected_cJalr, and_true])
  case absent =>
    have run : exec i s = raiseIllegalUnsettled s := by
      rcases hi with rfl | rfl
      · exact if_neg (by simp [hC])
      · exact if_neg (by simp [hC])
    rw [run]
    exact raiseIllegalUnsettled_frame s

/-! ### Exceptions with a stated trap value (R151, R153, R154) -/

/-- What trap delivery saves and records, and what it leaves alone. -/
theorem takeTrap_frame (s : State) (x : TrapTarget) (i : Bool) (c : BitVec 6) (tv : Word) :
    TrapFrom s (s.takeTrap x i c tv) ∧ trapCsrsOf (s.takeTrap x i c tv) x = recordTrap s (trapCsrsOf s x) i c tv ∧
      savedElp (s.takeTrap x i c tv) x = s.elp ∧ (s.takeTrap x i c tv).elp = .noLpExpected ∧
      SameRegs s (s.takeTrap x i c tv) ∧ SameMemory s (s.takeTrap x i c tv) := by
  have trap := trapFrom_takeTrap s x i c tv s.draws
  rw [takeTrap_withDraws_self] at trap
  exact ⟨trap, trapCsrsOf_takeTrap .., savedElp_takeTrap .., takeTrap_elp .., readReg_takeTrap s x i c tv,
    ⟨fun a => by rw [takeTrap_mem], takeTrap_staleStores .., takeTrap_answers .., takeTrap_draws ..⟩⟩

/-- While CFI is active an `lpad` that fails one of its tests is illegal. -/
theorem exec_lpad_of_fault {s : State} {lpl : BitVec 20} (hx : s.xfcfie = true)
    (h : s.pc.extractLsb' 0 2 ≠ 0b00#2 ∨ (lpl ≠ 0#20 ∧ lpl ≠ (s.readReg 7).extractLsb' 12 20)) :
    exec (.lpad lpl) s = raiseIllegal (.lpad lpl) s := by
  have fails : isFourAligned s.pc = false ∨ labelMatches lpl (s.readReg 7) = false := by
    rwa [← Bool.not_eq_true, isFourAligned_iff, ← Bool.not_eq_true, labelMatches_iff, not_or]
  rcases fails with ha | hl
  · simp [exec, execLpad, hx, ha]
  · simp [exec, execLpad, hx, hl]

/-- The trap value of an `lpad` that faults: zero, or its word (R151). -/
theorem illegalTval_lpad (s : State) (lpl : BitVec 20) :
    s.illegalTval (encode (.lpad lpl)) = if s.cfg.xtvalIllegal = .zero then 0#64 else (lpl ++ 0x017#12).setWidth 64 := by
  have word : lpl ++ 0b00000#5 ++ 0b0010111#7 = lpl ++ 0x017#12 := by
    apply BitVec.eq_of_getLsbD_eq
    intro i hi
    simp only [BitVec.getLsbD_append]
    interval_cases i <;> rfl
  cases hx : s.cfg.xtvalIllegal with
  | zero => simp [State.illegalTval, hx]
  | instructionBits => simp [State.illegalTval, hx, encode, uType, Code.bits, word]

/-- Settles O13: the fault is illegal-instruction by the `lpad` itself. -/
theorem lpadFaults : Obligations.LpadFaults := by
  intro s lpl hx h
  obtain ⟨trap, csrs, saved, elp, frame⟩ :=
    takeTrap_frame s (s.exceptionTarget 2) false 2 (s.illegalTval (encode (.lpad lpl)))
  refine ⟨_, (exec_lpad_of_fault hx h).trans (raiseIllegal_eq ..), trap, saved, elp, ?cause, ?epc, ?tval, frame⟩
  case cause => rw [csrs]; exact causeWord_exception s.cfg.xlen 2
  case epc => rw [csrs]; rfl
  case tval => rw [csrs]; exact (illegalTval_fits ..).trans (illegalTval_lpad s lpl)

/-- Settles O26, mode by mode. -/
theorem ecallTraps : Obligations.EcallTraps := by
  intro s c h
  have code : exceptionCode s.ecallException = c := by
    rcases h with ⟨hp, rfl⟩ | ⟨hp, hv, rfl⟩ | ⟨hp, hv, rfl⟩ | ⟨hp, rfl⟩ <;> simp only [State.ecallException, *] <;> rfl
  obtain ⟨-, csrs, frame⟩ := takeTrap_frame s (s.exceptionTarget c) false c 0#64
  refine ⟨_, raise_code code 0#64 s, rfl, ?cause, ?epc, ?tval, frame⟩
  case cause => rw [csrs]; exact causeWord_exception s.cfg.xlen c
  case epc => rw [csrs]; rfl
  case tval => rw [csrs]; exact Xlen.wrap_zero s.cfg.xlen

/-- Where `wfi` is illegal once its bound is over (R137). -/
theorem wfiBounded_iff (s : State) :
    s.wfiBounded = true ↔ (s.cfg.hasS = true ∧ s.priv = .u) ∨ (s.mstatus.tw = true ∧ s.priv ≠ .m) := by
  simp [State.wfiBounded]

/-- Settles O28, by the model's test. -/
theorem wfiResult : Obligations.WfiResult := by
  refine fun s => ⟨fun h => ?completes, fun hn hb => ?illegal⟩
  case completes =>
    have pass : ¬(s.cfg.wfiBound = .noWait ∧ s.wfiBounded = true) := by
      rw [wfiBounded_iff]
      rcases h with hc | hp | ⟨ht, hu⟩
      · simp [hc]
      · simp [hp]
      · simp [ht, hu]
    exact ⟨_, if_neg pass, rfl, goto_frame s (s.pc + 4#64)⟩
  case illegal =>
    have run : exec .wfi s = raiseIllegal .wfi s := if_pos ⟨hn, (wfiBounded_iff s).2 hb⟩
    rw [run]
    exact raiseIllegal_frame .wfi s

/-! ### Loads (R41, R126) -/

/-- A word is its four bytes. -/
theorem word_bytes (v : BitVec 32) :
    v.extractLsb' 24 8 ++ v.extractLsb' 16 8 ++ v.extractLsb' 8 8 ++ v.extractLsb' 0 8 = v := by
  rw [BitVec.extractLsb'_append_extractLsb'_eq_extractLsb' (by rfl),
    BitVec.extractLsb'_append_extractLsb'_eq_extractLsb' (by rfl)]
  exact (BitVec.extractLsb'_append_extractLsb'_eq_extractLsb' rfl).trans BitVec.extractLsb'_eq_self

/-- Settles O21: each byte is read back, and a word is its four bytes. -/
theorem loadAfterStore : Obligations.LoadAfterStore := by
  intro s a v hm
  have byte {k : Nat} (hk : k < 4) := store32_read_byte s a v hm hk
  rw [State.load32, Memory.read32, store32_cfg, byte (k := 0) (by decide), byte (k := 1) (by decide),
    byte (k := 2) (by decide), byte (k := 3) (by decide)]
  exact word_bytes v

/-- `lw` where neither its alignment nor the host's memory makes it trap (R126). -/
theorem exec_lw_of_no_trap {s : State} (rd : RegIdx) {rs1 : RegIdx} {imm : BitVec 12}
    (ha : s.dataMisaligned (s.regPlusImm rs1 imm) = false) (hd : s.answer.data = none) :
    exec (.lw rd rs1 imm) s = .next ((s.writeReg rd (s.sext (s.load32 (s.regPlusImm rs1 imm)))).advance 4) := by
  simp [exec, execLw, ha, hd]

/-- Settles O18: `lw` is a register result, the sign extension of the four bytes. -/
theorem lwResult : Obligations.LwResult := by
  intro s rd rs1 imm ha hd
  obtain ⟨value, frame⟩ :=
    writeReg_goto_frame s rd (s.sext (s.load32 (s.regPlusImm rs1 imm))) (s.pc + 4#64)
  refine ⟨_, exec_lw_of_no_trap rd ha hd, ?value, rfl, frame⟩
  case value =>
    rintro _ _ _ _ rfl rfl rfl rfl
    exact value.trans (writtenValue_wrap s rd _)

end Sys2Proof.Machine
end

section
/-! PROOFS. Trap entry and return, the CSR numbers of the extension, and a write of `MFCFIE`: `TrapEntry`, `MretResult`,
`TrapReturnFaults`, `CsrNumbers`, `EnableGovernsNextInstruction` (spec/60_exceptions.md R154; spec/42_trap_return.md R110 to R114;
spec/10_state.md R31; spec/20_memory.md R51). -/

namespace Sys2Proof.Machine

/-! ### Trap entry (R154) -/

theorem sameEnables_takeTrap (s : State) (x : TrapTarget) (i : Bool) (c : BitVec 6) (tv : Word) :
    SameEnables s (s.takeTrap x i c tv) := by
  cases x <;> exact ⟨rfl, rfl, rfl, rfl, rfl, rfl, rfl, rfl, rfl, rfl⟩

/-- The trap registers of the other modes stay. -/
theorem trapCsrsOf_takeTrap_of_ne (s : State) {x y : TrapTarget} (h : y ≠ x) (i : Bool) (c : BitVec 6) (tv : Word) :
    trapCsrsOf (s.takeTrap x i c tv) y = trapCsrsOf s y := by
  cases x <;> cases y
  case m.m | hs.hs | vs.vs => exact absurd rfl h
  all_goals rfl

theorem tvecVectored_iff (tvec : Word) : tvecVectored tvec = true ↔ tvec.extractLsb' 0 2 = 1#2 := beq_iff_eq

/-- The handler's address in the terms of R154. -/
theorem trapVector_eq (x : Xlen) (tvec : Word) (i : Bool) (c : BitVec 6) :
    trapVector x tvec i c =
      x.wrap ((tvec &&& ~~~(3#64)) + (if i = true ∧ tvec.extractLsb' 0 2 = 1#2 then 4#64 * c.setWidth 64 else 0#64)) := by
  simp only [trapVector, tvecBase, Bool.and_eq_true, tvecVectored_iff]

/-- Settles O30, for every mode from what delivery records, and for each mode from its own stack. -/
theorem trapEntry : Obligations.TrapEntry := by
  refine fun s i c tv => ⟨fun x => ?every, ?m, ?hs, ?vs⟩
  case every =>
    obtain ⟨-, csrs, -, -, regs, memory⟩ := takeTrap_frame s x i c tv
    rw [csrs]
    exact ⟨rfl, rfl, causeWord_toNat s.cfg.xlen i c, rfl, (takeTrap_pc ..).trans (trapVector_eq ..),
      fun y hy => trapCsrsOf_takeTrap_of_ne s hy i c tv, sameEnables_takeTrap s x i c tv, regs, memory⟩
  case m => rintro t rfl; exact ⟨rfl, rfl, rfl, rfl, rfl⟩
  case hs => rintro t rfl; exact ⟨rfl, rfl, rfl, rfl, rfl⟩
  case vs => rintro t rfl; exact ⟨rfl, rfl, rfl, rfl, rfl⟩

/-! ### Trap returns (R110 to R114) -/

theorem returnFromM_virt_iff (s : State) :
    s.returnFromM.virt = true ↔ s.cfg.hasH = true ∧ s.mstatus.mpp ≠ .m ∧ s.mstatus.mpv = true := by
  rw [returnFromM_virt, Bool.and_eq_true, Bool.and_eq_true, decide_eq_true_iff, and_assoc]

theorem trapCsrsOf_returnFromM (s : State) (x : TrapTarget) : trapCsrsOf s.returnFromM x = trapCsrsOf s x := by
  cases x <;> rfl

theorem sameEnables_returnFromM (s : State) : SameEnables s s.returnFromM :=
  ⟨rfl, rfl, rfl, rfl, rfl, rfl, rfl, rfl, rfl, rfl⟩

/-- Settles O32: in M-mode `mret` is `returnFromM`, field by field. -/
theorem mretResult : Obligations.MretResult := by
  intro s hp
  exact ⟨_, exec_mret_of_m hp, returnFromM_elp s, returnFromM_priv s, returnFromM_virt_iff s, returnFromM_mstatus s,
    (returnFromM_pc s).trans (epcView_eq ..), returnFromM_vsstatus s, returnFromM_hstatus s, trapCsrsOf_returnFromM s,
    sameEnables_returnFromM s, readReg_congr (returnFromM_regs s), ⟨fun _ => rfl, rfl, rfl, rfl⟩⟩

/-- An exception saves and clears `ELP`, besides what it records and leaves alone. -/
theorem raises_saves {r : Result} {c : BitVec 6} {s : State} (h : Raises r c s) :
    ∃ t, r = .next t ∧ TrapFrom s t ∧ (trapCsrsOf t (s.exceptionTarget c)).cause = c.setWidth 64 ∧
      (trapCsrsOf t (s.exceptionTarget c)).epc = s.pc ∧ savedElp t (s.exceptionTarget c) = s.elp ∧ t.elp = .noLpExpected ∧
      SameRegs s t ∧ ∀ a, t.mem.read a = s.mem.read a := by
  obtain ⟨tv, n, run⟩ : ∃ tv n, r = .next ((s.takeTrap (s.exceptionTarget c) false c tv).withDraws n) := by
    obtain ⟨e, rfl, ⟨tv, rfl⟩ | rfl⟩ := h
    · exact ⟨tv, _, raise_eq_draws e tv s⟩
    · exact ⟨_, _, raiseFree_eq e s⟩
  obtain ⟨trap, cause, epc, frame⟩ := takeTrap_exception_frame s (s.exceptionTarget c) c tv n
  refine ⟨_, run, trap, cause, epc, ?saved, ?elp, frame⟩
  case saved => rw [savedElp_withDraws, savedElp_takeTrap]
  case elp => rw [withDraws_elp, takeTrap_elp]

theorem raises_raiseIllegal (i : Instr) (s : State) : Raises (raiseIllegal i s) 2 s :=
  ⟨.illegalInstruction, rfl, .inl ⟨_, rfl⟩⟩

theorem raises_raiseVirtual (s : State) : Raises (raiseVirtual s) 22 s := ⟨.virtualInstruction, rfl, .inr rfl⟩

/-- Settles O34: where a return may not execute, it is one `raise`, of the exception with the stated code. -/
theorem trapReturnFaults : Obligations.TrapReturnFaults := by
  intro s i c h
  apply raises_saves
  rcases h with ⟨rfl, rfl, hp⟩ | ⟨rfl, rfl, hS⟩ | ⟨rfl, rfl, hv, hp⟩ | ⟨rfl, rfl, hS, hv, hp⟩
  · have run : exec .mret s = raiseIllegal .mret s := if_neg hp
    rw [run]
    exact raises_raiseIllegal ..
  · have run : exec .sret s = raiseIllegal .sret s := if_pos hS
    rw [run]
    exact raises_raiseIllegal ..
  · have run : exec .sret s = raiseIllegal .sret s := by
      rcases hp with hp | ⟨hp, ht⟩
      · simp [exec, execSret, hv, hp]
      · simp [exec, execSret, hv, hp, ht]
    rw [run]
    exact raises_raiseIllegal ..
  · have run : exec .sret s = raiseVirtual s := by
      rcases hp with hp | ht
      · simp [exec, execSret, hS, hv, hp]
      · simp [exec, execSret, hS, hv, ht]
    rw [run]
    exact raises_raiseVirtual s

/-! ### CSR numbers (R31, R144) -/

section Reaches

variable {s : State} {n : BitVec 12} {r : Csr} (hn : csrOfNumber n = some r) (he : csrExists s.cfg r = true)

include hn he

theorem csrAccess_of_level_m (hl : n.extractLsb' 8 2 = 0b11#2) (hp : s.priv = .m) (w : Bool) :
    s.csrAccess n w = .reaches r := by
  simp [State.csrAccess, hn, he, csrReadOnly_of_csrOfNumber hn, csrLevel_eq_m hl, hp]

theorem csrAccess_of_level_hs (hl : n.extractLsb' 8 2 = 0b10#2) (hp : s.priv ≠ .u) (hv : s.virt = false) (w : Bool) :
    s.csrAccess n w = .reaches r := by
  simp [State.csrAccess, hn, he, csrReadOnly_of_csrOfNumber hn, csrLevel_eq_hs hl, hp, hv]

theorem csrAccess_of_level_s (hl : n.extractLsb' 8 2 = 0b01#2) (hp : s.priv ≠ .u) (w : Bool) :
    s.csrAccess n w = .reaches (if s.virt = true then csrVirtualised r else r) := by
  cases hv : s.virt <;> simp [State.csrAccess, hn, he, csrReadOnly_of_csrOfNumber hn, csrLevel_eq_s hl, hp, hv]

end Reaches

/-- Settles O37: each number's register and level, where the register exists. -/
theorem csrNumbers : Obligations.CsrNumbers := by
  refine fun s w => ⟨fun hp => ?m, fun hS hp => ?s, fun hH hp hv => ?hs⟩
  case m =>
    have reach {n : BitVec 12} {r : Csr} (hn : csrOfNumber n = some r) (hl : n.extractLsb' 8 2 = 0b11#2)
        (he : csrExists s.cfg r = true) : s.csrAccess n w = .reaches r := csrAccess_of_level_m hn he hl hp w
    refine ⟨reach rfl rfl rfl, fun hx => ⟨reach rfl rfl ?_, reach rfl rfl ?_⟩, fun hSU => reach rfl rfl ?_,
      fun hz => ⟨reach rfl rfl hz, fun hx => reach rfl rfl ?_⟩⟩
    · simp [csrExists, hx]
    · simp [csrExists, hx]
    · simpa [csrExists] using hSU
    · simp [csrExists, hz, hx]
  case s => exact csrAccess_of_level_s (r := .sstatus) rfl hS rfl hp w
  case hs =>
    have reach {n : BitVec 12} {r : Csr} (hn : csrOfNumber n = some r) (hl : n.extractLsb' 8 2 = 0b10#2)
        (he : csrExists s.cfg r = true) : s.csrAccess n w = .reaches r := csrAccess_of_level_hs hn he hl hp hv w
    exact ⟨reach rfl rfl hH, reach rfl rfl hH, fun hx => reach rfl rfl (by simp [csrExists, hH, hx])⟩

/-! ### A write of `MFCFIE` (R51) -/

/-- `mseccfg` stores the written bit of a field that lies in it. -/
theorem writeCsr_mseccfg_mfcfie {s : State} (hz : s.cfg.hasZicfisslp = true)
    (hp : s.cfg.xlen = .x64 ∨ s.cfg.pos.mseccfgMfcfie < 32) (v : Word) :
    (s.writeCsr .mseccfg v).mfcfie = v.getLsbD s.cfg.pos.mseccfgMfcfie := by
  have written : (s.writeCsr .mseccfg v).mfcfie =
      (s.cfg.hasMfcfie && (mergeLow s.cfg.xlen s.mseccfgWord v).getLsbD s.cfg.pos.mseccfgMfcfie) := rfl
  rw [written, hasMfcfie_eq hz, Bool.true_and]
  rcases hp with hx | hlt
  · rw [hx]; rfl
  · rw [mergeLow_getLsbD _ _ _ (by omega), if_pos (lt_bits_of_lt hlt _)]

/-- Settles O53: the write reaches `mseccfg`, and in M-mode `MFCFIE` is what makes CFI active. -/
theorem enableGovernsNextInstruction : Obligations.EnableGovernsNextInstruction := by
  intro s rs1 hp hz hpos
  have access : s.csrAccess 0x747#12 true = .reaches .mseccfg :=
    csrAccess_of_level_m (r := .mseccfg) rfl hz rfl hp true
  obtain ⟨t, run, -, regs, -, elp, -, -, -, -, written⟩ :=
    csrInstruction_reaches_frame access (.csrrw 0 rs1 0x747#12) 0 (fun _ => s.readReg rs1)
  obtain ⟨control, -⟩ := written rfl
  have active : t.xfcfie = t.mfcfie :=
    xfcfie_m (by rw [control.cfg, writeCsr_cfg, hz]) (by rw [control.priv, writeCsr_priv, hp])
  refine ⟨t, run, ?active, elp, fun r => ?regs⟩
  case active => rw [active, control.mfcfie, writeCsr_mseccfg_mfcfie hz hpos]
  case regs =>
    by_cases hr : r = 0
    · rw [hr, readReg_zero, readReg_zero]
    · exact regs r hr

end Sys2Proof.Machine
end

section
/-! PROOFS. What a step fetches and executes, and the encodings it refuses: `StepRunsDecoded`, `BytesAtPcExecute`,
`LandingPadRequirement`, `IllegalEncodingTraps` (spec/20_memory.md R41; spec/30_encoding.md R60, R68; spec/41_lpad.md R100;
spec/60_exceptions.md R151, R155). -/

namespace Sys2Proof.Machine

/-! ### The step that executes (R155) -/

theorem step_of_executes {s : State} {i : Instr} (h : Executes s i) : step s = mapNext State.nextAnswer (exec i s) := by
  obtain ⟨hi, f, hf, hm, hd⟩ := h
  simp [step, stepAnswered, hi, hf, hm, execFetched, hd]

/-- Settles O42: the three tests before the instruction are passed, so that the step runs it. -/
theorem stepRunsDecoded : Obligations.StepRunsDecoded := fun _ _ h _ => ⟨step_of_executes h, fun _ => rfl⟩

/-! ### What the fetch brings (R41, R60) -/

theorem fetch_half {s : State} (h : s.answer.fetch = none)
    (hl : lengthOf (s.fetchParcel s.answer.staleLow s.pc) = .half) :
    s.fetch = .ok (.code (.half (s.fetchParcel s.answer.staleLow s.pc))) := by
  simp only [State.fetch, h, hl]

theorem fetch_word {s : State} (h : s.answer.fetch = none)
    (hl : lengthOf (s.fetchParcel s.answer.staleLow s.pc) = .word) :
    s.fetch = .ok (.code (.word (joinParcels (s.fetchParcel s.answer.staleLow s.pc)
      (s.fetchParcel s.answer.staleHigh (s.pc + 2#64))))) := by
  simp only [State.fetch, h, hl]

theorem fetch_long {s : State} (h : s.answer.fetch = none)
    (hl : lengthOf (s.fetchParcel s.answer.staleLow s.pc) = .long) :
    s.fetch = .ok (.long (s.fetchParcel s.answer.staleLow s.pc)) := by
  simp only [State.fetch, h, hl]

/-- The parcel after the one at `a` is the next two bytes. -/
theorem read16_next (m : Memory) (x : Xlen) (a : Word) :
    m.read16 x (a + 2#64) = m.read (byteAddress x a 3) ++ m.read (byteAddress x a 2) := by
  simp only [Memory.read16, byteAddress, BitVec.add_assoc]
  rfl

/-- A quiet fetch brings the instruction whose stored bytes memory holds at `pc`. -/
theorem fetch_of_stored {s : State} {i : Instr} (hq : s.answer = .quiet)
    (hb : ∀ k, (h : k < (encode i).bytes.length) → s.mem.read (byteAddress s.cfg.xlen s.pc k) = (encode i).bytes[k]) :
    s.fetch = .ok (.code (encode i)) := by
  have seen (a : Word) : s.fetchParcel s.answer.staleLow a = s.mem.read16 s.cfg.xlen a := by
    rw [hq]
    exact fetchParcel_nil s a
  have seenHigh (a : Word) : s.fetchParcel s.answer.staleHigh a = s.mem.read16 s.cfg.xlen a := by
    rw [hq]
    exact fetchParcel_nil s a
  have quiet : s.answer.fetch = none := by rw [hq]; rfl
  cases he : encode i with
  | half p =>
    simp only [he] at hb
    have byte {k : Nat} (hk : k < 2) := hb k hk
    have low : s.fetchParcel s.answer.staleLow s.pc = p := by
      rw [seen, Memory.read16, byte (k := 0) (by decide), byte (k := 1) (by decide)]
      exact parcel_bytes p
    rw [fetch_half quiet (by rw [low]; exact lengthOf_encode_half he), low]
  | word w =>
    simp only [he] at hb
    have byte {k : Nat} (hk : k < 4) := hb k hk
    have low : s.fetchParcel s.answer.staleLow s.pc = w.extractLsb' 0 16 := by
      rw [seen, Memory.read16, byte (k := 0) (by decide), byte (k := 1) (by decide)]
      exact word_low_bytes w
    have high : s.fetchParcel s.answer.staleHigh (s.pc + 2#64) = w.extractLsb' 16 16 := by
      rw [seenHigh, read16_next, byte (k := 2) (by decide), byte (k := 3) (by decide)]
      exact word_high_bytes w
    rw [fetch_word quiet (by rw [low]; exact lengthOf_encode_word he), low, high, joinParcels_parcels]

/-- Where 16-bit instructions exist or the instruction is none of them, what is fetched decodes to it. -/
theorem decodeFetched_encode {c : Config} {i : Instr} (hwf : i.wf = true) (hC : c.hasC = true ∨ (encode i).length = 4) :
    decodeFetched c (.code (encode i)) = .ok i := by
  have decoded := decode_encode hwf
  cases he : encode i with
  | half p =>
    rw [he] at decoded hC
    have hC : c.hasC = true := hC.resolve_right (by simp [Code.length])
    exact (if_pos hC).trans decoded
  | word w =>
    rw [he] at decoded
    exact decoded

/-- The word of an `lpad` is one. -/
theorem isLpad_encode_lpad (l : BitVec 20) : (Fetched.code (encode (.lpad l))).isLpad = true :=
  isLpadWord_of_decodeWord (decodeWord_uType_lpad l)

/-- Settles O43: the fetch brings the stored form, which meets the requirement and decodes to the instruction. -/
theorem bytesAtPcExecute : Obligations.BytesAtPcExecute := by
  intro s i hwf hq hb hC hl
  have noInterrupt : s.takenInterrupt = none := takenInterrupt_of_none (by rw [hq]; rfl)
  refine ⟨noInterrupt, _, fetch_of_stored hq hb, ?required, decodeFetched_encode hwf hC⟩
  case required =>
    rcases hl with hx | he | ⟨l, rfl⟩
    · exact landingPadMissing_of_inactive hx _
    · simp [State.landingPadMissing, he]
    · simp [State.landingPadMissing, isLpad_encode_lpad]

/-! ### Illegal-instruction on what was fetched (R68, R100, R151) -/

/-- A missing landing pad or an encoding that is no instruction ends the step in the same way. -/
theorem step_of_illegal {s : State} {f : Fetched} (hi : s.takenInterrupt = none) (hf : s.fetch = .ok f)
    (h : s.landingPadMissing f = true ∨ ∃ d, decodeFetched s.cfg f = .error d) :
    step s = mapNext State.nextAnswer (raiseIllegalFetched f s) := by
  by_cases hm : s.landingPadMissing f = true
  · simp [step, stepAnswered, hi, hf, hm]
  · obtain ⟨d, hd⟩ := h.resolve_left hm
    simp [step, stepAnswered, hi, hf, hm, execFetched, hd]

theorem illegalTval_of_zero {s : State} (h : s.cfg.xtvalIllegal = .zero) (c : Code) : s.illegalTval c = 0#64 := by
  simp only [State.illegalTval, h]

theorem illegalTval_of_instructionBits {s : State} (h : s.cfg.xtvalIllegal = .instructionBits) (c : Code) :
    s.illegalTval c = c.bits.setWidth 64 := by
  simp only [State.illegalTval, h]

/-- Unsettled instruction bits are a free trap value, but zero where `XTVAL_ILLEGAL` says so. -/
theorem raiseIllegalUnsettled_tval (s : State) :
    ∃ tv n, raiseIllegalUnsettled s = .next ((s.takeTrap (s.exceptionTarget 2) false 2 tv).withDraws n) ∧
      (s.cfg.xtvalIllegal = .zero → tv = 0#64) := by
  cases hx : s.cfg.xtvalIllegal with
  | zero =>
    refine ⟨0#64, s.draws, ?_, fun _ => rfl⟩
    rw [raiseIllegalUnsettled, hx]
    exact raise_eq_draws .illegalInstruction 0#64 s
  | instructionBits =>
    refine ⟨s.freeValue, s.draws + 1, ?_, nofun⟩
    rw [raiseIllegalUnsettled, hx]
    exact raiseFree_eq .illegalInstruction s

/-- The trap value of illegal-instruction on what was fetched: zero, or the bits of an encoding whose bits are settled. -/
theorem raiseIllegalFetched_tval (f : Fetched) (s : State) :
    ∃ tv n, raiseIllegalFetched f s = .next ((s.takeTrap (s.exceptionTarget 2) false 2 tv).withDraws n) ∧
      (s.cfg.xtvalIllegal = .zero → tv = 0#64) ∧
      ∀ c, f = .code c → (s.cfg.hasC = true ∨ ∃ w, c = .word w) → tv = s.illegalTval c := by
  by_cases hs : ∃ c, f = .code c ∧ (s.cfg.hasC = true ∨ ∃ w, c = .word w)
  · obtain ⟨c, rfl, hc⟩ := hs
    refine ⟨s.illegalTval c, s.draws, ?_, fun hz => illegalTval_of_zero hz c, fun d hd _ => by cases hd; rfl⟩
    rw [raiseIllegalFetched_code c s hc, takeTrap_withDraws_self]
  · have unsettled : raiseIllegalFetched f s = raiseIllegalUnsettled s := by
      match f with
      | .code (.word w) => exact absurd ⟨_, rfl, .inr ⟨w, rfl⟩⟩ hs
      | .code (.half p) => exact if_neg fun hC => hs ⟨_, rfl, .inl hC⟩
      | .long p => rfl
    obtain ⟨tv, n, run, zero⟩ := raiseIllegalUnsettled_tval s
    exact ⟨tv, n, unsettled.trans run, zero, fun c hc h => absurd ⟨c, hc, h⟩ hs⟩

/-- The step that illegal-instruction on what was fetched ends. -/
theorem step_of_illegal_frame {s : State} {f : Fetched} (hi : s.takenInterrupt = none) (hf : s.fetch = .ok f)
    (h : s.landingPadMissing f = true ∨ ∃ d, decodeFetched s.cfg f = .error d) :
    ∃ t, step s = .next t ∧ TrapStep s t ∧ (trapCsrsOf t (s.exceptionTarget 2)).cause = 2#64 ∧
      (trapCsrsOf t (s.exceptionTarget 2)).epc = s.pc ∧ savedElp t (s.exceptionTarget 2) = s.elp ∧
      (s.cfg.xtvalIllegal = .zero → (trapCsrsOf t (s.exceptionTarget 2)).tval = 0#64) ∧
      (∀ c, f = .code c → (s.cfg.hasC = true ∨ ∃ w, c = .word w) →
        (trapCsrsOf t (s.exceptionTarget 2)).tval = s.illegalTval c) ∧
      t.elp = .noLpExpected ∧ SameRegs s t ∧ ∀ a, t.mem.read a = s.mem.read a := by
  obtain ⟨tv, n, run, zero, settled⟩ := raiseIllegalFetched_tval f s
  obtain ⟨trap, csrs, saved, elp, regs, bytes, -⟩ := takeTrap_step_frame s (s.exceptionTarget 2) false 2 tv n rfl
  refine ⟨_, (step_of_illegal hi hf h).trans (by rw [run]; rfl), trap, ?cause, ?epc, saved, fun hz => ?zero,
    fun c hc hs => ?settled, elp, regs, bytes⟩
  case cause => rw [csrs]; exact causeWord_exception s.cfg.xlen 2
  case epc => rw [csrs]; rfl
  case zero => rw [csrs, zero hz]; exact Xlen.wrap_zero s.cfg.xlen
  case settled => rw [csrs, settled c hc hs]; exact illegalTval_fits c s

/-- Settles O46: the requirement is not met, and the pending `ELP` is saved. -/
theorem landingPadRequirement : Obligations.LandingPadRequirement := by
  intro s f hi hf hx he hl
  have missing : s.landingPadMissing f = true := by simp [State.landingPadMissing, hx, he, hl]
  obtain ⟨t, run, trap, cause, epc, saved, zero, settled, frame⟩ := step_of_illegal_frame hi hf (.inl missing)
  refine ⟨t, run, trap, cause, epc, saved.trans he, zero, fun hb w hw => ?word, fun hb hC h hh => ?half, frame⟩
  case word => exact (settled _ hw (.inr ⟨w, rfl⟩)).trans (illegalTval_of_instructionBits hb _)
  case half =>
    rw [settled _ hh (.inl hC), illegalTval_of_instructionBits hb, Code.bits]
    exact BitVec.setWidth_setWidth (by decide)

/-- Settles O47: the same trap for an encoding that is no instruction, and the lengths of R60. -/
theorem illegalEncodingTraps : Obligations.IllegalEncodingTraps := by
  refine ⟨fun s f d hi hf hd => ?traps, fun c p hC => ?noCompressed, fun _ _ => rfl,
    fun s p hq hp => ⟨fun h => ?half, fun h h2 => ?word, fun h h2 => ?long⟩⟩
  case traps =>
    obtain ⟨t, run, trap, cause, epc, saved, -, -, frame⟩ := step_of_illegal_frame hi hf (.inr ⟨d, hd⟩)
    exact ⟨t, run, trap, cause, epc, saved, frame⟩
  case noCompressed => exact if_neg (by simp [hC])
  all_goals subst hp
  case half => exact fetch_half hq (if_pos h)
  case word => exact fetch_word hq (by simp [lengthOf, h, h2])
  case long => exact fetch_long hq (by simp [lengthOf, h, h2])

end Sys2Proof.Machine
end
